-- ==== Sys2Proof/Word.lean ====
section
/-! DEFINITION. The 32-bit word of the BPC (R5: `WORD_BITS` and `VALUE_BITS` are both 32). -/

namespace Sys2Proof

/-- A 32-bit pattern: a memory word, a command word, an operand or a result. -/
abbrev Word := BitVec 32

end Sys2Proof
end

