-- ==== Sys2Proof/Syntax.lean ====
section
/-! DEFINITION. The commands of the BPC: one constructor for each row of the opcode table (R64), with the
immediate fields of R62 and, where the command uses it, the operand `arg` of the request (R60). -/

namespace Sys2Proof

/-- A request on the command channel (R60). -/
structure Request where
  cmd : Word
  arg : Word
deriving DecidableEq, Repr

/-- The stream that `ADDR` speaks of: its `s` bit (R62 format `S`). -/
inductive Stream where
  | main       -- `s = 0`
  | overflow   -- `s = 1`
deriving DecidableEq, Repr

/-- The seventeen commands. Immediate fields are unsigned numbers (R63) whose widths `WellFormed` bounds;
operands taken from `arg` are 32-bit patterns. A command that ignores `arg` (R67) has no such operand. -/
inductive Instr where
  | create (kind : Nat) (signed zigzag : Bool)
  | compress (len : Word)
  | compressk (k : Nat) (len : Word)
  | get (i : Word)
  | decompress (len : Word)
  | size
  | addr (s : Stream) (j : Word)
  | bitwidth (v : Word)
  | zzenc (x : Word)
  | zzdec (u : Word)
  | tcenc (k : Nat) (x : Word)
  | tcdec (k : Nat) (u : Word)
  | wrin (idx : Nat) (v : Word)
  | rdout (idx : Nat)
  | rdmain (idx : Nat)
  | rdovf (idx : Nat)
  | rdhdr (idx : Nat)
deriving DecidableEq, Repr

/-- Why a command word is no command (R65, R66). The block answers both with `IllegalCommand`. -/
inductive DecodeError where
  | reservedOpcode     -- R65: `op` is not in the table of R64
  | nonzeroZeroField   -- R66: a bit of the format's `zero` field is set
deriving DecidableEq, Repr

/-- A row of the opcode table of R64: the words of the command are those with `word & mask = value`. -/
structure OpcodeRow where
  mnemonic : String
  value : Word
  mask : Word
deriving DecidableEq, Repr

end Sys2Proof
end

