-- ==== Sys2Proof/WellFormed.lean ====
section
/-! DEFINITION. The instructions that have an encoding: every immediate fits its field (R62). -/

namespace Sys2Proof

/-- Every immediate field is within the width R62 gives it: `kind` and `k` 8 bits, `idx` 24 bits. Operands in
`arg`, the booleans and the stream bit fit by their types. -/
def Instr.wellFormed : Instr → Bool
  | .create kind _ _ => decide (kind < 2 ^ 8)
  | .compress _ => true
  | .compressk k _ => decide (k < 2 ^ 8)
  | .get _ => true
  | .decompress _ => true
  | .size => true
  | .addr _ _ => true
  | .bitwidth _ => true
  | .zzenc _ => true
  | .zzdec _ => true
  | .tcenc k _ => decide (k < 2 ^ 8)
  | .tcdec k _ => decide (k < 2 ^ 8)
  | .wrin idx _ => decide (idx < 2 ^ 24)
  | .rdout idx => decide (idx < 2 ^ 24)
  | .rdmain idx => decide (idx < 2 ^ 24)
  | .rdovf idx => decide (idx < 2 ^ 24)
  | .rdhdr idx => decide (idx < 2 ^ 24)

end Sys2Proof
end

