-- ==== Sys2Proof/Decode.lean ====
section
/-! DEFINITION. From a request to a command and back (30_encoding.md): the opcode table of R64, the decoder,
which looks at `cmd` alone for opcode and immediates (R60) and rejects by name (R65, R66), the encoder of
R68, and the pseudo-instructions of R69. -/

namespace Sys2Proof

/-- The opcode table of R64 with its masks. -/
def opcodeTable : List OpcodeRow :=
  [ ⟨"CREATE",     0x00000001#32, 0xFFFC00FF#32⟩,
    ⟨"COMPRESS",   0x00000002#32, 0xFFFFFFFF#32⟩,
    ⟨"COMPRESSK",  0x00000003#32, 0xFFFF00FF#32⟩,
    ⟨"GET",        0x00000004#32, 0xFFFFFFFF#32⟩,
    ⟨"DECOMPRESS", 0x00000005#32, 0xFFFFFFFF#32⟩,
    ⟨"SIZE",       0x00000006#32, 0xFFFFFFFF#32⟩,
    ⟨"ADDR",       0x00000007#32, 0xFFFFFEFF#32⟩,
    ⟨"BITWIDTH",   0x00000010#32, 0xFFFFFFFF#32⟩,
    ⟨"ZZENC",      0x00000011#32, 0xFFFFFFFF#32⟩,
    ⟨"ZZDEC",      0x00000012#32, 0xFFFFFFFF#32⟩,
    ⟨"TCENC",      0x00000013#32, 0xFFFF00FF#32⟩,
    ⟨"TCDEC",      0x00000014#32, 0xFFFF00FF#32⟩,
    ⟨"WRIN",       0x00000020#32, 0x000000FF#32⟩,
    ⟨"RDOUT",      0x00000021#32, 0x000000FF#32⟩,
    ⟨"RDMAIN",     0x00000022#32, 0x000000FF#32⟩,
    ⟨"RDOVF",      0x00000023#32, 0x000000FF#32⟩,
    ⟨"RDHDR",      0x00000024#32, 0x000000FF#32⟩ ]

/-- The name of a command, as R64 spells it. -/
def Instr.mnemonic : Instr → String
  | .create _ _ _ => "CREATE"
  | .compress _ => "COMPRESS"
  | .compressk _ _ => "COMPRESSK"
  | .get _ => "GET"
  | .decompress _ => "DECOMPRESS"
  | .size => "SIZE"
  | .addr _ _ => "ADDR"
  | .bitwidth _ => "BITWIDTH"
  | .zzenc _ => "ZZENC"
  | .zzdec _ => "ZZDEC"
  | .tcenc _ _ => "TCENC"
  | .tcdec _ _ => "TCDEC"
  | .wrin _ _ => "WRIN"
  | .rdout _ => "RDOUT"
  | .rdmain _ => "RDMAIN"
  | .rdovf _ => "RDOVF"
  | .rdhdr _ => "RDHDR"

/-- `cmd[lo + width - 1 : lo]` as an unsigned number (R6, R63). -/
def field (cmd : Word) (lo width : Nat) : Nat := cmd.toNat / 2 ^ lo % 2 ^ width

/-- `cmd[j]` as a truth value. -/
def bitField (cmd : Word) (j : Nat) : Bool := decide (field cmd j 1 = 1)

/-- The command, if `cmd[31:lo]`, its format's `zero` field, is all zeros (R66). -/
def whenZeroFrom (cmd : Word) (lo : Nat) (i : Instr) : Except DecodeError Instr :=
  if cmd.toNat / 2 ^ lo = 0 then .ok i else .error .nonzeroZeroField

/-- R60 to R67: the command of a request. -/
def decode (cmd arg : Word) : Except DecodeError Instr :=
  match field cmd 0 8 with
  | 0x01 => whenZeroFrom cmd 18 (.create (field cmd 8 8) (bitField cmd 16) (bitField cmd 17))
  | 0x02 => whenZeroFrom cmd 8 (.compress arg)
  | 0x03 => whenZeroFrom cmd 16 (.compressk (field cmd 8 8) arg)
  | 0x04 => whenZeroFrom cmd 8 (.get arg)
  | 0x05 => whenZeroFrom cmd 8 (.decompress arg)
  | 0x06 => whenZeroFrom cmd 8 .size
  | 0x07 => whenZeroFrom cmd 9 (.addr (if bitField cmd 8 then .overflow else .main) arg)
  | 0x10 => whenZeroFrom cmd 8 (.bitwidth arg)
  | 0x11 => whenZeroFrom cmd 8 (.zzenc arg)
  | 0x12 => whenZeroFrom cmd 8 (.zzdec arg)
  | 0x13 => whenZeroFrom cmd 16 (.tcenc (field cmd 8 8) arg)
  | 0x14 => whenZeroFrom cmd 16 (.tcdec (field cmd 8 8) arg)
  | 0x20 => .ok (.wrin (field cmd 8 24) arg)
  | 0x21 => .ok (.rdout (field cmd 8 24))
  | 0x22 => .ok (.rdmain (field cmd 8 24))
  | 0x23 => .ok (.rdovf (field cmd 8 24))
  | 0x24 => .ok (.rdhdr (field cmd 8 24))
  | _ => .error .reservedOpcode

/-- The command word with opcode `op` and the 24-bit immediate `imm` (R61). -/
def commandWord (imm op : Nat) : Word := BitVec.ofNat 32 (imm * 2 ^ 8 + op)

/-- The request that R68 writes for a command; `arg` is 0 where the command ignores it. -/
def encode : Instr → Request
  | .create kind signed zigzag =>
      ⟨commandWord (zigzag.toNat * 2 ^ 9 + signed.toNat * 2 ^ 8 + kind) 0x01, 0⟩
  | .compress len => ⟨commandWord 0 0x02, len⟩
  | .compressk k len => ⟨commandWord k 0x03, len⟩
  | .get i => ⟨commandWord 0 0x04, i⟩
  | .decompress len => ⟨commandWord 0 0x05, len⟩
  | .size => ⟨commandWord 0 0x06, 0⟩
  | .addr .main j => ⟨commandWord 0 0x07, j⟩
  | .addr .overflow j => ⟨commandWord 1 0x07, j⟩
  | .bitwidth v => ⟨commandWord 0 0x10, v⟩
  | .zzenc x => ⟨commandWord 0 0x11, x⟩
  | .zzdec u => ⟨commandWord 0 0x12, u⟩
  | .tcenc k x => ⟨commandWord k 0x13, x⟩
  | .tcdec k u => ⟨commandWord k 0x14, u⟩
  | .wrin idx v => ⟨commandWord idx 0x20, v⟩
  | .rdout idx => ⟨commandWord idx 0x21, 0⟩
  | .rdmain idx => ⟨commandWord idx 0x22, 0⟩
  | .rdovf idx => ⟨commandWord idx 0x23, 0⟩
  | .rdhdr idx => ⟨commandWord idx 0x24, 0⟩

/-- The request whose bits are `w`, its lowest `nbits` bits standing and every higher bit 0: `cmd` is bits 31:0,
`arg` bits 63:32. -/
def requestOfBits (nbits w : Nat) : Request :=
  ⟨BitVec.ofNat 32 (w % 2 ^ nbits), BitVec.ofNat 32 (w % 2 ^ nbits / 2 ^ 32)⟩

/-- The command the decoder reads from an instruction whose bits are `w`, as the opcode table numbers them. -/
def decodeTableWord (nbits w : Nat) : Option Instr :=
  (decode (requestOfBits nbits w).cmd (requestOfBits nbits w).arg).toOption

/-- `LOAD v0, v1, ...` of R69, from word `idx` of `IN` on. -/
def pseudoLoadFrom (idx : Nat) : List Word → List Instr
  | [] => []
  | v :: vs => .wrin idx v :: pseudoLoadFrom (idx + 1) vs

/-- `LOAD v0, ..., v(c-1)` of R69. -/
def pseudoLoad (vs : List Word) : List Instr := pseudoLoadFrom 0 vs

/-- `PACK v0, ..., v(c-1)` of R69. -/
def pseudoPack (vs : List Word) : List Instr := pseudoLoad vs ++ [.compress (BitVec.ofNat 32 vs.length)]

/-- The number a driver sends for a kind name (R14, R69): an unknown string becomes 255, the number the
spec's examples use. -/
def kindNumberOfName (name : String) : Nat :=
  if name = "cross" then 0
  else if name = "nocross" then 1
  else if name = "overflow-cross" then 2
  else if name = "overflow-nocross" then 3
  else 255

/-- The truth value as the digit of R68. -/
def asmBool (b : Bool) : String := if b then "1" else "0"

/-- The line R68 writes for a command, numbers in decimal; the `arg` of `ZZENC` and `TCENC`
is written signed, as those commands read it. -/
def Instr.asm : Instr → String
  | .create kind signed zigzag =>
      "CREATE " ++ toString kind ++ ", " ++ asmBool signed ++ ", " ++ asmBool zigzag
  | .compress len => "COMPRESS " ++ toString len.toNat
  | .compressk k len => "COMPRESSK " ++ toString k ++ ", " ++ toString len.toNat
  | .get i => "GET " ++ toString i.toNat
  | .decompress len => "DECOMPRESS " ++ toString len.toNat
  | .size => "SIZE"
  | .addr .main j => "ADDR 0, " ++ toString j.toNat
  | .addr .overflow j => "ADDR 1, " ++ toString j.toNat
  | .bitwidth v => "BITWIDTH " ++ toString v.toNat
  | .zzenc x => "ZZENC " ++ toString x.toInt
  | .zzdec u => "ZZDEC " ++ toString u.toNat
  | .tcenc k x => "TCENC " ++ toString k ++ ", " ++ toString x.toInt
  | .tcdec k u => "TCDEC " ++ toString k ++ ", " ++ toString u.toNat
  | .wrin idx v => "WRIN " ++ toString idx ++ ", " ++ toString v.toNat
  | .rdout idx => "RDOUT " ++ toString idx
  | .rdmain idx => "RDMAIN " ++ toString idx
  | .rdovf idx => "RDOVF " ++ toString idx
  | .rdhdr idx => "RDHDR " ++ toString idx

end Sys2Proof
end

