-- ==== Sys2Proof/Config.lean ====
section
/-! DEFINITION. What an implementation fixes (R5: the one open parameter is `N_MAX`) and the one family
of values the spec leaves unspecified. -/

namespace Sys2Proof

/-- The four memory spaces of R40. -/
inductive Space where
  | input   -- `IN`
  | main    -- `MAIN`
  | ovf     -- `OVF`
  | out     -- `OUT`
deriving DecidableEq, Repr

namespace Config

/-- DESIGN CHOICE (log 2): the `N_MAX` that `State.reset` shows in register `NMAX`. The spec leaves it open
with `1 <= N_MAX <= 2^24` (R5, D3); its programs use 16. No meaning reads this constant: each reads the
state's own register. -/
def nMax : Nat := 16

/-- FREE VALUE (log 4): what the word `index` of a space holds when nothing has written it since the
`epoch`-th reset. The spec calls it unspecified (R26 to R29, U3, U4). -/
opaque unspecifiedWord (epoch : Nat) (sp : Space) (index : Nat) : Word

end Config

end Sys2Proof
end

