-- ==== Sys2Proof/Machine/State.lean ====
section
/-! DEFINITION. The architectural state of the BPC (10_state.md), the model's own fields for what enters and
leaves the block, the reasons a step can stop, and the state after reset (R32, R250). -/

namespace Sys2Proof.Machine

/-- `CFG.KIND` (R14): the four kinds, with the codes 0, 1, 2, 3 in this order; no other value is ever stored. -/
inductive Kind where
  | cross
  | nocross
  | overflowCross
  | overflowNocross
deriving DecidableEq, Repr

/-- The layout of the streams (R14). -/
inductive Layout where
  | x    -- cross-boundary
  | nc   -- aligned slots
deriving DecidableEq, Repr

/-- The transform mode of a packer (R90). -/
inductive Mode where
  | none
  | zigzag
  | twos
deriving DecidableEq, Repr

/-- The values of the response field `err` (R220). -/
inductive Err where
  | ok
  | unknownKind
  | invalidBitWidth
  | valueOutOfRange
  | indexOutOfRange
  | sizeMismatch
  | emptyNotAllowed
  | illegalCommand
deriving DecidableEq, Repr

/-- A response (R60). -/
structure Response where
  err : Err
  res : Word
deriving DecidableEq, Repr

/-- What reaches the block from outside (log 1): a request on the command channel (R60), or the reset input
(R251), which is no request and is taken between commands. -/
inductive HostInput where
  | request (cmd arg : Word)
  | reset
deriving DecidableEq, Repr

/-- Header register 0, `CFG`, by its fields (R14); its other bits read 0. -/
structure Cfg where
  valid : Bool
  kind : Kind
  signed : Bool
  zigzag : Bool
deriving DecidableEq, Repr

/-- The twelve header registers (R13), each with the width of its field. -/
structure Header where
  cfg : Cfg
  n : Word
  k : BitVec 6
  kSmall : BitVec 6
  bMain : BitVec 6
  m : Word
  kOver : BitVec 6
  kTc : BitVec 6
  mainWords : Word
  ovfWords : Word
  outLen : Word
  nmax : Word
deriving DecidableEq, Repr

/-- The written words of one space (R40): pairs of word index and word, indices strictly rising. An index not
listed has not been written since reset. The unit is the 32-bit word, the smallest the spec has (log 10). -/
abbrev Mem := List (Nat × Word)

/-- The four memories (R26 to R29). -/
structure Memory where
  input : Mem
  main : Mem
  ovf : Mem
  out : Mem
deriving DecidableEq, Repr

/-- The state of the BPC. `hdr` and `mem` are what the spec gives the machine (R10: there is nothing else);
the other fields are the model's own. -/
structure State where
  hdr : Header
  mem : Memory
  /-- Model's own (log 1): what the host side has sent and the block has not taken yet, oldest first. -/
  inputs : List HostInput
  /-- Model's own (log 1): the responses given so far, oldest first. No command reads them (R12). -/
  responses : List Response
  /-- Model's own (log 4): how many resets have been taken; an argument of the free value of an unwritten word. -/
  epoch : Nat
deriving DecidableEq, Repr

/-- Why a step stops with a fault. Both are raised only in states that no run from reset reaches (log 6). -/
inductive Fault where
  /-- Raised by a memory access (`memRead`, `memWriteAll`, `extract`) to a word index at or beyond `NMAX`: no such
  word exists (R40). Safe: the model stops where the spec describes nothing. -/
  | noSuchWord (sp : Space) (index : Nat)
  /-- Raised by a packer unit (`pack`, `extract`, `ADDR`'s translator, the two's-complement decoder of `GET`) used
  with a width outside 1 to 32, for which it is not defined (R54, R98, R110, R130). Safe, for the same reason. -/
  | noSuchWidth (k : Nat)
deriving DecidableEq, Repr

/-- Why a step refuses. -/
inductive Refusal where
  /-- Raised by an arm of `exec` for a command that has no meaning yet. No arm raises it now. Safe. -/
  | notModelled (mnemonic : String)
deriving DecidableEq, Repr

/-- The header registers right after reset (R32): all 0, but for the constant `NMAX`. -/
def Header.reset (nmax : Word) : Header where
  cfg := ⟨false, .cross, false, false⟩
  n := 0
  k := 0
  kSmall := 0
  bMain := 0
  m := 0
  kOver := 0
  kTc := 0
  mainWords := 0
  ovfWords := 0
  outLen := 0
  nmax := nmax

/-- The memories right after reset (R32): nothing is written in any of them. -/
def Memory.reset : Memory := ⟨[], [], [], []⟩

/-- A BPC of `nmax` words per space right after reset (R250), with nothing pending. -/
def State.resetOf (nmax : Word) : State where
  hdr := Header.reset nmax
  mem := Memory.reset
  inputs := []
  responses := []
  epoch := 0

/-- The machine right after reset (R250), with the `N_MAX` of log 2. -/
def State.reset : State := State.resetOf (BitVec.ofNat 32 Config.nMax)

end Sys2Proof.Machine
end

