-- ==== Sys2Proof/Machine/Flags.lean ====
section
/-! DEFINITION. The BPC has no status flags or condition codes (R12). The only condition a command reports is the
4-bit error code of its response, given here (R220). -/

namespace Sys2Proof.Machine

/-- The code of an error in the response's `err` field (R220). -/
def errCode : Err → BitVec 4
  | .ok => 0
  | .unknownKind => 1
  | .invalidBitWidth => 2
  | .valueOutOfRange => 3
  | .indexOutOfRange => 4
  | .sizeMismatch => 5
  | .emptyNotAllowed => 6
  | .illegalCommand => 7

end Sys2Proof.Machine
end

