-- ==== Sys2Proof/Machine/Operands.lean ====
section
/-! DEFINITION. Operand forms and the arithmetic of 00_scope.md: how a 32-bit pattern is read (R8), the number
primitives of R6 and R7, and the quantities every rule derives from `CFG` (R14, R90). -/

namespace Sys2Proof.Machine

/-- `mask(k) = 2^k - 1` (R6). -/
def mask (k : Nat) : Nat := 2 ^ k - 1

/-- `ceil(a / b)` for `b >= 1` (R7). -/
def ceilDiv (a b : Nat) : Nat := (a + b - 1) / b

/-- `bitlen(v)` (R7): the number of bits of `v` without leading zeros. -/
def bitlen (v : Nat) : Nat := if v = 0 then 0 else Nat.log2 v + 1

/-- The maximum of a list, 0 for the empty one (R83, R146). -/
def maxOf (vs : List Nat) : Nat := vs.foldr max 0

/-- `s32(p)` (R8): the signed reading of a pattern. -/
def s32 (p : Word) : Int := if p.toNat < 2 ^ 31 then (p.toNat : Int) else (p.toNat : Int) - 2 ^ 32

/-- `u32(x) = x mod 2^32` (R8), as a number. -/
def u32 (x : Int) : Nat := (x % 2 ^ 32).toNat

/-- A width that the packer units accept (R5, R110, R130). -/
def legalWidth (k : Nat) : Bool := decide (1 ≤ k ∧ k ≤ 32)

/-- The kind of a kind code (R14); `none` for the codes 4 to 255, which name no kind (R171). -/
def kindOfCode : Nat → Option Kind
  | 0 => some .cross
  | 1 => some .nocross
  | 2 => some .overflowCross
  | 3 => some .overflowNocross
  | _ => none

/-- The code of a kind (R14). -/
def kindCode : Kind → Nat
  | .cross => 0
  | .nocross => 1
  | .overflowCross => 2
  | .overflowNocross => 3

/-- The layout of a kind: `X` for 0 and 2, `NC` for 1 and 3 (R14). -/
def layoutOf : Kind → Layout
  | .cross => .x
  | .nocross => .nc
  | .overflowCross => .x
  | .overflowNocross => .nc

/-- Whether a kind is an overflow kind (R14). -/
def isOverflow : Kind → Bool
  | .cross => false
  | .nocross => false
  | .overflowCross => true
  | .overflowNocross => true

/-- The transform mode (R14, R90): unsigned skips the transform, whatever `ZIGZAG` says. -/
def modeOf (cfg : Cfg) : Mode :=
  if cfg.signed then (if cfg.zigzag then .zigzag else .twos) else .none

/-- `CFG` as the 32-bit word that R14 and R170 give: `VALID` bit 31, `ZIGZAG` bit 9, `SIGNED` bit 8, `KIND` bits 7:0. -/
def cfgWord (cfg : Cfg) : Word :=
  BitVec.ofNat 32 (cfg.valid.toNat * 2 ^ 31 + cfg.zigzag.toNat * 2 ^ 9 + cfg.signed.toNat * 2 ^ 8 + kindCode cfg.kind)

/-- Header register number `idx` as `RDHDR` reads it (R13): a 6-bit field is zero-extended; `none` for the reserved
numbers 12 and above. -/
def headerRegister (h : Header) : Nat → Option Word
  | 0 => some (cfgWord h.cfg)
  | 1 => some h.n
  | 2 => some (h.k.setWidth 32)
  | 3 => some (h.kSmall.setWidth 32)
  | 4 => some (h.bMain.setWidth 32)
  | 5 => some h.m
  | 6 => some (h.kOver.setWidth 32)
  | 7 => some (h.kTc.setWidth 32)
  | 8 => some h.mainWords
  | 9 => some h.ovfWords
  | 10 => some h.outLen
  | 11 => some h.nmax
  | _ => none

end Sys2Proof.Machine
end

