-- ==== Sys2Proof/Machine/Ops.lean ====
section
/-! DEFINITION. The shared operations: the end of a command with a result or with an error (R9 (c), (d), R231), and
reading and writing words of the four spaces (R9 (b), R40). -/

namespace Sys2Proof.Machine

/-- What one command answers. -/
abbrev Answer := Host.Outcome State Fault Refusal

/-- Give one response and change nothing else. -/
def State.answer (s : State) (e : Err) (res : Word) : State :=
  { s with responses := s.responses ++ [⟨e, res⟩] }

/-- `respond(v)` (R9 (d)): the command ends with `err = 0` and `res = v mod 2^32`. -/
def respond (v : Nat) (s : State) : Answer := .next (s.answer .ok (BitVec.ofNat 32 v))

/-- TAKING AN EXCEPTION: `raise <Error>` (R9 (c), R228, R231, R232). The response carries the error and `res = 0`; no
register and no memory word changes, nothing is saved and control goes nowhere. There is no return from an
exception to model: the next request runs as if the failed one had not been issued (R233). -/
def raise (e : Err) (s : State) : Answer := .next (s.answer e 0)

/-- Go on with the value of a partial operation, or stop with its fault. -/
def orFault {α : Type} (r : Except Fault α) (f : α → Answer) : Answer :=
  match r with
  | .ok a => f a
  | .error e => .fault e

/-- The values of a list of partial operations, done in order; the first fault stops. -/
def collect {α : Type} : List (Except Fault α) → Except Fault (List α)
  | [] => .ok []
  | r :: rs =>
    match r with
    | .error e => .error e
    | .ok a =>
      match collect rs with
      | .error e => .error e
      | .ok as => .ok (a :: as)

/-- The word written at an index, if one has been written since reset. -/
def memFind : Mem → Nat → Option Word
  | [], _ => none
  | (b, w) :: m, a => if a = b then some w else memFind m a

/-- Write one word, keeping the indices strictly rising. -/
def memStore : Mem → Nat → Word → Mem
  | [], a, v => [(a, v)]
  | (b, w) :: m, a, v =>
    if a < b then (a, v) :: (b, w) :: m
    else if a = b then (a, v) :: m
    else (b, w) :: memStore m a v

/-- Write the words `vs` at the indices `a`, `a + 1`, ... in ascending order. -/
def memStoreFrom (m : Mem) (a : Nat) : List Word → Mem
  | [] => m
  | v :: vs => memStoreFrom (memStore m a v) (a + 1) vs

/-- The canonical form of one space: indices strictly rising. (An unlisted index reads as no value, so no entry
can equal what an unlisted one reads as.) -/
abbrev Mem.wf (m : Mem) : Prop := m.Pairwise (fun p q => p.1 < q.1)

/-- The canonical form of the four memories. -/
abbrev Memory.wf (m : Memory) : Prop := Mem.wf m.input ∧ Mem.wf m.main ∧ Mem.wf m.ovf ∧ Mem.wf m.out

/-- The contents of one space. -/
def memGet (m : Memory) : Space → Mem
  | .input => m.input
  | .main => m.main
  | .ovf => m.ovf
  | .out => m.out

/-- Replace the contents of one space. -/
def memSet (m : Memory) (sp : Space) (c : Mem) : Memory :=
  match sp with
  | .input => { m with input := c }
  | .main => { m with main := c }
  | .ovf => { m with ovf := c }
  | .out => { m with out := c }

/-- The word at an index of a space; a word nothing has written since reset is a free value (U3, log 4). -/
def State.word (s : State) (sp : Space) (a : Nat) : Word :=
  (memFind (memGet s.mem sp) a).getD (Config.unspecifiedWord s.epoch sp a)

/-- `MemRead(S:a, 1)` (R9 (b)). An index at or beyond `NMAX` names no word (R40). -/
def memRead (s : State) (sp : Space) (a : Nat) : Except Fault Word :=
  if a < s.hdr.nmax.toNat then .ok (s.word sp a) else .error (.noSuchWord sp a)

/-- `MemWrite(S:a, 1, v)`, `MemWrite(S:a+1, 1, v')`, ... for the words `vs` in ascending order (R9 (b)). None is
written when one of them would have no word to go to (R40). -/
def memWriteAll (s : State) (sp : Space) (a : Nat) (vs : List Word) : Except Fault State :=
  if a + vs.length ≤ s.hdr.nmax.toNat then
    .ok { s with mem := memSet s.mem sp (memStoreFrom (memGet s.mem sp) a vs) }
  else .error (.noSuchWord sp s.hdr.nmax.toNat)

end Sys2Proof.Machine
end

