-- ==== Sys2Proof/Machine/Channel.lean ====
section
/-! DEFINITION. What a step does beside running a command: taking the oldest input and taking a reset (R251). -/

namespace Sys2Proof.Machine

/-- The state after the reset input (R250, R251): header registers at their reset values, every memory word
unspecified again, `NMAX` the same constant. What the host side has still to send and what it has already been
given are outside the block and stay (log 5). -/
def takeReset (s : State) : State :=
  { s with hdr := Header.reset s.hdr.nmax, mem := Memory.reset, epoch := s.epoch + 1 }

/-- The state with its oldest input taken. -/
def dropInput (s : State) : State := { s with inputs := s.inputs.tail }

end Sys2Proof.Machine
end

