-- ==== Sys2Proof/Machine/Access.lean ====
section
/-! DEFINITION. The access commands (46_access_commands.md). `VALID` is not checked by any of them. -/

namespace Sys2Proof.Machine

/-- Read word `idx` of a space whose first `len` words are valid (R201, R202, R203). -/
def readWithin (sp : Space) (len : Word) (idx : Nat) (s : State) : Answer :=
  if len.toNat ≤ idx then raise .illegalCommand s
  else orFault (memRead s sp idx) fun w => respond w.toNat s

/-- `WRIN idx, v` (R200). -/
def execWrin (idx : Nat) (v : Word) (s : State) : Answer :=
  if s.hdr.nmax.toNat ≤ idx then raise .illegalCommand s
  else orFault (memWriteAll s .input idx [v]) fun s' => respond 0 s'

/-- `RDOUT idx` (R201). -/
def execRdout (idx : Nat) (s : State) : Answer := readWithin .out s.hdr.outLen idx s

/-- `RDMAIN idx` (R202). -/
def execRdmain (idx : Nat) (s : State) : Answer := readWithin .main s.hdr.mainWords idx s

/-- `RDOVF idx` (R203). -/
def execRdovf (idx : Nat) (s : State) : Answer := readWithin .ovf s.hdr.ovfWords idx s

/-- `RDHDR idx` (R204). -/
def execRdhdr (idx : Nat) (s : State) : Answer :=
  match headerRegister s.hdr idx with
  | none => raise .illegalCommand s
  | some w => respond w.toNat s

end Sys2Proof.Machine
end

