-- ==== Sys2Proof/Machine/BitWidth.lean ====
section
/-! DEFINITION. Unit 1, the bit-width calculator (40_bitwidth.md), and its command. -/

namespace Sys2Proof.Machine

/-- `bitWidthFor(v) = max(1, bitlen(v))` (R80). -/
def bitWidthFor (v : Nat) : Nat := max 1 (bitlen v)

/-- `BITWIDTH v` (R82). -/
def execBitwidth (v : Word) (s : State) : Answer := respond (bitWidthFor v.toNat) s

end Sys2Proof.Machine
end

