-- ==== Sys2Proof/Machine/Packers.lean ====
section
/-! DEFINITION. Units 3, 4 and 6: the cross-boundary packer (42_cross_packer.md), the aligned-slot packer
(43_nocross_packer.md) and the index-to-bit-address translator (R54). The functions on lists of words are the
units themselves; `pack` and `extract` (R56) apply them to a memory space. -/

namespace Sys2Proof.Machine

/-- `valuesPerWord` of the no-cross layout (R130). -/
def slotsPerWord (k : Nat) : Nat := 32 / k

/-- `BitAddr(L, k, j)` (R54). -/
def bitAddr (l : Layout) (k j : Nat) : Nat :=
  match l with
  | .x => j * k
  | .nc => j / slotsPerWord k * 32 + j % slotsPerWord k * k

/-- `WordsX` (R111) and `WordsNC` (R132): the words of a stream of `cnt` entries. -/
def streamWords (l : Layout) (cnt k : Nat) : Nat :=
  match l with
  | .x => ceilDiv (cnt * k) 32
  | .nc => ceilDiv cnt (slotsPerWord k)

/-- Word `w` of a cross stream (R112): its bit `b` is bit `a mod k` of value `a div k` at bit address
`a = 32 w + b`, and 0 beyond the last entry (R113, log 7). -/
def packWordX (vals : List Nat) (k w : Nat) : Nat :=
  ((List.range 32).map fun b =>
    if 32 * w + b < vals.length * k then
      vals.getD ((32 * w + b) / k) 0 / 2 ^ ((32 * w + b) % k) % 2 * 2 ^ b
    else 0).sum

/-- Word `w` of a no-cross stream (R133): slot `t` holds value `w * valuesPerWord + t` at bit `t * k`; an empty
slot and the bits above the slots are 0 (R134, log 7). -/
def packWordNC (vals : List Nat) (k w : Nat) : Nat :=
  ((List.range (slotsPerWord k)).map fun t =>
    if w * slotsPerWord k + t < vals.length then
      vals.getD (w * slotsPerWord k + t) 0 * 2 ^ (t * k)
    else 0).sum

/-- Word `w` of a stream in either layout. -/
def packWord (l : Layout) (vals : List Nat) (k w : Nat) : Nat :=
  match l with
  | .x => packWordX vals k w
  | .nc => packWordNC vals k w

/-- The words that `PackX` (R112) or `PackNC` (R133) writes for the values `vals` of width `k`. -/
def packWords (l : Layout) (vals : List Nat) (k : Nat) : List Word :=
  (List.range (streamWords l vals.length k)).map fun w => BitVec.ofNat 32 (packWord l vals k w)

/-- `ExtractX(S, k, j)` (R114) on the words of a stream: the second word is read only for a split entry. -/
def extractX (rd : Nat → Word) (k j : Nat) : Nat :=
  let w := j * k / 32
  let o := j * k % 32
  if o + k ≤ 32 then (rd w).toNat / 2 ^ o % 2 ^ k
  else (rd w).toNat / 2 ^ o + (rd (w + 1)).toNat % 2 ^ (o + k - 32) * 2 ^ (32 - o)

/-- `ExtractNC(S, k, j)` (R135) on the words of a stream: exactly one word is read. -/
def extractNC (rd : Nat → Word) (k j : Nat) : Nat :=
  let w := j / slotsPerWord k
  let o := j % slotsPerWord k * k
  (rd w).toNat / 2 ^ o % 2 ^ k

/-- Entry `j` of a stream in either layout (R56). -/
def extractWords (l : Layout) (rd : Nat → Word) (k j : Nat) : Nat :=
  match l with
  | .x => extractX rd k j
  | .nc => extractNC rd k j

/-- The index of the last word that extracting entry `j` reads: the word of the entry's last bit (R47, R116). -/
def lastWordOf (l : Layout) (k j : Nat) : Nat := (bitAddr l k j + k - 1) / 32

/-- `Extract(S, L, k, j)` (R56). The units are defined for widths 1 to 32 (R110, R130) and on words that exist (R40). -/
def extract (s : State) (sp : Space) (l : Layout) (k j : Nat) : Except Fault Nat :=
  if !legalWidth k then .error (.noSuchWidth k)
  else if lastWordOf l k j < s.hdr.nmax.toNat then .ok (extractWords l (s.word sp) k j)
  else .error (.noSuchWord sp (lastWordOf l k j))

/-- `Pack(S, L, vals, cnt, k)` (R56): the state with the stream written to words 0 and up of the space; the word
count is `streamWords`. -/
def pack (s : State) (sp : Space) (l : Layout) (vals : List Nat) (k : Nat) : Except Fault State :=
  if !legalWidth k then .error (.noSuchWidth k)
  else memWriteAll s sp 0 (packWords l vals k)

end Sys2Proof.Machine
end

