-- ==== Sys2Proof/Machine/Overflow.lean ====
section
/-! DEFINITION. Unit 5, the overflow-zone selector and encoder (44_overflow_encoder.md). -/

namespace Sys2Proof.Machine

/-- A candidate inline width with the numbers R147 computes for it. -/
structure Candidate where
  kSmall : Nat
  m : Nat
  kOver : Nat
  bMain : Nat
  total : Nat
deriving DecidableEq, Repr

/-- `T = 2^k_small - 1` (R145). -/
def threshold (ks : Nat) : Nat := 2 ^ ks - 1

/-- The codes above the threshold, one for each occurrence, in order of appearance (R147, R154). -/
def overflowCodes (codes : List Nat) (ks : Nat) : List Nat := codes.filter fun c => decide (threshold ks < c)

/-- `B_main` (R147, R149). -/
def bMainFor (ks m : Nat) : Nat := 1 + max ks (bitWidthFor (m - 1))

/-- `k_over` (R147, R148). -/
def kOverFor (ovs : List Nat) : Nat := if ovs.length = 0 then 0 else bitWidthFor (maxOf ovs)

/-- The numbers of one candidate (R147). -/
def candidate (codes : List Nat) (ks : Nat) : Candidate where
  kSmall := ks
  m := (overflowCodes codes ks).length
  kOver := kOverFor (overflowCodes codes ks)
  bMain := bMainFor ks (overflowCodes codes ks).length
  total := codes.length * bMainFor ks (overflowCodes codes ks).length +
    (overflowCodes codes ks).length * kOverFor (overflowCodes codes ks)

/-- The largest candidate: `min(Kmax, 31)` (R146). -/
def lastCandidate (codes : List Nat) : Nat := min (bitWidthFor (maxOf codes)) 31

/-- `SelectKSmall` (R150): the candidates in ascending order, a later one taken only for a strictly smaller total. -/
def selectKSmall (codes : List Nat) : Candidate :=
  (List.range' 2 (lastCandidate codes - 1)).foldl
    (fun best ks => if (candidate codes ks).total < best.total then candidate codes ks else best)
    (candidate codes 1)

/-- `BuildRecords` (R153) for codes met after `t` overflow occurrences: the records, `payload * 2 + flag`, and the
overflow table. -/
def buildRecords (ks : Nat) : Nat → List Nat → List Nat × List Nat
  | _, [] => ([], [])
  | t, c :: cs =>
    if c ≤ threshold ks then ((c * 2) :: (buildRecords ks t cs).1, (buildRecords ks t cs).2)
    else ((t * 2 + 1) :: (buildRecords ks (t + 1) cs).1, c :: (buildRecords ks (t + 1) cs).2)

/-- `EncodeOverflow` (R155), the two streams: the records into `MAIN` and, when there is an overflow value, the
table into `OVF`; with none `OVF` is not written. -/
def encodeOverflow (s : State) (l : Layout) (codes : List Nat) : Except Fault State :=
  match pack s .main l (buildRecords (selectKSmall codes).kSmall 0 codes).1 (selectKSmall codes).bMain with
  | .error e => .error e
  | .ok s' =>
    if (selectKSmall codes).m = 0 then .ok s'
    else pack s' .ovf l (buildRecords (selectKSmall codes).kSmall 0 codes).2 (selectKSmall codes).kOver

/-- The words of the overflow stream (R23, R155): 0 when the table is empty. -/
def ovfWordsFor (l : Layout) (m kOver : Nat) : Nat := if m = 0 then 0 else streamWords l m kOver

/-- `GetCodeOverflow(i)` (R156). -/
def getCodeOverflow (s : State) (i : Nat) : Except Fault Nat :=
  match extract s .main (layoutOf s.hdr.cfg.kind) s.hdr.bMain.toNat i with
  | .error e => .error e
  | .ok r =>
    if r % 2 = 0 then .ok (r / 2)
    else extract s .ovf (layoutOf s.hdr.cfg.kind) s.hdr.kOver.toNat (r / 2)

end Sys2Proof.Machine
end

