-- ==== Sys2Proof/Machine/SignedTransform.lean ====
section
/-! DEFINITION. Unit 2, the signed-to-unsigned transformer (41_signed_transform.md), and its four commands. -/

namespace Sys2Proof.Machine

/-- `ZzEnc(x)` (R91). -/
def zzEnc (x : Int) : Nat := if 0 ≤ x then (2 * x).toNat else (-2 * x - 1).toNat

/-- `ZzDec(u)` (R92); both divisions are exact. -/
def zzDec (u : Nat) : Int := if u % 2 = 0 then (u : Int) / 2 else -(((u : Int) + 1) / 2)

/-- `TcEnc(x, k) = x mod 2^k` (R96). -/
def tcEnc (x : Int) (k : Nat) : Nat := (x % 2 ^ k).toNat

/-- `TcDec(u, k)` (R98), for `1 <= k` and `u < 2^k`. -/
def tcDec (u k : Nat) : Int := if u < 2 ^ (k - 1) then (u : Int) else (u : Int) - 2 ^ k

/-- The condition of `TCENC` (R97): `x` is representable in `k` bits, for `1 <= k`. -/
def tcFits (x : Int) (k : Nat) : Bool := decide (-(2 ^ (k - 1)) ≤ x ∧ x ≤ 2 ^ (k - 1) - 1)

/-- The number whose length R101 takes: `x` when it is not negative, `-x - 1` otherwise. -/
def tcMagnitude (x : Int) : Nat := if 0 ≤ x then x.toNat else (-x - 1).toNat

/-- `K_TC` for an array of signed values (R101); 1 for the empty one. -/
def tcWidthFor (xs : List Int) : Nat := 1 + maxOf (xs.map fun x => bitlen (tcMagnitude x))

/-- The `K_TC` that a compress in this mode stores (R172): 0 outside mode `TWOS`. -/
def kTcFor (mode : Mode) (ws : List Word) : Nat :=
  match mode with
  | .none => 0
  | .zigzag => 0
  | .twos => tcWidthFor (ws.map s32)

/-- The code of one array word (R102). -/
def encodeCode (mode : Mode) (kTc : Nat) (w : Word) : Nat :=
  match mode with
  | .none => w.toNat
  | .zigzag => zzEnc (s32 w)
  | .twos => tcEnc (s32 w) kTc

/-- `EncodeArray` (R102): the codes of an array of words. -/
def encodeArray (mode : Mode) (ws : List Word) : List Nat := ws.map (encodeCode mode (kTcFor mode ws))

/-- `DecodeCode(c)` (R103), the 32-bit result pattern of a code. The two's-complement decoder is defined for the
widths 1 to 32 only (R98). -/
def decodeCode (mode : Mode) (kTc : Nat) (c : Nat) : Except Fault Word :=
  match mode with
  | .none => .ok (BitVec.ofNat 32 c)
  | .zigzag => .ok (BitVec.ofNat 32 (u32 (zzDec c)))
  | .twos => if legalWidth kTc then .ok (BitVec.ofNat 32 (u32 (tcDec c kTc))) else .error (.noSuchWidth kTc)

/-- `ZZENC x` (R93). -/
def execZzenc (x : Word) (s : State) : Answer := respond (zzEnc (s32 x)) s

/-- `ZZDEC u` (R95). -/
def execZzdec (u : Word) (s : State) : Answer := respond (u32 (zzDec u.toNat)) s

/-- `TCENC k, x` (R97). -/
def execTcenc (k : Nat) (x : Word) (s : State) : Answer :=
  if !legalWidth k then raise .invalidBitWidth s
  else if !tcFits (s32 x) k then raise .valueOutOfRange s
  else respond (tcEnc (s32 x) k) s

/-- `TCDEC k, u` (R99). -/
def execTcdec (k : Nat) (u : Word) (s : State) : Answer :=
  if !legalWidth k then raise .invalidBitWidth s
  else if mask k < u.toNat then raise .valueOutOfRange s
  else respond (u32 (tcDec u.toNat k)) s

end Sys2Proof.Machine
end

