-- ==== Sys2Proof/Machine/PackerCommands.lean ====
section
/-! DEFINITION. The packer commands (45_packer_commands.md): the factory, the uniform contract, `COMPRESSK` and
`ADDR`. Checks stand in the order of R230. -/

namespace Sys2Proof.Machine

/-- A header with this configuration and registers 1 to 9 cleared; `OUT_LEN` and `NMAX` stay (R170). -/
def clearedHeader (h : Header) (cfg : Cfg) : Header :=
  { Header.reset h.nmax with cfg := cfg, outLen := h.outLen }

/-- Registers 1 to 9 after a compress on a base kind (R172, R173, R175); the others stay. -/
def baseHeader (h : Header) (len : Word) (k kTc : Nat) : Header :=
  { h with
    n := len
    k := BitVec.ofNat 6 k
    kSmall := 0
    bMain := 0
    m := 0
    kOver := 0
    kTc := BitVec.ofNat 6 kTc
    mainWords := BitVec.ofNat 32 (streamWords (layoutOf h.cfg.kind) len.toNat k)
    ovfWords := 0 }

/-- Registers 1 to 9 after a compress on an overflow kind (R172, R174); the others stay. -/
def overflowHeader (h : Header) (len : Word) (c : Candidate) (kTc : Nat) : Header :=
  { h with
    n := len
    k := 0
    kSmall := BitVec.ofNat 6 c.kSmall
    bMain := BitVec.ofNat 6 c.bMain
    m := BitVec.ofNat 32 c.m
    kOver := BitVec.ofNat 6 c.kOver
    kTc := BitVec.ofNat 6 kTc
    mainWords := BitVec.ofNat 32 (streamWords (layoutOf h.cfg.kind) len.toNat c.bMain)
    ovfWords := BitVec.ofNat 32 (ovfWordsFor (layoutOf h.cfg.kind) c.m c.kOver) }

/-- The array that a compress reads: `IN[0] .. IN[len-1]` (R172). -/
def State.inputArray (s : State) (len : Nat) : List Word := (List.range len).map (s.word .input)

/-- The codes of that array in the packer's mode (R102). -/
def State.inputCodes (s : State) (len : Nat) : List Nat := encodeArray (modeOf s.hdr.cfg) (s.inputArray len)

/-- `CREATE kind, signed, zigzag` (R170, R171). -/
def execCreate (kind : Nat) (signed zigzag : Bool) (s : State) : Answer :=
  match kindOfCode kind with
  | none => raise .unknownKind s
  | some kd => respond 0 { s with hdr := clearedHeader s.hdr ⟨true, kd, signed, zigzag⟩ }

/-- R173 and R175 after their checks: pack the codes at width `k` and write registers 1 to 9. -/
def compressBase (s : State) (len : Word) (k : Nat) : Answer :=
  orFault (pack s .main (layoutOf s.hdr.cfg.kind) (s.inputCodes len.toNat) k) fun s' =>
    respond 0 { s' with
      hdr := baseHeader s.hdr len k (kTcFor (modeOf s.hdr.cfg) (s.inputArray len.toNat)) }

/-- R174: encode the codes as two streams and write registers 1 to 9. -/
def compressOverflow (s : State) (len : Word) : Answer :=
  orFault (encodeOverflow s (layoutOf s.hdr.cfg.kind) (s.inputCodes len.toNat)) fun s' =>
    respond 0 { s' with
      hdr := overflowHeader s.hdr len (selectKSmall (s.inputCodes len.toNat))
        (kTcFor (modeOf s.hdr.cfg) (s.inputArray len.toNat)) }

/-- `COMPRESS len` (R172, R185). -/
def execCompress (len : Word) (s : State) : Answer :=
  if !s.hdr.cfg.valid then raise .illegalCommand s
  else if s.hdr.nmax.toNat < len.toNat then raise .illegalCommand s
  else if isOverflow s.hdr.cfg.kind then compressOverflow s len
  else compressBase s len (bitWidthFor (maxOf (s.inputCodes len.toNat)))

/-- `COMPRESSK k, len` (R175). -/
def execCompressk (k : Nat) (len : Word) (s : State) : Answer :=
  if !s.hdr.cfg.valid then raise .illegalCommand s
  else if isOverflow s.hdr.cfg.kind then raise .illegalCommand s
  else if s.hdr.nmax.toNat < len.toNat then raise .illegalCommand s
  else if !legalWidth k then raise .invalidBitWidth s
  else if (s.inputCodes len.toNat).any (fun c => decide (mask k < c)) then raise .valueOutOfRange s
  else compressBase s len k

/-- `GetCode(i)` (R177). -/
def getCode (s : State) (i : Nat) : Except Fault Nat :=
  if isOverflow s.hdr.cfg.kind then getCodeOverflow s i
  else extract s .main (layoutOf s.hdr.cfg.kind) s.hdr.k.toNat i

/-- The value of element `i`: `DecodeCode(GetCode(i))` (R176, R178). -/
def getValue (s : State) (i : Nat) : Except Fault Word :=
  match getCode s i with
  | .error e => .error e
  | .ok c => decodeCode (modeOf s.hdr.cfg) s.hdr.kTc.toNat c

/-- `GET i` (R176). -/
def execGet (i : Word) (s : State) : Answer :=
  if !s.hdr.cfg.valid then raise .illegalCommand s
  else if s.hdr.n.toNat ≤ i.toNat then raise .indexOutOfRange s
  else orFault (getValue s i.toNat) fun v => respond v.toNat s

/-- `DECOMPRESS len` (R178). -/
def execDecompress (len : Word) (s : State) : Answer :=
  if !s.hdr.cfg.valid then raise .illegalCommand s
  else if len ≠ s.hdr.n then raise .sizeMismatch s
  else
    orFault (collect ((List.range s.hdr.n.toNat).map (getValue s))) fun vs =>
      orFault (memWriteAll s .out 0 vs) fun s' =>
        respond 0 { s' with hdr := { s'.hdr with outLen := s'.hdr.n } }

/-- `SIZE` (R180). -/
def execSize (s : State) : Answer :=
  if !s.hdr.cfg.valid then raise .illegalCommand s
  else respond s.hdr.n.toNat s

/-- The width of one main-stream entry (R22, R182): `K` for a base kind, `B_MAIN` for an overflow kind. -/
def mainEntryWidth (h : Header) : Nat := if isOverflow h.cfg.kind then h.bMain.toNat else h.k.toNat

/-- Answer with a bit address; the translator is defined for widths 1 to 32 (R54). -/
def respondBitAddr (l : Layout) (k j : Nat) (s : State) : Answer :=
  if !legalWidth k then .fault (.noSuchWidth k) else respond (bitAddr l k j) s

/-- `ADDR s, j` (R182). -/
def execAddr (st : Stream) (j : Word) (s : State) : Answer :=
  if !s.hdr.cfg.valid then raise .illegalCommand s
  else
    match st with
    | .main =>
      if s.hdr.n.toNat ≤ j.toNat then raise .indexOutOfRange s
      else respondBitAddr (layoutOf s.hdr.cfg.kind) (mainEntryWidth s.hdr) j.toNat s
    | .overflow =>
      if !isOverflow s.hdr.cfg.kind then raise .illegalCommand s
      else if s.hdr.m.toNat ≤ j.toNat then raise .indexOutOfRange s
      else respondBitAddr (layoutOf s.hdr.cfg.kind) s.hdr.kOver.toNat j.toNat s

end Sys2Proof.Machine
end

