-- ==== Sys2Proof/Machine/Dispatch.lean ====
section
/-! DEFINITION. One arm for each command of the opcode table (R64): a direct call of its meaning. -/

namespace Sys2Proof.Machine

def exec (i : Instr) (s : State) : Host.Outcome State Fault Refusal :=
  match i with
  | .create kind signed zigzag => Sys2Proof.Machine.execCreate kind signed zigzag s
  | .compress len => Sys2Proof.Machine.execCompress len s
  | .compressk k len => Sys2Proof.Machine.execCompressk k len s
  | .get j => Sys2Proof.Machine.execGet j s
  | .decompress len => Sys2Proof.Machine.execDecompress len s
  | .size => Sys2Proof.Machine.execSize s
  | .addr st j => Sys2Proof.Machine.execAddr st j s
  | .bitwidth v => Sys2Proof.Machine.execBitwidth v s
  | .zzenc x => Sys2Proof.Machine.execZzenc x s
  | .zzdec u => Sys2Proof.Machine.execZzdec u s
  | .tcenc k x => Sys2Proof.Machine.execTcenc k x s
  | .tcdec k u => Sys2Proof.Machine.execTcdec k u s
  | .wrin idx v => Sys2Proof.Machine.execWrin idx v s
  | .rdout idx => Sys2Proof.Machine.execRdout idx s
  | .rdmain idx => Sys2Proof.Machine.execRdmain idx s
  | .rdovf idx => Sys2Proof.Machine.execRdovf idx s
  | .rdhdr idx => Sys2Proof.Machine.execRdhdr idx s

end Sys2Proof.Machine
end

