-- ==== Sys2Proof/Machine/Step.lean ====
section
/-! DEFINITION. One step of the BPC: take the oldest input and carry it out. -/

namespace Sys2Proof.Machine

/-- R11, R52: the block takes one input at a time, in the order delivered, each to completion. A request that
decodes runs its command; one that does not is answered `IllegalCommand` (R65, R66); with nothing pending the
block is idle (R237, log 1). -/
def step (s : State) : Host.Outcome State Fault Refusal :=
  match s.inputs with
  | [] => .next s
  | .reset :: _ => .next (takeReset (dropInput s))
  | .request cmd arg :: _ =>
    match decode cmd arg with
    | .ok i => exec i (dropInput s)
    | .error _ => raise .illegalCommand (dropInput s)

/-- The state with the instruction whose bits are `w` as its oldest input, so that the next step runs it. -/
def State.withFetchWord (s : State) (nbits w : Nat) : State :=
  { s with inputs := .request (requestOfBits nbits w).cmd (requestOfBits nbits w).arg :: s.inputs }

end Sys2Proof.Machine
end

