-- ==== Sys2Proof/Safety.lean ====
section
/-! DEFINITION. The terms that claims use: the stream as a string of bits (R44, R45), the registers and memories
that an instruction leaves alone, and the invariants of the packed state (R30). -/

namespace Sys2Proof.Machine

/-- `StreamBit(S, a)` (R44). -/
def streamBit (s : State) (sp : Space) (a : Nat) : Bool := (s.word sp (a / 32)).getLsbD (a % 32)

/-- The `k` bits from bit address `a` of a space hold the value `v` (R45). -/
def HoldsEntry (s : State) (sp : Space) (k a v : Nat) : Prop :=
  v < 2 ^ k ∧ ∀ b, b < k → v.testBit b = streamBit s sp (a + b)

/-- The response of a command that answered with a next state. -/
def lastResponse (s : State) : Option Response := s.responses.getLast?

/-- `CFG.VALID` (R14). -/
def State.hasPacker (s : State) : Bool := s.hdr.cfg.valid

/-- The layout of the current packer (R14). -/
def State.layout (s : State) : Layout := layoutOf s.hdr.cfg.kind

/-- The transform mode of the current packer (R90). -/
def State.mode (s : State) : Mode := modeOf s.hdr.cfg

/-- Registers 1 to 9 are all 0 (R30 (f)): a packer that holds no array yet, or no packer. -/
def Header.Fresh (h : Header) : Prop :=
  h.n = 0 ∧ h.k = 0 ∧ h.kSmall = 0 ∧ h.bMain = 0 ∧ h.m = 0 ∧ h.kOver = 0 ∧ h.kTc = 0 ∧ h.mainWords = 0 ∧ h.ovfWords = 0

/-- R30 (c), with R16 and R22: the registers of a base kind after a compress. -/
def Header.BaseShape (h : Header) : Prop :=
  1 ≤ h.k.toNat ∧ h.k.toNat ≤ 32 ∧ h.kSmall = 0 ∧ h.bMain = 0 ∧ h.m = 0 ∧ h.kOver = 0 ∧ h.ovfWords = 0 ∧
    h.mainWords.toNat = streamWords (layoutOf h.cfg.kind) h.n.toNat h.k.toNat

/-- R30 (d), with R17 to R20, R22 and R23: the registers of an overflow kind after a compress. -/
def Header.OverflowShape (h : Header) : Prop :=
  h.k = 0 ∧ 1 ≤ h.kSmall.toNat ∧ h.kSmall.toNat ≤ 31 ∧ h.bMain.toNat = bMainFor h.kSmall.toNat h.m.toNat ∧
    h.bMain.toNat ≤ 32 ∧ (h.kOver = 0 ↔ h.m = 0) ∧ (h.m ≠ 0 → 2 ≤ h.kOver.toNat ∧ h.kOver.toNat ≤ 32) ∧
    h.mainWords.toNat = streamWords (layoutOf h.cfg.kind) h.n.toNat h.bMain.toNat ∧
    h.ovfWords.toNat = ovfWordsFor (layoutOf h.cfg.kind) h.m.toNat h.kOver.toNat

/-- The registers of the current packer after a compress, by its kind. -/
def Header.PackedShape (h : Header) : Prop :=
  if isOverflow h.cfg.kind then h.OverflowShape else h.BaseShape

/-- What R30 says of the header registers alone, with the range of `NMAX` (R5) and the bound of `OUT_LEN` (R29). -/
structure HeaderInv (h : Header) : Prop where
  nmax_pos : 1 ≤ h.nmax.toNat
  nmax_le : h.nmax.toNat ≤ 2 ^ 24
  no_packer : h.cfg.valid = false → h = Header.reset h.nmax
  n_le : h.n.toNat ≤ h.nmax.toNat
  m_le : h.m.toNat ≤ h.n.toNat
  mainWords_le : h.mainWords.toNat ≤ h.n.toNat
  ovfWords_le : h.ovfWords.toNat ≤ h.m.toNat
  outLen_le : h.outLen.toNat ≤ h.nmax.toNat
  shape : h.cfg.valid = true → h.Fresh ∨ h.PackedShape
  kTc_twos : h.cfg.valid = true → modeOf h.cfg = .twos → h.Fresh ∨ (1 ≤ h.kTc.toNat ∧ h.kTc.toNat ≤ 32)
  kTc_other : modeOf h.cfg ≠ .twos → h.kTc = 0

/-- Every listed word of a space exists (R40). -/
def WithinSpace (m : Mem) (nmax : Word) : Prop := ∀ p ∈ m, p.1 < nmax.toNat

/-- The first `len` words of a space have been written since reset. -/
def WrittenUpTo (m : Mem) (len : Word) : Prop := ∀ a, a < len.toNat → (memFind m a).isSome = true

/-- The memories are canonical, list only words that exist, and every word a read command can reach has been
written since reset (R250). -/
structure MemoryInv (s : State) : Prop where
  canonical : s.mem.wf
  input_within : WithinSpace s.mem.input s.hdr.nmax
  main_within : WithinSpace s.mem.main s.hdr.nmax
  ovf_within : WithinSpace s.mem.ovf s.hdr.nmax
  out_within : WithinSpace s.mem.out s.hdr.nmax
  main_written : WrittenUpTo s.mem.main s.hdr.mainWords
  ovf_written : WrittenUpTo s.mem.ovf s.hdr.ovfWords
  out_written : WrittenUpTo s.mem.out s.hdr.outLen

/-- Record `i` of the main stream of an overflow kind (R153). -/
def State.record (s : State) (i : Nat) : Nat := extractWords s.layout (s.word .main) s.hdr.bMain.toNat i

/-- The payloads of the records with flag 1, in index order (R154). -/
def State.overflowPayloads (s : State) : List Nat :=
  (((List.range s.hdr.n.toNat).map s.record).filter fun r => decide (r % 2 = 1)).map fun r => r / 2

/-- What R30 (d) says of the two streams of an overflow kind. -/
structure OverflowContents (s : State) : Prop where
  payloads : s.overflowPayloads = List.range s.hdr.m.toNat
  inline_le : ∀ i, i < s.hdr.n.toNat → s.record i % 2 = 0 → s.record i / 2 ≤ threshold s.hdr.kSmall.toNat
  table_gt : ∀ t, t < s.hdr.m.toNat →
    threshold s.hdr.kSmall.toNat < extractWords s.layout (s.word .ovf) s.hdr.kOver.toNat t

/-- The invariants of the packed state (R30), which hold after reset and after every command. -/
structure Inv (s : State) : Prop where
  header : HeaderInv s.hdr
  memory : MemoryInv s
  overflow : isOverflow s.hdr.cfg.kind = true → OverflowContents s
  codes_fit : s.mode = .twos → ∀ i c, i < s.hdr.n.toNat → getCode s i = .ok c → c < 2 ^ s.hdr.kTc.toNat

/-- Everything but the responses is as it was: what a command without effect on the state leaves (R51, R231). -/
def SameButResponses (s t : State) : Prop :=
  t.hdr = s.hdr ∧ t.mem = s.mem ∧ t.inputs = s.inputs ∧ t.epoch = s.epoch

/-- Everything but the header registers, the words of the spaces that `written` names, and the responses is as it was. -/
def SameOutside (written : Space → Bool) (s t : State) : Prop :=
  (∀ sp, written sp = false → memGet t.mem sp = memGet s.mem sp) ∧ t.inputs = s.inputs ∧ t.epoch = s.epoch

/-- The words of a space at index `len` and above are as they were. -/
def SameFrom (s t : State) (sp : Space) (len : Nat) : Prop := ∀ a, len ≤ a → t.word sp a = s.word sp a

/-- R102 said of the signed reading of a word: the code that a packer in this mode stores. -/
def codeOf (mode : Mode) (kTc : Nat) (w : Word) : Nat :=
  match mode with
  | .none => w.toNat
  | .zigzag => if 0 ≤ w.toInt then (2 * w.toInt).toNat else (-2 * w.toInt - 1).toNat
  | .twos => (w.toInt % 2 ^ kTc).toNat

/-- R103 said of the signed reading of the result: the pattern that a code stands for. -/
def valueOf (mode : Mode) (kTc c : Nat) : Word :=
  match mode with
  | .none => BitVec.ofNat 32 c
  | .zigzag => BitVec.ofInt 32 (if c % 2 = 0 then (c : Int) / 2 else -(((c : Int) + 1) / 2))
  | .twos => BitVec.ofInt 32 (if c < 2 ^ (kTc - 1) then (c : Int) else (c : Int) - 2 ^ kTc)

/-- `x` is representable in `k` bits of two's complement (R96), for `1 <= k`. -/
def FitsTwos (x : Int) (k : Nat) : Prop := -(2 ^ (k - 1)) ≤ x ∧ x ≤ 2 ^ (k - 1) - 1

/-- R101: `k` is the least width in 1 to 32 that represents every one of the first `len` input words. -/
def LeastTwosWidth (s : State) (len k : Nat) : Prop :=
  1 ≤ k ∧ k ≤ 32 ∧ (∀ i, i < len → FitsTwos (s.word .input i).toInt k) ∧
    ∀ j, 1 ≤ j → (∀ i, i < len → FitsTwos (s.word .input i).toInt j) → k ≤ j

/-- R101 and R172: the value of `K_TC` that compressing the first `len` input words leaves. -/
def TwosWidthOf (s : State) (len k : Nat) : Prop := if s.mode = .twos then LeastTwosWidth s len k else k = 0

/-- R80, R83: `k` is the least width of at least 1 into which the first `n` codes fit. -/
def LeastWidth (n : Nat) (c : Nat → Nat) (k : Nat) : Prop :=
  1 ≤ k ∧ (∀ i, i < n → c i ≤ 2 ^ k - 1) ∧ ∀ j, 1 ≤ j → (∀ i, i < n → c i ≤ 2 ^ j - 1) → k ≤ j

/-- `m` of R147: how many of the first `n` codes are above `2^ks - 1`. -/
def countAbove (n : Nat) (c : Nat → Nat) (ks : Nat) : Nat :=
  (List.range n).countP fun i => decide (2 ^ ks - 1 < c i)

/-- The largest of the first `n` codes, 0 when there is none. -/
def largestOf (n : Nat) (c : Nat → Nat) : Nat := ((List.range n).map c).foldr max 0

/-- `k_over` of R147, with `max_overflow` the largest code of all, as R148 explains. -/
def overWidth (n : Nat) (c : Nat → Nat) (ks : Nat) : Nat :=
  if countAbove n c ks = 0 then 0 else bitWidthFor (largestOf n c)

/-- `B_main` of R147. -/
def recordWidth (n : Nat) (c : Nat → Nat) (ks : Nat) : Nat := 1 + max ks (bitWidthFor (countAbove n c ks - 1))

/-- `total` of R147. -/
def totalBits (n : Nat) (c : Nat → Nat) (ks : Nat) : Nat :=
  n * recordWidth n c ks + countAbove n c ks * overWidth n c ks

/-- R146, R150: `ks` is the smallest inline width among those of least total. -/
def BestInlineWidth (n : Nat) (c : Nat → Nat) (ks : Nat) : Prop :=
  1 ≤ ks ∧ ks ≤ min (bitWidthFor (largestOf n c)) 31 ∧
    ∀ ks', 1 ≤ ks' → ks' ≤ min (bitWidthFor (largestOf n c)) 31 →
      totalBits n c ks ≤ totalBits n c ks' ∧ (totalBits n c ks' = totalBits n c ks → ks ≤ ks')

/-- R51: the commands that change no state at all. -/
def isReader : Instr → Bool
  | .create _ _ _ => false
  | .compress _ => false
  | .compressk _ _ => false
  | .get _ => true
  | .decompress _ => false
  | .size => true
  | .addr _ _ => true
  | .bitwidth _ => true
  | .zzenc _ => true
  | .zzdec _ => true
  | .tcenc _ _ => true
  | .tcdec _ _ => true
  | .wrin _ _ => false
  | .rdout _ => true
  | .rdmain _ => true
  | .rdovf _ => true
  | .rdhdr _ => true

/-- The commands that replace the packer or its array (R179 (b)). -/
def replacesArray : Instr → Bool
  | .create _ _ _ => true
  | .compress _ => true
  | .compressk _ _ => true
  | .get _ => false
  | .decompress _ => false
  | .size => false
  | .addr _ _ => false
  | .bitwidth _ => false
  | .zzenc _ => false
  | .zzdec _ => false
  | .tcenc _ _ => false
  | .tcdec _ _ => false
  | .wrin _ _ => false
  | .rdout _ => false
  | .rdmain _ => false
  | .rdovf _ => false
  | .rdhdr _ => false

end Sys2Proof.Machine
end

