-- ==== Sys2Proof/Certificates/Slice0/Obligations.lean ====
section
/-! DEFINITION. The statements for the provers. Each docstring names the rule of spec/ it formalises. Where a
statement speaks of the value of a word or of a code, it does so with `BitVec.toInt`, `BitVec.ofInt` and the formulas of
Safety.lean, not with the functions the meanings call. -/

open Sys2Proof Sys2Proof.Machine

/-! ### Encoding (30_encoding.md) -/

/-- R62, R64, R68: every well-formed command is read back from its own request. -/
def Obligations.DecodeOfEncode : Prop :=
  ∀ i : Instr, i.wellFormed = true → decode (encode i).cmd (encode i).arg = .ok i

/-- R60, R62, R67: a request that decodes gives a well-formed command whose own command word is the one sent, and
the operand sent either is the command's or does not matter. -/
def Obligations.EncodeOfDecode : Prop :=
  ∀ (cmd arg : Word) (i : Instr), decode cmd arg = .ok i →
    i.wellFormed = true ∧ (encode i).cmd = cmd ∧
      ((encode i).arg = arg ∨ ((encode i).arg = 0 ∧ ∀ arg', decode cmd arg' = .ok i))

/-- R64: a command word matches a row of the table exactly when it decodes to that row's command. -/
def Obligations.DecodeFollowsOpcodeTable : Prop :=
  ∀ (cmd arg : Word), ∀ row ∈ opcodeTable,
    (cmd &&& row.mask = row.value ↔ ∃ i, decode cmd arg = .ok i ∧ i.mnemonic = row.mnemonic)

/-- Words written out from R62, R64 and R68 by hand. -/
def Obligations.DecodingOfWrittenWords : Prop :=
  decode 0x00030101 0 = .ok (.create 1 true true) ∧
  decode 0x00000002 7 = .ok (.compress 7) ∧
  decode 0x00000303 2 = .ok (.compressk 3 2) ∧
  decode 0x00000107 1 = .ok (.addr .overflow 1) ∧
  decode 0x00000010 2048 = .ok (.bitwidth 2048) ∧
  decode 0x00000413 0xFFFFFFFD = .ok (.tcenc 4 0xFFFFFFFD) ∧
  decode 0x00000320 1024 = .ok (.wrin 3 1024) ∧
  decode 0x00000B24 0 = .ok (.rdhdr 11)

/-- R65: a request with a reserved opcode is answered `(IllegalCommand, 0)` and changes nothing else. -/
def Obligations.ReservedOpcodeIsIllegal : Prop :=
  ∀ (s : State) (cmd arg : Word) (rest : List HostInput), s.inputs = .request cmd arg :: rest →
    (let op := cmd.toNat % 256
     op = 0x00 ∨ (0x08 ≤ op ∧ op ≤ 0x0F) ∨ (0x15 ≤ op ∧ op ≤ 0x1F) ∨ 0x25 ≤ op) →
    step s = .next { s with inputs := rest, responses := s.responses ++ [⟨.illegalCommand, 0⟩] }

/-- R66, first sentence: a listed opcode whose `zero` field is not all zeros. -/
def Obligations.NonzeroZeroFieldIsIllegal : Prop :=
  ∀ (s : State) (cmd arg : Word) (rest : List HostInput), s.inputs = .request cmd arg :: rest →
    (let op := cmd.toNat % 256
     (op = 0x01 ∧ cmd.toNat / 2 ^ 18 ≠ 0) ∨
     ((op = 0x03 ∨ op = 0x13 ∨ op = 0x14) ∧ cmd.toNat / 2 ^ 16 ≠ 0) ∨
     (op = 0x07 ∧ cmd.toNat / 2 ^ 9 ≠ 0) ∨
     ((op = 0x02 ∨ op = 0x04 ∨ op = 0x05 ∨ op = 0x06 ∨ op = 0x10 ∨ op = 0x11 ∨ op = 0x12) ∧
       cmd.toNat / 2 ^ 8 ≠ 0)) →
    step s = .next { s with inputs := rest, responses := s.responses ++ [⟨.illegalCommand, 0⟩] }

/-! ### One step (R11, R52, R251) -/

/-- R11, R52: when the oldest input is a request that decodes, the step is that command's meaning, run with the
request taken off the channel. -/
def Obligations.StepRunsDecodedCommand : Prop :=
  ∀ (s : State) (cmd arg : Word) (rest : List HostInput) (i : Instr), s.inputs = .request cmd arg :: rest →
    decode cmd arg = .ok i → step s = exec i { s with inputs := rest }

/-- R250, R251: the reset input leaves every header register 0 but `NMAX`, nothing written in any memory, and no
response. That a memory lists no word stands for unspecified words (log 4); that the pending inputs and the past
responses stay is the model's (log 5). -/
def Obligations.ResetInputResets : Prop :=
  ∀ (s : State) (rest : List HostInput), s.inputs = .reset :: rest →
    ∃ t, step s = .next t ∧ t.hdr = Header.reset s.hdr.nmax ∧ t.mem = Memory.reset ∧
      t.inputs = rest ∧ t.responses = s.responses ∧
      (∀ idx, idx ≤ 10 → headerRegister t.hdr idx = some 0) ∧ headerRegister t.hdr 11 = some s.hdr.nmax

/-- The machine right after reset, as a host reads it (R32, with R201 to R204 and R252). That a memory lists no word is
how the model says that every word is unspecified, the model's choice of log 4. Which `N_MAX` is shown is the model's
choice of log 2: the statement says only that it is legal. -/
def Obligations.ResetValues : Prop :=
  (∀ idx, idx ≤ 10 → exec (.rdhdr idx) State.reset = .next { State.reset with responses := [⟨.ok, 0⟩] }) ∧
  (∃ nmax : Word, exec (.rdhdr 11) State.reset = .next { State.reset with responses := [⟨.ok, nmax⟩] } ∧
    1 ≤ nmax.toNat ∧ nmax.toNat ≤ 2 ^ 24) ∧
  (∀ sp, memGet State.reset.mem sp = []) ∧
  (∀ (idx : Nat) (i : Instr), i = .rdmain idx ∨ i = .rdovf idx ∨ i = .rdout idx →
    exec i State.reset = .next { State.reset with responses := [⟨.illegalCommand, 0⟩] })

/-- R252, its last part: the packer commands and the reads of the streams and of `OUT`, right after reset. -/
def Obligations.CommandsRightAfterReset : Prop :=
  ∀ (i : Instr),
    ((∃ len, i = .compress len) ∨ (∃ k len, i = .compressk k len) ∨ (∃ j, i = .get j) ∨
      (∃ len, i = .decompress len) ∨ i = .size ∨ (∃ st j, i = .addr st j) ∨ (∃ idx, i = .rdout idx) ∨
      (∃ idx, i = .rdmain idx) ∨ (∃ idx, i = .rdovf idx)) →
    exec i State.reset = .next { State.reset with responses := [⟨.illegalCommand, 0⟩] }

/-! ### The unit functions (40_bitwidth.md, 41_signed_transform.md) -/

/-- R80: `bitWidthFor v` is the least `k >= 1` with `v <= 2^k - 1`, for every number `v`; for a 32-bit operand it is at
most 32, and it is what `BITWIDTH` answers (R82), changing nothing else. -/
def Obligations.BitwidthIsLeastWidth : Prop :=
  (∀ v : Nat, 1 ≤ bitWidthFor v ∧ v ≤ 2 ^ bitWidthFor v - 1 ∧ ∀ j, 1 ≤ j → v ≤ 2 ^ j - 1 → bitWidthFor v ≤ j) ∧
  ∀ (v : Word) (s : State), bitWidthFor v.toNat ≤ 32 ∧
    exec (.bitwidth v) s =
      .next { s with responses := s.responses ++ [⟨.ok, BitVec.ofNat 32 (bitWidthFor v.toNat)⟩] }

/-- R81: monotone; the fit law; `ceil(log2)` forms, with `Nat.clog 2 v` for `ceil(log2 v)`. -/
def Obligations.BitWidthForLaws : Prop :=
  (∀ u v, u ≤ v → bitWidthFor u ≤ bitWidthFor v) ∧
  (∀ v k, 1 ≤ k → (v ≤ 2 ^ k - 1 ↔ bitWidthFor v ≤ k)) ∧
  (∀ v, 1 ≤ v → bitWidthFor v = Nat.clog 2 (v + 1)) ∧
  (∀ m, 2 ≤ m → bitWidthFor (m - 1) = Nat.clog 2 m)

/-- R91, R93: the zigzag code of the signed operand. -/
def Obligations.ZzencResult : Prop :=
  ∀ (x : Word) (s : State),
    exec (.zzenc x) s = .next { s with responses := s.responses ++
      [⟨.ok, BitVec.ofInt 32 (if 0 ≤ x.toInt then 2 * x.toInt else -2 * x.toInt - 1)⟩] }

/-- R92, R95: the signed number of a zigzag code. -/
def Obligations.ZzdecResult : Prop :=
  ∀ (u : Word) (s : State),
    exec (.zzdec u) s = .next { s with responses := s.responses ++
      [⟨.ok, BitVec.ofInt 32 (if u.toNat % 2 = 0 then (u.toNat : Int) / 2 else -(((u.toNat : Int) + 1) / 2))⟩] }

/-- R94 (a), R100: each zigzag command undoes the other, on every pattern and in any state. -/
def Obligations.ZigzagRoundTrip : Prop :=
  ∀ (x : Word) (s t : State),
    (∃ c, exec (.zzenc x) s = .next { s with responses := s.responses ++ [⟨.ok, c⟩] } ∧
      exec (.zzdec c) t = .next { t with responses := t.responses ++ [⟨.ok, x⟩] }) ∧
    (∃ c, exec (.zzdec x) s = .next { s with responses := s.responses ++ [⟨.ok, c⟩] } ∧
      exec (.zzenc c) t = .next { t with responses := t.responses ++ [⟨.ok, x⟩] })

/-- R96, R97: the two errors in their order, and the code `x mod 2^k`. -/
def Obligations.TcencResult : Prop :=
  ∀ (k : Nat) (x : Word) (s : State),
    exec (.tcenc k x) s = .next { s with responses := s.responses ++
      [if k = 0 ∨ 32 < k then ⟨.invalidBitWidth, 0⟩
       else if x.toInt < -(2 ^ (k - 1)) ∨ 2 ^ (k - 1) - 1 < x.toInt then ⟨.valueOutOfRange, 0⟩
       else ⟨.ok, BitVec.ofInt 32 (x.toInt % 2 ^ k)⟩] }

/-- R98, R99: the two errors in their order, and the code with its top bit read as the sign. -/
def Obligations.TcdecResult : Prop :=
  ∀ (k : Nat) (u : Word) (s : State),
    exec (.tcdec k u) s = .next { s with responses := s.responses ++
      [if k = 0 ∨ 32 < k then ⟨.invalidBitWidth, 0⟩
       else if 2 ^ k - 1 < u.toNat then ⟨.valueOutOfRange, 0⟩
       else ⟨.ok, BitVec.ofInt 32 (if u.getLsbD (k - 1) then (u.toNat : Int) - 2 ^ k else (u.toNat : Int))⟩] }

/-- R100: the two's-complement commands undo each other within the range of `k` bits. -/
def Obligations.TwosComplementRoundTrip : Prop :=
  ∀ (k : Nat) (x : Word) (s t : State), 1 ≤ k → k ≤ 32 → FitsTwos x.toInt k →
    ∃ c, exec (.tcenc k x) s = .next { s with responses := s.responses ++ [⟨.ok, c⟩] } ∧
      exec (.tcdec k c) t = .next { t with responses := t.responses ++ [⟨.ok, x⟩] }

/-! ### The packer units (20_memory.md section 5, 42 and 43) -/

/-- R111, R132, R137: the words of a stream; the no-cross stream is never shorter, and equally long when the
width divides 32. -/
def Obligations.StreamWordCounts : Prop :=
  ∀ cnt k : Nat, 1 ≤ k → k ≤ 32 →
    (cnt * k ≤ 32 * streamWords .x cnt k ∧ 32 * streamWords .x cnt k ≤ cnt * k + 31) ∧
    (∀ w, streamWords .nc cnt k ≤ w ↔ cnt ≤ w * (32 / k)) ∧
    streamWords .x cnt k ≤ streamWords .nc cnt k ∧ streamWords .nc cnt k ≤ cnt ∧
    (k ∣ 32 → streamWords .nc cnt k = streamWords .x cnt k)

/-- R54, R55: an entry's bits lie wholly inside the stream's words, and in layout `NC` inside one word. -/
def Obligations.EntriesLieInsideStream : Prop :=
  ∀ (l : Layout) (cnt k j : Nat), 1 ≤ k → k ≤ 32 → j < cnt →
    bitAddr l k j + k ≤ 32 * streamWords l cnt k ∧
    (l = .nc → bitAddr l k j % 32 + k ≤ 32)

/-- R44, R45, R114, R135: extracting entry `j` reads exactly the `k` bits from its bit address up. -/
def Obligations.ExtractReadsEntryBits : Prop :=
  ∀ (s : State) (sp : Space) (l : Layout) (k j : Nat), 1 ≤ k → k ≤ 32 →
    HoldsEntry s sp k (bitAddr l k j) (extractWords l (s.word sp) k j)

/-- R115: the cross-boundary packer's round trip. -/
def Obligations.CrossPackerRoundTrip : Prop :=
  ∀ (vals : List Nat) (k : Nat) (rd : Nat → Word), 1 ≤ k → k ≤ 32 → (∀ v ∈ vals, v ≤ 2 ^ k - 1) →
    (∀ w, w < streamWords .x vals.length k → (packWords .x vals k)[w]? = some (rd w)) →
    ∀ j v, vals[j]? = some v → extractX rd k j = v

/-- R136: the aligned-slot packer's round trip. -/
def Obligations.NocrossPackerRoundTrip : Prop :=
  ∀ (vals : List Nat) (k : Nat) (rd : Nat → Word), 1 ≤ k → k ≤ 32 → (∀ v ∈ vals, v ≤ 2 ^ k - 1) →
    (∀ w, w < streamWords .nc vals.length k → (packWords .nc vals k)[w]? = some (rd w)) →
    ∀ j v, vals[j]? = some v → extractNC rd k j = v

/-- A bit of a packed word that belongs to no entry is written 0: the model's choice of log 7, which follows the
decision D7 in R113 and R134. U1 of 93_implementation_defined.md leaves these bits open. -/
def Obligations.PaddingBitsAreZero : Prop :=
  ∀ (l : Layout) (vals : List Nat) (k w b : Nat) (word : Word), 1 ≤ k → k ≤ 32 → (∀ v ∈ vals, v ≤ 2 ^ k - 1) →
    (packWords l vals k)[w]? = some word → b < 32 →
    (∀ j, j < vals.length → ¬ (bitAddr l k j ≤ 32 * w + b ∧ 32 * w + b < bitAddr l k j + k)) →
    word.getLsbD b = false

/-! ### The packer commands (45_packer_commands.md) -/

/-- R170: a known kind. Registers 1 to 9 become 0, `OUT_LEN` and `NMAX` stay, no memory is touched. -/
def Obligations.CreateResult : Prop :=
  ∀ (kind : Nat) (kd : Kind) (signed zigzag : Bool) (s : State),
    (kind = 0 ∧ kd = .cross) ∨ (kind = 1 ∧ kd = .nocross) ∨ (kind = 2 ∧ kd = .overflowCross) ∨
      (kind = 3 ∧ kd = .overflowNocross) →
    ∃ t, exec (.create kind signed zigzag) s = .next t ∧
      t = { s with
        hdr := { Header.reset s.hdr.nmax with cfg := ⟨true, kd, signed, zigzag⟩, outLen := s.hdr.outLen }
        responses := s.responses ++ [⟨.ok, 0⟩] } ∧
      headerRegister t.hdr 0 = some (BitVec.ofNat 32 (2 ^ 31 + zigzag.toNat * 2 ^ 9 + signed.toNat * 2 ^ 8 + kind)) ∧
      (∀ idx, 1 ≤ idx → idx ≤ 9 → headerRegister t.hdr idx = some 0)

/-- R171, R221: any other kind code. -/
def Obligations.UnknownKindIsRejected : Prop :=
  ∀ (kind : Nat) (signed zigzag : Bool) (s : State), 4 ≤ kind →
    exec (.create kind signed zigzag) s =
      .next { s with responses := s.responses ++ [⟨.unknownKind, 0⟩] }

/-- R181: the packer commands before any `CREATE`. -/
def Obligations.PackerCommandsNeedPacker : Prop :=
  ∀ (s : State) (i : Instr), s.hasPacker = false →
    ((∃ len, i = .compress len) ∨ (∃ k len, i = .compressk k len) ∨ (∃ j, i = .get j) ∨
      (∃ len, i = .decompress len) ∨ i = .size ∨ (∃ st j, i = .addr st j)) →
    exec i s = .next { s with responses := s.responses ++ [⟨.illegalCommand, 0⟩] }

/-- R172, R173 with R101, R102, R112, R133: `COMPRESS` on a base kind. `K` is the least width for the codes, each entry
of `MAIN` holds its code, the words above the stream and every other memory stay. -/
def Obligations.CompressBaseResult : Prop :=
  ∀ (s : State) (len : Word), s.hasPacker = true → isOverflow s.hdr.cfg.kind = false →
    len.toNat ≤ s.hdr.nmax.toNat →
    ∃ (t : State) (k kTc : Nat), exec (.compress len) s = .next t ∧
      TwosWidthOf s len.toNat kTc ∧ k ≤ 32 ∧
      LeastWidth len.toNat (fun i => codeOf s.mode kTc (s.word .input i)) k ∧
      t.hdr = { s.hdr with
        n := len, k := BitVec.ofNat 6 k, kSmall := 0, bMain := 0, m := 0, kOver := 0, kTc := BitVec.ofNat 6 kTc,
        mainWords := BitVec.ofNat 32 (streamWords s.layout len.toNat k), ovfWords := 0 } ∧
      t.responses = s.responses ++ [⟨.ok, 0⟩] ∧
      (∀ i, i < len.toNat → HoldsEntry t .main k (bitAddr s.layout k i) (codeOf s.mode kTc (s.word .input i))) ∧
      SameFrom s t .main (streamWords s.layout len.toNat k) ∧
      SameOutside (fun sp => decide (sp = .main)) s t

/-- R172, R174 with R145 to R155: `COMPRESS` on an overflow kind. `K_SMALL` is the smallest inline width of least
total; each record of `MAIN` holds `code * 2` or `index * 2 + 1`, where the index is the number of overflow codes before
it; the table in `OVF` holds the overflow codes in that order. -/
def Obligations.CompressOverflowResult : Prop :=
  ∀ (s : State) (len : Word), s.hasPacker = true → isOverflow s.hdr.cfg.kind = true →
    len.toNat ≤ s.hdr.nmax.toNat → s.hdr.nmax.toNat ≤ 2 ^ 24 →
    ∃ (t : State) (ks kTc : Nat), exec (.compress len) s = .next t ∧
      TwosWidthOf s len.toNat kTc ∧
      (let n := len.toNat
       let c := fun i => codeOf s.mode kTc (s.word .input i)
       let m := countAbove n c ks
       let b := recordWidth n c ks
       let kOver := overWidth n c ks
       BestInlineWidth n c ks ∧ b ≤ 32 ∧ kOver ≤ 32 ∧
       t.hdr = { s.hdr with
         n := len, k := 0, kSmall := BitVec.ofNat 6 ks, bMain := BitVec.ofNat 6 b, m := BitVec.ofNat 32 m,
         kOver := BitVec.ofNat 6 kOver, kTc := BitVec.ofNat 6 kTc,
         mainWords := BitVec.ofNat 32 (streamWords s.layout n b),
         ovfWords := BitVec.ofNat 32 (if m = 0 then 0 else streamWords s.layout m kOver) } ∧
       (∀ i, i < n →
         if c i ≤ 2 ^ ks - 1 then HoldsEntry t .main b (bitAddr s.layout b i) (c i * 2)
         else HoldsEntry t .main b (bitAddr s.layout b i) (countAbove i c ks * 2 + 1) ∧
           HoldsEntry t .ovf kOver (bitAddr s.layout kOver (countAbove i c ks)) (c i)) ∧
       SameFrom s t .main (streamWords s.layout n b) ∧
       SameFrom s t .ovf (if m = 0 then 0 else streamWords s.layout m kOver)) ∧
      t.responses = s.responses ++ [⟨.ok, 0⟩] ∧
      SameOutside (fun sp => decide (sp = .main ∨ sp = .ovf)) s t

/-- R175, where it succeeds: `COMPRESSK` packs the codes at the caller's width. -/
def Obligations.CompresskResult : Prop :=
  ∀ (s : State) (k : Nat) (len : Word) (kTc : Nat), s.hasPacker = true → isOverflow s.hdr.cfg.kind = false →
    len.toNat ≤ s.hdr.nmax.toNat → 1 ≤ k → k ≤ 32 → TwosWidthOf s len.toNat kTc →
    (∀ i, i < len.toNat → codeOf s.mode kTc (s.word .input i) ≤ 2 ^ k - 1) →
    ∃ t, exec (.compressk k len) s = .next t ∧
      t.hdr = { s.hdr with
        n := len, k := BitVec.ofNat 6 k, kSmall := 0, bMain := 0, m := 0, kOver := 0, kTc := BitVec.ofNat 6 kTc,
        mainWords := BitVec.ofNat 32 (streamWords s.layout len.toNat k), ovfWords := 0 } ∧
      t.responses = s.responses ++ [⟨.ok, 0⟩] ∧
      (∀ i, i < len.toNat → HoldsEntry t .main k (bitAddr s.layout k i) (codeOf s.mode kTc (s.word .input i))) ∧
      SameFrom s t .main (streamWords s.layout len.toNat k) ∧
      SameOutside (fun sp => decide (sp = .main)) s t

/-- R172, R175, R227, R230: the errors of `COMPRESS` and `COMPRESSK` with a packer, the first that applies. -/
def Obligations.CompressErrors : Prop :=
  ∀ (s : State) (k : Nat) (len : Word) (kTc : Nat), s.hasPacker = true → TwosWidthOf s len.toNat kTc →
    (s.hdr.nmax.toNat < len.toNat →
      exec (.compress len) s = .next { s with responses := s.responses ++ [⟨.illegalCommand, 0⟩] }) ∧
    (isOverflow s.hdr.cfg.kind = true ∨ s.hdr.nmax.toNat < len.toNat →
      exec (.compressk k len) s = .next { s with responses := s.responses ++ [⟨.illegalCommand, 0⟩] }) ∧
    (isOverflow s.hdr.cfg.kind = false → len.toNat ≤ s.hdr.nmax.toNat → (k = 0 ∨ 32 < k) →
      exec (.compressk k len) s = .next { s with responses := s.responses ++ [⟨.invalidBitWidth, 0⟩] }) ∧
    (isOverflow s.hdr.cfg.kind = false → len.toNat ≤ s.hdr.nmax.toNat → 1 ≤ k → k ≤ 32 →
      (∃ i, i < len.toNat ∧ 2 ^ k - 1 < codeOf s.mode kTc (s.word .input i)) →
      exec (.compressk k len) s = .next { s with responses := s.responses ++ [⟨.valueOutOfRange, 0⟩] })

/-- R175: `COMPRESSK` at the computed width has exactly the effect of `COMPRESS`. -/
def Obligations.CompresskAtLeastWidthIsCompress : Prop :=
  ∀ (s : State) (k : Nat) (len : Word) (kTc : Nat), isOverflow s.hdr.cfg.kind = false →
    TwosWidthOf s len.toNat kTc → LeastWidth len.toNat (fun i => codeOf s.mode kTc (s.word .input i)) k →
    exec (.compressk k len) s = exec (.compress len) s

/-- R185: the zero-length array, on every kind and in every mode. -/
def Obligations.ZeroLengthArray : Prop :=
  ∀ s : State, s.hasPacker = true →
    ∃ t, exec (.compress 0) s = .next t ∧
      t.responses = s.responses ++ [⟨.ok, 0⟩] ∧ t.mem = s.mem ∧ t.inputs = s.inputs ∧ t.epoch = s.epoch ∧
      t.hdr = { s.hdr with
        n := 0, k := if isOverflow s.hdr.cfg.kind then 0 else 1,
        kSmall := if isOverflow s.hdr.cfg.kind then 1 else 0,
        bMain := if isOverflow s.hdr.cfg.kind then 2 else 0,
        m := 0, kOver := 0, kTc := if s.mode = .twos then 1 else 0, mainWords := 0, ovfWords := 0 } ∧
      exec .size t = .next { t with responses := t.responses ++ [⟨.ok, 0⟩] } ∧
      (∀ i, exec (.get i) t = .next { t with responses := t.responses ++ [⟨.indexOutOfRange, 0⟩] }) ∧
      exec (.decompress 0) t = .next { t with
        hdr := { t.hdr with outLen := 0 }, responses := t.responses ++ [⟨.ok, 0⟩] }

/-- R176, R177 with R45, R103: `GET` on a base kind reads the entry at the index's bit address. -/
def Obligations.GetBaseResult : Prop :=
  ∀ (s : State) (i : Word), HeaderInv s.hdr → s.hasPacker = true → isOverflow s.hdr.cfg.kind = false →
    i.toNat < s.hdr.n.toNat →
    ∃ c, HoldsEntry s .main s.hdr.k.toNat (bitAddr s.layout s.hdr.k.toNat i.toNat) c ∧
      exec (.get i) s = .next { s with responses := s.responses ++
        [⟨.ok, valueOf s.mode s.hdr.kTc.toNat c⟩] }

/-- R156, R176 with R45, R103: `GET` on an overflow kind decodes the record at the index's bit address and, when its
flag is 1, the table entry that its payload names. -/
def Obligations.GetOverflowResult : Prop :=
  ∀ (s : State) (i : Word), Inv s → s.hasPacker = true → isOverflow s.hdr.cfg.kind = true →
    i.toNat < s.hdr.n.toNat →
    ∃ r, HoldsEntry s .main s.hdr.bMain.toNat (bitAddr s.layout s.hdr.bMain.toNat i.toNat) r ∧
      ∃ c, exec (.get i) s = .next { s with responses := s.responses ++
          [⟨.ok, valueOf s.mode s.hdr.kTc.toNat c⟩] } ∧
        (r % 2 = 0 → c = r / 2) ∧
        (r % 2 = 1 → r / 2 < s.hdr.m.toNat ∧
          HoldsEntry s .ovf s.hdr.kOver.toNat (bitAddr s.layout s.hdr.kOver.toNat (r / 2)) c)

/-- R224: the index errors of `GET` and `ADDR`. -/
def Obligations.IndexOutOfRangeIsAnswered : Prop :=
  ∀ (s : State) (j : Word), s.hasPacker = true →
    (s.hdr.n.toNat ≤ j.toNat →
      exec (.get j) s = .next { s with responses := s.responses ++ [⟨.indexOutOfRange, 0⟩] } ∧
      exec (.addr .main j) s = .next { s with responses := s.responses ++ [⟨.indexOutOfRange, 0⟩] }) ∧
    (isOverflow s.hdr.cfg.kind = true → s.hdr.m.toNat ≤ j.toNat →
      exec (.addr .overflow j) s = .next { s with responses := s.responses ++ [⟨.indexOutOfRange, 0⟩] }) ∧
    (isOverflow s.hdr.cfg.kind = false →
      exec (.addr .overflow j) s = .next { s with responses := s.responses ++ [⟨.illegalCommand, 0⟩] })

/-- R178, R179 (b): `DECOMPRESS` of the right length writes, for every index, the word that `GET` answers. -/
def Obligations.DecompressResult : Prop :=
  ∀ (s : State), Inv s → s.hasPacker = true →
    ∃ t, exec (.decompress s.hdr.n) s = .next t ∧
      t.hdr = { s.hdr with outLen := s.hdr.n } ∧ t.responses = s.responses ++ [⟨.ok, 0⟩] ∧
      (∀ i : Word, i.toNat < s.hdr.n.toNat →
        exec (.get i) s = .next { s with responses := s.responses ++ [⟨.ok, t.word .out i.toNat⟩] }) ∧
      SameFrom s t .out s.hdr.n.toNat ∧ SameOutside (fun sp => decide (sp = .out)) s t

/-- R225: a wrong buffer length. -/
def Obligations.SizeMismatchIsAnswered : Prop :=
  ∀ (s : State) (len : Word), s.hasPacker = true → len ≠ s.hdr.n →
    exec (.decompress len) s = .next { s with responses := s.responses ++ [⟨.sizeMismatch, 0⟩] }

/-- R180: `SIZE`. -/
def Obligations.SizeResult : Prop :=
  ∀ s : State, s.hasPacker = true →
    exec .size s = .next { s with responses := s.responses ++ [⟨.ok, s.hdr.n⟩] }

/-- R54, R182: the bit address that `ADDR` answers, by the formulas of R54. -/
def Obligations.AddrResult : Prop :=
  ∀ (s : State) (j : Word), HeaderInv s.hdr → s.hasPacker = true →
    (let addrOf := fun (k : Nat) =>
       if s.hdr.cfg.kind = .cross ∨ s.hdr.cfg.kind = .overflowCross then j.toNat * k
       else j.toNat / (32 / k) * 32 + j.toNat % (32 / k) * k
     (j.toNat < s.hdr.n.toNat →
       (let k := if s.hdr.cfg.kind = .cross ∨ s.hdr.cfg.kind = .nocross then s.hdr.k.toNat else s.hdr.bMain.toNat
        exec (.addr .main j) s = .next { s with responses := s.responses ++ [⟨.ok, BitVec.ofNat 32 (addrOf k)⟩] } ∧
        addrOf k + k ≤ 32 * s.hdr.mainWords.toNat)) ∧
     (isOverflow s.hdr.cfg.kind = true → j.toNat < s.hdr.m.toNat →
       exec (.addr .overflow j) s =
         .next { s with responses := s.responses ++ [⟨.ok, BitVec.ofNat 32 (addrOf s.hdr.kOver.toNat)⟩] } ∧
       addrOf s.hdr.kOver.toNat + s.hdr.kOver.toNat ≤ 32 * s.hdr.ovfWords.toNat))

/-! ### The access commands (46_access_commands.md) -/

/-- R200: `WRIN` from its command word; it writes one word of `IN` and nothing else; an index that `IN` does not have
is illegal. -/
def Obligations.WrinResult : Prop :=
  ∀ (idx : Nat) (v : Word) (s : State),
    (idx < 2 ^ 24 → decode (BitVec.ofNat 32 (idx * 2 ^ 8 + 0x20)) v = .ok (.wrin idx v)) ∧
    (idx < s.hdr.nmax.toNat →
      ∃ t, exec (.wrin idx v) s = .next t ∧ t.word .input idx = v ∧
        (∀ a, a ≠ idx → t.word .input a = s.word .input a) ∧ t.hdr = s.hdr ∧
        t.responses = s.responses ++ [⟨.ok, 0⟩] ∧ SameOutside (fun sp => decide (sp = .input)) s t) ∧
    (s.hdr.nmax.toNat ≤ idx →
      exec (.wrin idx v) s = .next { s with responses := s.responses ++ [⟨.illegalCommand, 0⟩] })

/-- R201 to R203: the stream and buffer reads within and beyond the valid length. -/
def Obligations.ReadWordResult : Prop :=
  ∀ (idx : Nat) (s : State), HeaderInv s.hdr →
    exec (.rdout idx) s = .next { s with responses := s.responses ++
      [if idx < s.hdr.outLen.toNat then ⟨.ok, s.word .out idx⟩ else ⟨.illegalCommand, 0⟩] } ∧
    exec (.rdmain idx) s = .next { s with responses := s.responses ++
      [if idx < s.hdr.mainWords.toNat then ⟨.ok, s.word .main idx⟩ else ⟨.illegalCommand, 0⟩] } ∧
    exec (.rdovf idx) s = .next { s with responses := s.responses ++
      [if idx < s.hdr.ovfWords.toNat then ⟨.ok, s.word .ovf idx⟩ else ⟨.illegalCommand, 0⟩] }

/-- R204 with R13, R14: `RDHDR` from its command word, whatever `arg`; each header register as it reads, the
reserved numbers, and nothing else changed. -/
def Obligations.RdhdrResult : Prop :=
  ∀ (idx : Nat) (s : State),
    (idx < 2 ^ 24 → ∀ arg, decode (BitVec.ofNat 32 (idx * 2 ^ 8 + 0x24)) arg = .ok (.rdhdr idx)) ∧
    exec (.rdhdr idx) s = .next { s with responses := s.responses ++
      [if 11 < idx then ⟨.illegalCommand, 0⟩
       else ⟨.ok, [BitVec.ofNat 32 (s.hdr.cfg.valid.toNat * 2 ^ 31 + s.hdr.cfg.zigzag.toNat * 2 ^ 9 +
              s.hdr.cfg.signed.toNat * 2 ^ 8 + kindCode s.hdr.cfg.kind),
            s.hdr.n, s.hdr.k.setWidth 32, s.hdr.kSmall.setWidth 32, s.hdr.bMain.setWidth 32, s.hdr.m,
            s.hdr.kOver.setWidth 32, s.hdr.kTc.setWidth 32, s.hdr.mainWords, s.hdr.ovfWords, s.hdr.outLen,
            s.hdr.nmax].getD idx 0⟩] }

/-! ### Whole-machine rules -/

/-- R60: a command that ends in a next state has given exactly one response, taken no further input and counted no
reset. -/
def Obligations.EveryCommandAnswersOnce : Prop :=
  ∀ (i : Instr) (s t : State), exec i s = .next t →
    (∃ r, t.responses = s.responses ++ [r]) ∧ t.inputs = s.inputs ∧ t.epoch = s.epoch

/-- R231: a command whose response carries an error changes nothing but the responses, and the result is 0. -/
def Obligations.FailedCommandChangesNothing : Prop :=
  ∀ (i : Instr) (s t : State) (r : Response), exec i s = .next t → t.responses = s.responses ++ [r] →
    r.err ≠ .ok → t = { s with responses := s.responses ++ [⟨r.err, 0⟩] }

/-- R226: no command answers `EmptyNotAllowed`; and which commands alone can answer the other errors (R220). -/
def Obligations.ErrorsByCommand : Prop :=
  ∀ (i : Instr) (s t : State) (r : Response), exec i s = .next t → t.responses = s.responses ++ [r] →
    (r.err = .unknownKind → i.mnemonic = "CREATE") ∧
    (r.err = .invalidBitWidth ∨ r.err = .valueOutOfRange → i.mnemonic ∈ ["COMPRESSK", "TCENC", "TCDEC"]) ∧
    (r.err = .indexOutOfRange → i.mnemonic ∈ ["GET", "ADDR"]) ∧
    (r.err = .sizeMismatch → i.mnemonic = "DECOMPRESS") ∧
    r.err ≠ .emptyNotAllowed

/-- R51: the read commands change no state at all, and the same request answers the same again. -/
def Obligations.ReadersChangeNothing : Prop :=
  ∀ (i : Instr) (s t : State), isReader i = true → exec i s = .next t →
    ∃ r, t = { s with responses := s.responses ++ [r] } ∧
      exec i t = .next { t with responses := t.responses ++ [r] }

/-- R12, R233: what a command does depends on no earlier response, so on no earlier error. -/
def Obligations.ResponsesAreNeverRead : Prop :=
  ∀ (i : Instr) (s t : State) (old : List Response), exec i s = .next t →
    ∃ r, t.responses = s.responses ++ [r] ∧
      exec i { s with responses := old } = .next { t with responses := old ++ [r] }

/-- R40, R43: which command can change which memory. -/
def Obligations.WhoWritesWhichMemory : Prop :=
  ∀ (i : Instr) (s t : State), exec i s = .next t →
    (t.mem.input ≠ s.mem.input → i.mnemonic = "WRIN") ∧
    (t.mem.main ≠ s.mem.main → i.mnemonic ∈ ["COMPRESS", "COMPRESSK"]) ∧
    (t.mem.ovf ≠ s.mem.ovf → i.mnemonic = "COMPRESS") ∧
    (t.mem.out ≠ s.mem.out → i.mnemonic = "DECOMPRESS")

/-- R13 (its column "written by"), R24, R25: which command can change which header register. -/
def Obligations.WhoWritesWhichRegister : Prop :=
  ∀ (i : Instr) (s t : State), exec i s = .next t →
    t.hdr.nmax = s.hdr.nmax ∧
    (t.hdr.outLen ≠ s.hdr.outLen → i.mnemonic = "DECOMPRESS") ∧
    (t.hdr.cfg ≠ s.hdr.cfg → i.mnemonic = "CREATE") ∧
    (t.hdr ≠ { s.hdr with cfg := t.hdr.cfg, outLen := t.hdr.outLen } →
      i.mnemonic ∈ ["CREATE", "COMPRESS", "COMPRESSK"])

/-- R179 (b), R259: between two compresses nothing changes what `GET` answers; `WRIN` in particular does not. -/
def Obligations.GetSurvivesOtherCommands : Prop :=
  ∀ (i : Instr) (s t : State) (j v : Word), replacesArray i = false → exec i s = .next t →
    exec (.get j) s = .next { s with responses := s.responses ++ [⟨.ok, v⟩] } →
    exec (.get j) t = .next { t with responses := t.responses ++ [⟨.ok, v⟩] }

/-- R179 (d): of two states in which `COMPRESS len` answers a next state, what it leaves in the header and in the
streams depends on the kind, the mode, `len` and the first `len` input words alone. The words are compared whole, so for
their padding and tail bits this rests on the model's choice of log 7 (D7), as R179 (d) itself says. -/
def Obligations.CompressDependsOnInputOnly : Prop :=
  ∀ (s s' t t' : State) (len : Word), s.hdr.cfg = s'.hdr.cfg → s.hdr.nmax = s'.hdr.nmax →
    (∀ i, i < len.toNat → s.word .input i = s'.word .input i) →
    exec (.compress len) s = .next t → exec (.compress len) s' = .next t' →
    t.responses = s.responses ++ [⟨.ok, 0⟩] →
    t'.responses = s'.responses ++ [⟨.ok, 0⟩] ∧ t'.hdr = { t.hdr with outLen := s'.hdr.outLen } ∧
      (∀ a, a < t.hdr.mainWords.toNat → t.word .main a = t'.word .main a) ∧
      (∀ a, a < t.hdr.ovfWords.toNat → t.word .ovf a = t'.word .ovf a)

/-- R116 (c), R135, R260: two packed states that agree on the header and on the bits of the entries answer `GET`
alike, whatever their padding and tail bits are. -/
def Obligations.PaddingIsNeverRead : Prop :=
  ∀ (s s' : State) (i : Word) (r : Response), Inv s → s.hasPacker = true → s'.hdr = s.hdr →
    (∀ j b, j < s.hdr.n.toNat → b < mainEntryWidth s.hdr →
      streamBit s' .main (bitAddr s.layout (mainEntryWidth s.hdr) j + b) =
        streamBit s .main (bitAddr s.layout (mainEntryWidth s.hdr) j + b)) →
    (∀ j b, j < s.hdr.m.toNat → b < s.hdr.kOver.toNat →
      streamBit s' .ovf (bitAddr s.layout s.hdr.kOver.toNat j + b) =
        streamBit s .ovf (bitAddr s.layout s.hdr.kOver.toNat j + b)) →
    exec (.get i) s = .next { s with responses := s.responses ++ [r] } →
    exec (.get i) s' = .next { s' with responses := s'.responses ++ [r] }

/-! ### Invariants and headline results -/

/-- R30 with R32: the invariants hold right after reset, for every legal `N_MAX`. Their part on the form of the
memories is the model's (log 4, log 10). -/
def Obligations.ResetMeetsInvariants : Prop :=
  ∀ nmax : Word, 1 ≤ nmax.toNat → nmax.toNat ≤ 2 ^ 24 → Inv (State.resetOf nmax)

/-- R13 to R25, R30 (a), (b), (f), and the header part of (c), (d), (e): every step keeps the header invariants. -/
def Obligations.StepKeepsHeaderInvariants : Prop :=
  ∀ s t : State, HeaderInv s.hdr → step s = .next t → HeaderInv t.hdr

/-- The model's memory form (log 10): every step keeps the four memories canonical. -/
def Obligations.StepKeepsMemoryCanonical : Prop :=
  ∀ s t : State, s.mem.wf → step s = .next t → t.mem.wf

/-- R30, all of it, with R250's "no word can be read until a command has written it": every step keeps the
invariants of the packed state. The part on the form of the memories is the model's (log 4, log 10). -/
def Obligations.StepKeepsInvariants : Prop :=
  ∀ s t : State, Inv s → step s = .next t → Inv t

/-- R60, and 93_implementation_defined.md after U13: in a state that meets the invariants every step completes, and
every request is given its one response. -/
def Obligations.EveryRequestIsAnswered : Prop :=
  ∀ s : State, Inv s →
    ∃ t, step s = .next t ∧
      (∀ cmd arg rest, s.inputs = .request cmd arg :: rest →
        t.inputs = rest ∧ ∃ r, t.responses = s.responses ++ [r])

/-- R179 (a), (b), first half: after a successful compress, on every kind and in every mode, `GET i` answers the word
that `IN` held at `i`. -/
def Obligations.CompressThenGet : Prop :=
  ∀ (s t : State) (i : Instr) (len : Word), s.hdr.nmax.toNat ≤ 2 ^ 24 →
    (i = .compress len ∨ ∃ k, i = .compressk k len) →
    exec i s = .next t → t.responses = s.responses ++ [⟨.ok, 0⟩] →
    ∀ j : Word, j.toNat < len.toNat →
      exec (.get j) t = .next { t with responses := t.responses ++ [⟨.ok, s.word .input j.toNat⟩] }

/-- R179 (a): `decompress(compress(A)) = A`, on every kind and in every mode. -/
def Obligations.CompressThenDecompress : Prop :=
  ∀ (s t : State) (len : Word), s.hdr.nmax.toNat ≤ 2 ^ 24 →
    exec (.compress len) s = .next t → t.responses = s.responses ++ [⟨.ok, 0⟩] →
    ∃ u, exec (.decompress len) t = .next u ∧ u.responses = t.responses ++ [⟨.ok, 0⟩] ∧
      u.hdr.outLen = len ∧ ∀ j, j < len.toNat → u.word .out j = s.word .input j
end

