-- ==== Sys2Proof/Laws/State.lean ====
section
/-! SUPPORT. One lemma for each field of each update of the state, all true by `rfl`, so that no proof unfolds a
record update. -/

namespace Sys2Proof.Machine

/-! ### Giving a response -/

@[simp] theorem State.answer_hdr (s : State) (e : Err) (v : Word) : (s.answer e v).hdr = s.hdr := rfl
@[simp] theorem State.answer_mem (s : State) (e : Err) (v : Word) : (s.answer e v).mem = s.mem := rfl
@[simp] theorem State.answer_inputs (s : State) (e : Err) (v : Word) : (s.answer e v).inputs = s.inputs := rfl
@[simp] theorem State.answer_epoch (s : State) (e : Err) (v : Word) : (s.answer e v).epoch = s.epoch := rfl
@[simp] theorem State.answer_responses (s : State) (e : Err) (v : Word) :
    (s.answer e v).responses = s.responses ++ [⟨e, v⟩] := rfl
@[simp] theorem State.answer_word (s : State) (e : Err) (v : Word) (sp : Space) (a : Nat) :
    (s.answer e v).word sp a = s.word sp a := rfl
theorem State.answer_eq (s : State) (e : Err) (v : Word) :
    s.answer e v = { s with responses := s.responses ++ [⟨e, v⟩] } := rfl

/-! ### Taking an input and taking a reset -/

@[simp] theorem dropInput_hdr (s : State) : (dropInput s).hdr = s.hdr := rfl
@[simp] theorem dropInput_mem (s : State) : (dropInput s).mem = s.mem := rfl
@[simp] theorem dropInput_responses (s : State) : (dropInput s).responses = s.responses := rfl
@[simp] theorem dropInput_epoch (s : State) : (dropInput s).epoch = s.epoch := rfl
@[simp] theorem dropInput_inputs (s : State) : (dropInput s).inputs = s.inputs.tail := rfl
@[simp] theorem takeReset_hdr (s : State) : (takeReset s).hdr = Header.reset s.hdr.nmax := rfl
@[simp] theorem takeReset_mem (s : State) : (takeReset s).mem = Memory.reset := rfl
@[simp] theorem takeReset_inputs (s : State) : (takeReset s).inputs = s.inputs := rfl
@[simp] theorem takeReset_responses (s : State) : (takeReset s).responses = s.responses := rfl
@[simp] theorem takeReset_epoch (s : State) : (takeReset s).epoch = s.epoch + 1 := rfl
@[simp] theorem State.withFetchWord_hdr (s : State) (nbits w : Nat) :
    (s.withFetchWord nbits w).hdr = s.hdr := rfl
@[simp] theorem State.withFetchWord_mem (s : State) (nbits w : Nat) :
    (s.withFetchWord nbits w).mem = s.mem := rfl
@[simp] theorem State.withFetchWord_responses (s : State) (nbits w : Nat) :
    (s.withFetchWord nbits w).responses = s.responses := rfl
@[simp] theorem State.withFetchWord_epoch (s : State) (nbits w : Nat) :
    (s.withFetchWord nbits w).epoch = s.epoch := rfl
@[simp] theorem State.withFetchWord_inputs (s : State) (nbits w : Nat) :
    (s.withFetchWord nbits w).inputs =
      .request (requestOfBits nbits w).cmd (requestOfBits nbits w).arg :: s.inputs := rfl

/-! ### The header after reset, after `CREATE` and after a compress -/

@[simp] theorem Header.reset_cfg (nmax : Word) : (Header.reset nmax).cfg = ⟨false, .cross, false, false⟩ := rfl
@[simp] theorem Header.reset_n (nmax : Word) : (Header.reset nmax).n = 0 := rfl
@[simp] theorem Header.reset_k (nmax : Word) : (Header.reset nmax).k = 0 := rfl
@[simp] theorem Header.reset_kSmall (nmax : Word) : (Header.reset nmax).kSmall = 0 := rfl
@[simp] theorem Header.reset_bMain (nmax : Word) : (Header.reset nmax).bMain = 0 := rfl
@[simp] theorem Header.reset_m (nmax : Word) : (Header.reset nmax).m = 0 := rfl
@[simp] theorem Header.reset_kOver (nmax : Word) : (Header.reset nmax).kOver = 0 := rfl
@[simp] theorem Header.reset_kTc (nmax : Word) : (Header.reset nmax).kTc = 0 := rfl
@[simp] theorem Header.reset_mainWords (nmax : Word) : (Header.reset nmax).mainWords = 0 := rfl
@[simp] theorem Header.reset_ovfWords (nmax : Word) : (Header.reset nmax).ovfWords = 0 := rfl
@[simp] theorem Header.reset_outLen (nmax : Word) : (Header.reset nmax).outLen = 0 := rfl
@[simp] theorem Header.reset_nmax (nmax : Word) : (Header.reset nmax).nmax = nmax := rfl
@[simp] theorem clearedHeader_cfg (h : Header) (cfg : Cfg) : (clearedHeader h cfg).cfg = cfg := rfl
@[simp] theorem clearedHeader_n (h : Header) (cfg : Cfg) : (clearedHeader h cfg).n = 0 := rfl
@[simp] theorem clearedHeader_k (h : Header) (cfg : Cfg) : (clearedHeader h cfg).k = 0 := rfl
@[simp] theorem clearedHeader_kSmall (h : Header) (cfg : Cfg) : (clearedHeader h cfg).kSmall = 0 := rfl
@[simp] theorem clearedHeader_bMain (h : Header) (cfg : Cfg) : (clearedHeader h cfg).bMain = 0 := rfl
@[simp] theorem clearedHeader_m (h : Header) (cfg : Cfg) : (clearedHeader h cfg).m = 0 := rfl
@[simp] theorem clearedHeader_kOver (h : Header) (cfg : Cfg) : (clearedHeader h cfg).kOver = 0 := rfl
@[simp] theorem clearedHeader_kTc (h : Header) (cfg : Cfg) : (clearedHeader h cfg).kTc = 0 := rfl
@[simp] theorem clearedHeader_mainWords (h : Header) (cfg : Cfg) : (clearedHeader h cfg).mainWords = 0 := rfl
@[simp] theorem clearedHeader_ovfWords (h : Header) (cfg : Cfg) : (clearedHeader h cfg).ovfWords = 0 := rfl
@[simp] theorem clearedHeader_outLen (h : Header) (cfg : Cfg) : (clearedHeader h cfg).outLen = h.outLen := rfl
@[simp] theorem clearedHeader_nmax (h : Header) (cfg : Cfg) : (clearedHeader h cfg).nmax = h.nmax := rfl
@[simp] theorem baseHeader_cfg (h : Header) (len : Word) (k kTc : Nat) :
    (baseHeader h len k kTc).cfg = h.cfg := rfl
@[simp] theorem baseHeader_n (h : Header) (len : Word) (k kTc : Nat) :
    (baseHeader h len k kTc).n = len := rfl
@[simp] theorem baseHeader_k (h : Header) (len : Word) (k kTc : Nat) :
    (baseHeader h len k kTc).k = BitVec.ofNat 6 k := rfl
@[simp] theorem baseHeader_kSmall (h : Header) (len : Word) (k kTc : Nat) :
    (baseHeader h len k kTc).kSmall = 0 := rfl
@[simp] theorem baseHeader_bMain (h : Header) (len : Word) (k kTc : Nat) :
    (baseHeader h len k kTc).bMain = 0 := rfl
@[simp] theorem baseHeader_m (h : Header) (len : Word) (k kTc : Nat) :
    (baseHeader h len k kTc).m = 0 := rfl
@[simp] theorem baseHeader_kOver (h : Header) (len : Word) (k kTc : Nat) :
    (baseHeader h len k kTc).kOver = 0 := rfl
@[simp] theorem baseHeader_kTc (h : Header) (len : Word) (k kTc : Nat) :
    (baseHeader h len k kTc).kTc = BitVec.ofNat 6 kTc := rfl
@[simp] theorem baseHeader_mainWords (h : Header) (len : Word) (k kTc : Nat) :
    (baseHeader h len k kTc).mainWords = BitVec.ofNat 32 (streamWords (layoutOf h.cfg.kind) len.toNat k) := rfl
@[simp] theorem baseHeader_ovfWords (h : Header) (len : Word) (k kTc : Nat) :
    (baseHeader h len k kTc).ovfWords = 0 := rfl
@[simp] theorem baseHeader_outLen (h : Header) (len : Word) (k kTc : Nat) :
    (baseHeader h len k kTc).outLen = h.outLen := rfl
@[simp] theorem baseHeader_nmax (h : Header) (len : Word) (k kTc : Nat) :
    (baseHeader h len k kTc).nmax = h.nmax := rfl
@[simp] theorem overflowHeader_cfg (h : Header) (len : Word) (c : Candidate) (kTc : Nat) :
    (overflowHeader h len c kTc).cfg = h.cfg := rfl
@[simp] theorem overflowHeader_n (h : Header) (len : Word) (c : Candidate) (kTc : Nat) :
    (overflowHeader h len c kTc).n = len := rfl
@[simp] theorem overflowHeader_k (h : Header) (len : Word) (c : Candidate) (kTc : Nat) :
    (overflowHeader h len c kTc).k = 0 := rfl
@[simp] theorem overflowHeader_kSmall (h : Header) (len : Word) (c : Candidate) (kTc : Nat) :
    (overflowHeader h len c kTc).kSmall = BitVec.ofNat 6 c.kSmall := rfl
@[simp] theorem overflowHeader_bMain (h : Header) (len : Word) (c : Candidate) (kTc : Nat) :
    (overflowHeader h len c kTc).bMain = BitVec.ofNat 6 c.bMain := rfl
@[simp] theorem overflowHeader_m (h : Header) (len : Word) (c : Candidate) (kTc : Nat) :
    (overflowHeader h len c kTc).m = BitVec.ofNat 32 c.m := rfl
@[simp] theorem overflowHeader_kOver (h : Header) (len : Word) (c : Candidate) (kTc : Nat) :
    (overflowHeader h len c kTc).kOver = BitVec.ofNat 6 c.kOver := rfl
@[simp] theorem overflowHeader_kTc (h : Header) (len : Word) (c : Candidate) (kTc : Nat) :
    (overflowHeader h len c kTc).kTc = BitVec.ofNat 6 kTc := rfl
@[simp] theorem overflowHeader_mainWords (h : Header) (len : Word) (c : Candidate) (kTc : Nat) :
    (overflowHeader h len c kTc).mainWords = BitVec.ofNat 32 (streamWords (layoutOf h.cfg.kind) len.toNat c.bMain) := rfl
@[simp] theorem overflowHeader_ovfWords (h : Header) (len : Word) (c : Candidate) (kTc : Nat) :
    (overflowHeader h len c kTc).ovfWords = BitVec.ofNat 32 (ovfWordsFor (layoutOf h.cfg.kind) c.m c.kOver) := rfl
@[simp] theorem overflowHeader_outLen (h : Header) (len : Word) (c : Candidate) (kTc : Nat) :
    (overflowHeader h len c kTc).outLen = h.outLen := rfl
@[simp] theorem overflowHeader_nmax (h : Header) (len : Word) (c : Candidate) (kTc : Nat) :
    (overflowHeader h len c kTc).nmax = h.nmax := rfl

/-! ### The four memories -/

@[simp] theorem memGet_memSet_same (m : Memory) (sp : Space) (c : Mem) : memGet (memSet m sp c) sp = c := by
  cases sp <;> rfl

@[simp] theorem memGet_memSet_other (m : Memory) {sp sp' : Space} (c : Mem) (h : sp' ≠ sp) :
    memGet (memSet m sp c) sp' = memGet m sp' := by
  cases sp <;> cases sp' <;> first | rfl | exact absurd rfl h

@[simp] theorem memSet_memGet (m : Memory) (sp : Space) : memSet m sp (memGet m sp) = m := by
  cases sp <;> rfl

@[simp] theorem memGet_reset (sp : Space) : memGet Memory.reset sp = [] := by
  cases sp <;> rfl

@[simp] theorem State.resetOf_hdr (nmax : Word) : (State.resetOf nmax).hdr = Header.reset nmax := rfl
@[simp] theorem State.resetOf_mem (nmax : Word) : (State.resetOf nmax).mem = Memory.reset := rfl
@[simp] theorem State.resetOf_inputs (nmax : Word) : (State.resetOf nmax).inputs = [] := rfl
@[simp] theorem State.resetOf_responses (nmax : Word) : (State.resetOf nmax).responses = [] := rfl
@[simp] theorem State.resetOf_epoch (nmax : Word) : (State.resetOf nmax).epoch = 0 := rfl

end Sys2Proof.Machine
end

