-- ==== Sys2Proof/Laws/Memory.lean ====
section
/-! SUPPORT. The laws of one space: what a read finds after a write, and that every memory operation keeps the
canonical form. -/

namespace Sys2Proof.Machine

/-- A read after a write gives the word written at its index and the old word elsewhere. -/
@[simp] theorem memFind_memStore (m : Mem) (a b : Nat) (v : Word) :
    memFind (memStore m a v) b = if b = a then some v else memFind m b := by
  induction m with
  | nil => simp [memStore, memFind]
  | cons p m ih =>
    obtain ⟨c, w⟩ := p
    by_cases h1 : a < c
    · simp [memStore, memFind, h1]
    · by_cases h2 : a = c
      · subst h2
        by_cases h : b = a <;> simp [memStore, memFind, h]
      · by_cases h : b = a
        · subst h
          simp [memStore, memFind, h1, h2, ih]
        · by_cases hc : b = c <;> simp [memStore, memFind, h1, h2, hc, ih, h]
          subst hc
          simp [h]

/-- Writing words in a row: each index in the row finds its word, every other index what it found before. -/
theorem memFind_memStoreFrom (vs : List Word) (m : Mem) (a b : Nat) :
    memFind (memStoreFrom m a vs) b = if a ≤ b ∧ b < a + vs.length then vs[b - a]? else memFind m b := by
  induction vs generalizing m a with
  | nil => simp [memStoreFrom]
  | cons v vs ih =>
    simp only [memStoreFrom, ih, memFind_memStore, List.length_cons]
    by_cases h : b = a
    · subst h
      simp
    · by_cases h' : a + 1 ≤ b ∧ b < a + 1 + vs.length
      · have h1 : a ≤ b ∧ b < a + (vs.length + 1) := by omega
        rw [if_pos h', if_pos h1, show b - a = (b - (a + 1)) + 1 by omega, List.getElem?_cons_succ]
      · have h1 : ¬ (a ≤ b ∧ b < a + (vs.length + 1)) := by omega
        rw [if_neg h', if_neg h1, if_neg h]

/-- The entries after a write are the new one and old ones. -/
theorem mem_memStore {m : Mem} {a : Nat} {v : Word} {p : Nat × Word} (h : p ∈ memStore m a v) :
    p = (a, v) ∨ p ∈ m := by
  induction m with
  | nil => simpa [memStore] using h
  | cons q m ih =>
    obtain ⟨c, w⟩ := q
    simp only [memStore] at h
    split at h
    · simpa using h
    · split at h
      · rcases List.mem_cons.1 h with h | h
        · exact .inl h
        · exact .inr (List.mem_cons_of_mem _ h)
      · rcases List.mem_cons.1 h with h | h
        · exact .inr (by simp [h])
        · exact (ih h).imp_right (List.mem_cons_of_mem _)

/-- A write keeps the canonical form. -/
theorem memStore_wf {m : Mem} (h : Mem.wf m) (a : Nat) (v : Word) : Mem.wf (memStore m a v) := by
  induction m with
  | nil => simp [memStore]
  | cons q m ih =>
    obtain ⟨c, w⟩ := q
    obtain ⟨hlt, hm⟩ := List.pairwise_cons.1 h
    simp only [memStore]
    split
    · rename_i hac
      refine List.pairwise_cons.2 ⟨fun p hp => ?_, h⟩
      rcases List.mem_cons.1 hp with rfl | hp
      · exact hac
      · exact Nat.lt_trans hac (hlt p hp)
    · split
      · rename_i hac
        subst hac
        exact List.pairwise_cons.2 ⟨hlt, hm⟩
      · rename_i h1 h2
        refine List.pairwise_cons.2 ⟨fun p hp => ?_, ih hm⟩
        rcases mem_memStore hp with rfl | hp
        · show c < a
          omega
        · exact hlt p hp

/-- Writing words in a row keeps the canonical form. -/
theorem memStoreFrom_wf {m : Mem} (h : Mem.wf m) (a : Nat) (vs : List Word) : Mem.wf (memStoreFrom m a vs) := by
  induction vs generalizing m a with
  | nil => exact h
  | cons v vs ih => exact ih (memStore_wf h a v) (a + 1)

/-- Replacing one space by a canonical one keeps the four memories canonical. -/
theorem memSet_wf {m : Memory} (h : m.wf) (sp : Space) {c : Mem} (hc : Mem.wf c) : (memSet m sp c).wf := by
  obtain ⟨h1, h2, h3, h4⟩ := h
  cases sp <;> exact ⟨by assumption, by assumption, by assumption, by assumption⟩

/-- Each space of canonical memories is canonical. -/
theorem memGet_wf {m : Memory} (h : m.wf) (sp : Space) : Mem.wf (memGet m sp) := by
  obtain ⟨h1, h2, h3, h4⟩ := h
  cases sp <;> assumption

/-- The memories right after reset are canonical. -/
theorem reset_wf : State.reset.mem.wf := by decide

/-- Every entry after writing words in a row is below the old bound or inside the row. -/
theorem memStoreFrom_within {m : Mem} {nmax : Word} (h : WithinSpace m nmax) (a : Nat) (vs : List Word)
    (hb : a + vs.length ≤ nmax.toNat) : WithinSpace (memStoreFrom m a vs) nmax := by
  induction vs generalizing m a with
  | nil => exact h
  | cons v vs ih =>
    refine ih (fun p hp => ?_) (a + 1) (by simp at hb; omega)
    rcases mem_memStore hp with rfl | hp
    · show a < nmax.toNat
      simp at hb
      omega
    · exact h p hp

end Sys2Proof.Machine
end

