-- ==== Sys2Proof/Laws/Ops.lean ====
section
/-! SUPPORT. What each shared operation can do, said once: ending a command, going on after a partial operation,
reading and writing words, extracting and packing entries, and the arithmetic readings of a pattern. -/

namespace Sys2Proof.Machine

/-! ### Ending a command -/

theorem respond_eq (v : Nat) (s : State) :
    respond v s = .next { s with responses := s.responses ++ [⟨.ok, BitVec.ofNat 32 v⟩] } := rfl

theorem raise_eq (e : Err) (s : State) :
    raise e s = .next { s with responses := s.responses ++ [⟨e, 0⟩] } := rfl

theorem respond_next {v : Nat} {s t : State} :
    respond v s = .next t ↔ t = s.answer .ok (BitVec.ofNat 32 v) := by
  simp only [respond, Host.Outcome.next.injEq, eq_comm]

theorem respond_toNat_next {v : Word} {s t : State} : respond v.toNat s = .next t ↔ t = s.answer .ok v := by
  rw [respond_next, BitVec.ofNat_toNat, BitVec.setWidth_eq]

theorem raise_next {e : Err} {s t : State} : raise e s = .next t ↔ t = s.answer e 0 := by
  simp only [raise, Host.Outcome.next.injEq, eq_comm]

/-! ### Partial operations -/

@[simp] theorem orFault_ok {α : Type} (a : α) (f : α → Answer) : orFault (.ok a) f = f a := rfl

@[simp] theorem orFault_error {α : Type} (e : Fault) (f : α → Answer) : orFault (.error e) f = .fault e := rfl

/-- Going on after a partial operation answers a next state only if the operation gave a value. -/
theorem orFault_next {α : Type} {r : Except Fault α} {f : α → Answer} {t : State} :
    orFault r f = .next t ↔ ∃ a, r = .ok a ∧ f a = .next t := by
  cases r with
  | ok a => simp
  | error e => simp

/-- The values collected are those of the operations, each of which gave one. -/
theorem collect_eq_ok {α : Type} {rs : List (Except Fault α)} {as : List α} :
    collect rs = .ok as ↔ rs = as.map .ok := by
  induction rs generalizing as with
  | nil => cases as <;> simp [collect]
  | cons r rs ih =>
    cases r with
    | error e => cases as <;> simp [collect]
    | ok a =>
      simp only [collect]
      split
      · rename_i e h
        cases as with
        | nil => simp
        | cons b bs =>
          simp only [reduceCtorEq, List.map_cons, List.cons.injEq, false_iff, not_and]
          intro _ hrs
          rw [ih.2 hrs] at h
          cases h
      · rename_i bs h
        cases as with
        | nil => simp
        | cons c cs =>
          simp only [Except.ok.injEq, List.cons.injEq, List.map_cons, and_congr_right_iff]
          intro _
          constructor
          · rintro rfl
            exact ih.1 h
          · intro hrs
            rw [ih.2 hrs] at h
            exact (Except.ok.inj h).symm

/-! ### Words -/

/-- A read gives a value only for a word that exists, and then that word. -/
theorem memRead_eq_ok {s : State} {sp : Space} {a : Nat} {w : Word} :
    memRead s sp a = .ok w ↔ a < s.hdr.nmax.toNat ∧ w = s.word sp a := by
  unfold memRead
  split <;> simp_all [eq_comm]

/-- Writing words succeeds only when every word has a place, and then changes that one space. -/
theorem memWriteAll_eq_ok {s t : State} {sp : Space} {a : Nat} {vs : List Word} :
    memWriteAll s sp a vs = .ok t ↔ a + vs.length ≤ s.hdr.nmax.toNat ∧
      t = { s with mem := memSet s.mem sp (memStoreFrom (memGet s.mem sp) a vs) } := by
  unfold memWriteAll
  split <;> simp_all [eq_comm]

/-- The words of a space after writing some of them. -/
theorem word_after_write (s : State) (sp : Space) (a : Nat) (vs : List Word) (b : Nat) :
    State.word { s with mem := memSet s.mem sp (memStoreFrom (memGet s.mem sp) a vs) } sp b =
      if a ≤ b ∧ b < a + vs.length then (vs[b - a]?).getD (s.word sp b) else s.word sp b := by
  simp only [State.word, memGet_memSet_same, memFind_memStoreFrom]
  split
  · rename_i h
    have : b - a < vs.length := by omega
    simp [List.getElem?_eq_getElem this]
  · rfl

/-- Writing to one space leaves the words of the others. -/
theorem word_other_space (s : State) {sp sp' : Space} (c : Mem) (h : sp' ≠ sp) (b : Nat) :
    State.word { s with mem := memSet s.mem sp c } sp' b = s.word sp' b := by
  simp [State.word, h]

/-! ### Entries -/

/-- `extract` gives a value only at a legal width and inside the space, and then the unit's. -/
theorem extract_eq_ok {s : State} {sp : Space} {l : Layout} {k j v : Nat} :
    extract s sp l k j = .ok v ↔ (1 ≤ k ∧ k ≤ 32) ∧ lastWordOf l k j < s.hdr.nmax.toNat ∧
      v = extractWords l (s.word sp) k j := by
  unfold extract legalWidth
  by_cases h : 1 ≤ k ∧ k ≤ 32
  · by_cases h' : lastWordOf l k j < s.hdr.nmax.toNat <;> simp [h, h', eq_comm]
  · simp [h]

/-- `pack` succeeds only at a legal width and when the stream has room, and then writes the unit's words. -/
theorem pack_eq_ok {s t : State} {sp : Space} {l : Layout} {vals : List Nat} {k : Nat} :
    pack s sp l vals k = .ok t ↔ (1 ≤ k ∧ k ≤ 32) ∧ (packWords l vals k).length ≤ s.hdr.nmax.toNat ∧
      t = { s with mem := memSet s.mem sp (memStoreFrom (memGet s.mem sp) 0 (packWords l vals k)) } := by
  unfold pack legalWidth
  by_cases h : 1 ≤ k ∧ k ≤ 32
  · simp [h, memWriteAll_eq_ok]
  · simp [h]

@[simp] theorem packWords_length (l : Layout) (vals : List Nat) (k : Nat) :
    (packWords l vals k).length = streamWords l vals.length k := by
  simp [packWords]

theorem packWords_getElem? (l : Layout) (vals : List Nat) (k w : Nat) :
    (packWords l vals k)[w]? =
      if w < streamWords l vals.length k then some (BitVec.ofNat 32 (packWord l vals k w)) else none := by
  by_cases h : w < streamWords l vals.length k
  · simp [packWords, h]
  · simp [packWords, h]

@[simp] theorem encodeArray_length (mode : Mode) (ws : List Word) : (encodeArray mode ws).length = ws.length := by
  simp [encodeArray]

@[simp] theorem inputArray_length (s : State) (len : Nat) : (s.inputArray len).length = len := by
  simp [State.inputArray]

@[simp] theorem inputCodes_length (s : State) (len : Nat) : (s.inputCodes len).length = len := by
  simp [State.inputCodes]

/-- The records and the table of the overflow encoder have one entry for each code and for each overflow code. -/
theorem buildRecords_lengths (ks t : Nat) (codes : List Nat) :
    (buildRecords ks t codes).1.length = codes.length ∧
      (buildRecords ks t codes).2 = overflowCodes codes ks := by
  induction codes generalizing t with
  | nil => simp [buildRecords, overflowCodes]
  | cons c cs ih =>
    simp only [buildRecords]
    split
    · rename_i h
      refine ⟨by simp [(ih t).1], ?_⟩
      rw [(ih t).2]
      simp [overflowCodes, Nat.not_lt.2 h]
    · rename_i h
      refine ⟨by simp [(ih (t + 1)).1], ?_⟩
      show c :: (buildRecords ks (t + 1) cs).2 = _
      rw [(ih (t + 1)).2]
      simp [overflowCodes, Nat.lt_of_not_le h]

/-! ### Readings of a pattern (R8) -/

/-- The signed reading of R8 is the signed reading of the bit vector. -/
theorem s32_eq_toInt (p : Word) : s32 p = p.toInt := by
  unfold s32
  rw [BitVec.toInt_eq_toNat_cond]
  have h := p.isLt
  split <;> split <;> first | rfl | omega

/-- The pattern of a number by R8 is the bit vector of that number. -/
theorem ofNat_u32 (x : Int) : BitVec.ofNat 32 (u32 x) = BitVec.ofInt 32 x := by
  unfold u32
  apply BitVec.eq_of_toNat_eq
  simp only [BitVec.toNat_ofNat, BitVec.toNat_ofInt]
  omega

theorem legalWidth_iff (k : Nat) : legalWidth k = true ↔ 1 ≤ k ∧ k ≤ 32 := by
  simp [legalWidth]

end Sys2Proof.Machine
end

