-- ==== Sys2Proof/Laws/Exec.lean ====
section
/-! SUPPORT. What each command can do when it answers a next state: one inversion lemma for each meaning. A proof about
a command cites its lemma and unfolds nothing. -/

namespace Sys2Proof.Machine

/-- The state after a compress on a base kind wrote the codes at width `k` (R173, R175). -/
def afterBase (s : State) (len : Word) (k : Nat) : State :=
  { s with
    hdr := baseHeader s.hdr len k (kTcFor s.mode (s.inputArray len.toNat))
    mem := memSet s.mem .main
      (memStoreFrom (memGet s.mem .main) 0 (packWords s.layout (s.inputCodes len.toNat) k)) }

/-- The words that a compress on an overflow kind leaves in `MAIN` and `OVF` (R155). -/
def overflowMemory (s : State) (codes : List Nat) : Memory :=
  let c := selectKSmall codes
  let main := memSet s.mem .main
    (memStoreFrom (memGet s.mem .main) 0 (packWords s.layout (buildRecords c.kSmall 0 codes).1 c.bMain))
  if c.m = 0 then main
  else memSet main .ovf (memStoreFrom (memGet s.mem .ovf) 0 (packWords s.layout (overflowCodes codes c.kSmall) c.kOver))

/-- The state after a compress on an overflow kind (R174). -/
def afterOverflow (s : State) (len : Word) : State :=
  { s with
    hdr := overflowHeader s.hdr len (selectKSmall (s.inputCodes len.toNat))
      (kTcFor s.mode (s.inputArray len.toNat))
    mem := overflowMemory s (s.inputCodes len.toNat) }

/-- Packing on a base kind answers a next state exactly when the width is legal and the stream has room. -/
theorem compressBase_next {s t : State} {len : Word} {k : Nat} :
    compressBase s len k = .next t ↔
      (1 ≤ k ∧ k ≤ 32) ∧ streamWords s.layout len.toNat k ≤ s.hdr.nmax.toNat ∧
        t = (afterBase s len k).answer .ok 0 := by
  unfold compressBase
  rw [orFault_next]
  constructor
  · rintro ⟨s', h, ht⟩
    obtain ⟨hk, hl, rfl⟩ := pack_eq_ok.1 h
    rw [packWords_length, inputCodes_length] at hl
    exact ⟨hk, hl, respond_next.1 ht⟩
  · rintro ⟨hk, hl, rfl⟩
    refine ⟨_, pack_eq_ok.2 ⟨hk, ?_, rfl⟩, rfl⟩
    rw [packWords_length, inputCodes_length]
    exact hl

/-- Encoding succeeds exactly when both packings do, and then writes the two streams. -/
theorem encodeOverflow_eq_ok {s t : State} {codes : List Nat} :
    encodeOverflow s s.layout codes = .ok t ↔
      ((1 ≤ (selectKSmall codes).bMain ∧ (selectKSmall codes).bMain ≤ 32) ∧
        streamWords s.layout codes.length (selectKSmall codes).bMain ≤ s.hdr.nmax.toNat) ∧
      ((selectKSmall codes).m ≠ 0 →
        (1 ≤ (selectKSmall codes).kOver ∧ (selectKSmall codes).kOver ≤ 32) ∧
        streamWords s.layout (overflowCodes codes (selectKSmall codes).kSmall).length (selectKSmall codes).kOver
          ≤ s.hdr.nmax.toNat) ∧
      t = { s with mem := overflowMemory s codes } := by
  have hlen := buildRecords_lengths (selectKSmall codes).kSmall 0 codes
  unfold encodeOverflow
  cases hp : pack s .main s.layout (buildRecords (selectKSmall codes).kSmall 0 codes).1 (selectKSmall codes).bMain with
  | error e =>
    simp only [reduceCtorEq, false_iff, not_and]
    rintro ⟨hb, hw⟩ - -
    have := (pack_eq_ok (s := s) (sp := .main)).2 ⟨hb, by rw [packWords_length, hlen.1]; exact hw, rfl⟩
    rw [hp] at this
    cases this
  | ok s' =>
    obtain ⟨hb, hw, rfl⟩ := pack_eq_ok.1 hp
    rw [packWords_length, hlen.1] at hw
    by_cases hm : (selectKSmall codes).m = 0
    · simp [hm, hb, hw, overflowMemory, eq_comm]
    · simp only [hm, if_false, ne_eq, not_false_eq_true, forall_const, hb, hw, and_self, true_and]
      rw [pack_eq_ok, packWords_length, hlen.2]
      simp only [overflowMemory, hm, if_false, and_assoc]
      rfl

/-- Encoding on an overflow kind answers a next state exactly when both streams can be packed. -/
theorem compressOverflow_next {s t : State} {len : Word} :
    compressOverflow s len = .next t ↔
      (∃ s', encodeOverflow s s.layout (s.inputCodes len.toNat) = .ok s') ∧
        t = (afterOverflow s len).answer .ok 0 := by
  unfold compressOverflow
  rw [orFault_next]
  constructor
  · rintro ⟨s', h, ht⟩
    refine ⟨⟨s', h⟩, ?_⟩
    obtain ⟨-, -, rfl⟩ := encodeOverflow_eq_ok.1 h
    exact respond_next.1 ht
  · rintro ⟨⟨s', h⟩, rfl⟩
    refine ⟨s', h, ?_⟩
    obtain ⟨-, -, rfl⟩ := encodeOverflow_eq_ok.1 h
    rfl

theorem execCreate_next {kind : Nat} {signed zigzag : Bool} {s t : State} :
    execCreate kind signed zigzag s = .next t ↔
      (kindOfCode kind = none ∧ t = s.answer .unknownKind 0) ∨
      (∃ kd, kindOfCode kind = some kd ∧
        t = State.answer { s with hdr := clearedHeader s.hdr ⟨true, kd, signed, zigzag⟩ } .ok 0) := by
  unfold execCreate
  cases kindOfCode kind with
  | none => simp [raise_next]
  | some kd => simp [respond_next]

theorem execCompress_next {len : Word} {s t : State} :
    execCompress len s = .next t ↔
      ((s.hdr.cfg.valid = false ∨ s.hdr.nmax.toNat < len.toNat) ∧ t = s.answer .illegalCommand 0) ∨
      ((s.hdr.cfg.valid = true ∧ len.toNat ≤ s.hdr.nmax.toNat) ∧
        ((isOverflow s.hdr.cfg.kind = false ∧
            compressBase s len (bitWidthFor (maxOf (s.inputCodes len.toNat))) = .next t) ∨
          (isOverflow s.hdr.cfg.kind = true ∧ compressOverflow s len = .next t))) := by
  unfold execCompress
  cases hv : s.hdr.cfg.valid with
  | false => simp [raise_next]
  | true =>
    by_cases hl : s.hdr.nmax.toNat < len.toNat
    · simp [hl, Nat.not_le.2 hl, raise_next]
    · cases hk : isOverflow s.hdr.cfg.kind <;> simp [hl, Nat.le_of_not_lt hl]

theorem execCompressk_next {k : Nat} {len : Word} {s t : State} :
    execCompressk k len s = .next t ↔
      ((s.hdr.cfg.valid = false ∨ isOverflow s.hdr.cfg.kind = true ∨ s.hdr.nmax.toNat < len.toNat) ∧
        t = s.answer .illegalCommand 0) ∨
      ((s.hdr.cfg.valid = true ∧ isOverflow s.hdr.cfg.kind = false ∧ len.toNat ≤ s.hdr.nmax.toNat) ∧
        ((legalWidth k = false ∧ t = s.answer .invalidBitWidth 0) ∨
          (legalWidth k = true ∧ (∃ c ∈ s.inputCodes len.toNat, mask k < c) ∧ t = s.answer .valueOutOfRange 0) ∨
          (legalWidth k = true ∧ (∀ c ∈ s.inputCodes len.toNat, c ≤ mask k) ∧
            compressBase s len k = .next t))) := by
  unfold execCompressk
  cases hv : s.hdr.cfg.valid with
  | false => simp [raise_next]
  | true =>
    cases ho : isOverflow s.hdr.cfg.kind with
    | true => simp [raise_next]
    | false =>
      by_cases hl : s.hdr.nmax.toNat < len.toNat
      · simp [hl, Nat.not_le.2 hl, raise_next]
      · cases hk : legalWidth k with
        | false => simp [hl, Nat.le_of_not_lt hl, raise_next]
        | true =>
          by_cases ha : ∃ c ∈ s.inputCodes len.toNat, mask k < c
          · have hn : ¬ ∀ c ∈ s.inputCodes len.toNat, c ≤ mask k := by
              obtain ⟨c, hc, hlt⟩ := ha
              exact fun h => absurd (h c hc) (Nat.not_le.2 hlt)
            simp [hl, Nat.le_of_not_lt hl, ha, hn, raise_next]
          · have hn : ∀ c ∈ s.inputCodes len.toNat, c ≤ mask k := by
              intro c hc
              exact Nat.le_of_not_lt fun h => ha ⟨c, hc, h⟩
            simp [hl, Nat.le_of_not_lt hl, ha]
            intro _
            exact hn

theorem execGet_next {i : Word} {s t : State} :
    execGet i s = .next t ↔
      (s.hdr.cfg.valid = false ∧ t = s.answer .illegalCommand 0) ∨
      (s.hdr.cfg.valid = true ∧ s.hdr.n.toNat ≤ i.toNat ∧ t = s.answer .indexOutOfRange 0) ∨
      (s.hdr.cfg.valid = true ∧ i.toNat < s.hdr.n.toNat ∧
        ∃ v, getValue s i.toNat = .ok v ∧ t = s.answer .ok v) := by
  unfold execGet
  cases hv : s.hdr.cfg.valid with
  | false => simp [raise_next]
  | true =>
    by_cases hl : s.hdr.n.toNat ≤ i.toNat
    · simp [hl, Nat.not_lt.2 hl, raise_next]
    · simp [hl, Nat.lt_of_not_le hl, orFault_next, respond_toNat_next]

theorem execDecompress_next {len : Word} {s t : State} :
    execDecompress len s = .next t ↔
      (s.hdr.cfg.valid = false ∧ t = s.answer .illegalCommand 0) ∨
      (s.hdr.cfg.valid = true ∧ len ≠ s.hdr.n ∧ t = s.answer .sizeMismatch 0) ∨
      (s.hdr.cfg.valid = true ∧ len = s.hdr.n ∧ s.hdr.n.toNat ≤ s.hdr.nmax.toNat ∧
        ∃ vs, (List.range s.hdr.n.toNat).map (getValue s) = vs.map .ok ∧
          t = State.answer { s with
            hdr := { s.hdr with outLen := s.hdr.n }
            mem := memSet s.mem .out (memStoreFrom (memGet s.mem .out) 0 vs) } .ok 0) := by
  unfold execDecompress
  cases hv : s.hdr.cfg.valid with
  | false => simp [raise_next]
  | true =>
    by_cases hl : len = s.hdr.n
    · simp only [Bool.not_true, Bool.false_eq_true, if_false, hl, ne_eq, not_true_eq_false, false_and,
        true_and, false_or, orFault_next, collect_eq_ok, memWriteAll_eq_ok, Nat.zero_add, reduceCtorEq]
      constructor
      · rintro ⟨vs, hvs, s', ⟨hle, rfl⟩, ht⟩
        have hlen : vs.length = s.hdr.n.toNat := by
          have := congrArg List.length hvs
          simpa using this.symm
        refine ⟨hlen ▸ hle, vs, hvs, ?_⟩
        simpa [respond_next] using ht
      · rintro ⟨hle, vs, hvs, rfl⟩
        have hlen : vs.length = s.hdr.n.toNat := by
          have := congrArg List.length hvs
          simpa using this.symm
        exact ⟨vs, hvs, _, ⟨by rw [hlen]; exact hle, rfl⟩, rfl⟩
    · simp [hl, raise_next]

theorem execSize_next {s t : State} :
    execSize s = .next t ↔
      (s.hdr.cfg.valid = false ∧ t = s.answer .illegalCommand 0) ∨
      (s.hdr.cfg.valid = true ∧ t = s.answer .ok s.hdr.n) := by
  unfold execSize
  cases hv : s.hdr.cfg.valid <;> simp [raise_next, respond_toNat_next]

theorem respondBitAddr_next {l : Layout} {k j : Nat} {s t : State} :
    respondBitAddr l k j s = .next t ↔
      (1 ≤ k ∧ k ≤ 32) ∧ t = s.answer .ok (BitVec.ofNat 32 (bitAddr l k j)) := by
  unfold respondBitAddr
  cases hk : legalWidth k with
  | false => simp [← legalWidth_iff, hk]
  | true => simp [← legalWidth_iff, hk, respond_next]

theorem execAddr_main_next {j : Word} {s t : State} :
    execAddr .main j s = .next t ↔
      (s.hdr.cfg.valid = false ∧ t = s.answer .illegalCommand 0) ∨
      (s.hdr.cfg.valid = true ∧ s.hdr.n.toNat ≤ j.toNat ∧ t = s.answer .indexOutOfRange 0) ∨
      (s.hdr.cfg.valid = true ∧ j.toNat < s.hdr.n.toNat ∧
        respondBitAddr s.layout (mainEntryWidth s.hdr) j.toNat s = .next t) := by
  unfold execAddr
  cases hv : s.hdr.cfg.valid with
  | false => simp [raise_next]
  | true =>
    by_cases hl : s.hdr.n.toNat ≤ j.toNat
    · simp [hl, Nat.not_lt.2 hl, raise_next]
    · simp [hl, Nat.lt_of_not_le hl, State.layout]

theorem execAddr_overflow_next {j : Word} {s t : State} :
    execAddr .overflow j s = .next t ↔
      ((s.hdr.cfg.valid = false ∨ isOverflow s.hdr.cfg.kind = false) ∧ t = s.answer .illegalCommand 0) ∨
      ((s.hdr.cfg.valid = true ∧ isOverflow s.hdr.cfg.kind = true) ∧
        ((s.hdr.m.toNat ≤ j.toNat ∧ t = s.answer .indexOutOfRange 0) ∨
          (j.toNat < s.hdr.m.toNat ∧ respondBitAddr s.layout s.hdr.kOver.toNat j.toNat s = .next t))) := by
  unfold execAddr
  cases hv : s.hdr.cfg.valid with
  | false => simp [raise_next]
  | true =>
    cases ho : isOverflow s.hdr.cfg.kind with
    | false => simp [raise_next]
    | true =>
      by_cases hl : s.hdr.m.toNat ≤ j.toNat
      · simp [hl, Nat.not_lt.2 hl, raise_next]
      · simp [hl, Nat.lt_of_not_le hl, State.layout]

theorem execTcenc_next {k : Nat} {x : Word} {s t : State} :
    execTcenc k x s = .next t ↔
      (legalWidth k = false ∧ t = s.answer .invalidBitWidth 0) ∨
      (legalWidth k = true ∧ tcFits (s32 x) k = false ∧ t = s.answer .valueOutOfRange 0) ∨
      (legalWidth k = true ∧ tcFits (s32 x) k = true ∧
        t = s.answer .ok (BitVec.ofNat 32 (tcEnc (s32 x) k))) := by
  unfold execTcenc
  cases legalWidth k <;> cases tcFits (s32 x) k <;> simp [raise_next, respond_next]

theorem execTcdec_next {k : Nat} {u : Word} {s t : State} :
    execTcdec k u s = .next t ↔
      (legalWidth k = false ∧ t = s.answer .invalidBitWidth 0) ∨
      (legalWidth k = true ∧ mask k < u.toNat ∧ t = s.answer .valueOutOfRange 0) ∨
      (legalWidth k = true ∧ u.toNat ≤ mask k ∧
        t = s.answer .ok (BitVec.ofNat 32 (u32 (tcDec u.toNat k)))) := by
  unfold execTcdec
  cases legalWidth k with
  | false => simp [raise_next]
  | true =>
    by_cases h : mask k < u.toNat
    · simp [h, Nat.not_le.2 h, raise_next]
    · simp [h, Nat.le_of_not_lt h, respond_next]

theorem execWrin_next {idx : Nat} {v : Word} {s t : State} :
    execWrin idx v s = .next t ↔
      (s.hdr.nmax.toNat ≤ idx ∧ t = s.answer .illegalCommand 0) ∨
      (idx < s.hdr.nmax.toNat ∧
        t = State.answer { s with mem := memSet s.mem .input (memStore (memGet s.mem .input) idx v) } .ok 0) := by
  unfold execWrin
  by_cases h : s.hdr.nmax.toNat ≤ idx
  · simp [h, Nat.not_lt.2 h, raise_next]
  · have hlt := Nat.lt_of_not_le h
    simp [h, hlt, orFault_next, memWriteAll_eq_ok, memStoreFrom, respond_next, Nat.succ_le_of_lt hlt]

/-- The three reads within a valid length (R201 to R203). -/
theorem readWithin_next {sp : Space} {len : Word} {idx : Nat} {s t : State} :
    readWithin sp len idx s = .next t ↔
      (len.toNat ≤ idx ∧ t = s.answer .illegalCommand 0) ∨
      (idx < len.toNat ∧ idx < s.hdr.nmax.toNat ∧ t = s.answer .ok (s.word sp idx)) := by
  unfold readWithin
  by_cases h : len.toNat ≤ idx
  · simp [h, Nat.not_lt.2 h, raise_next]
  · simp [h, Nat.lt_of_not_le h, orFault_next, memRead_eq_ok, respond_toNat_next, and_assoc]

theorem execRdhdr_next {idx : Nat} {s t : State} :
    execRdhdr idx s = .next t ↔
      (headerRegister s.hdr idx = none ∧ t = s.answer .illegalCommand 0) ∨
      (∃ w, headerRegister s.hdr idx = some w ∧ t = s.answer .ok w) := by
  unfold execRdhdr
  cases headerRegister s.hdr idx <;> simp [raise_next, respond_toNat_next]

end Sys2Proof.Machine
end

