-- ==== Sys2Proof/Laws/Effect.lean ====
section
/-! SUPPORT. What any command can do when it answers a next state, said once over all seventeen: an error response, a
read, a new packer, a packed array, a decompressed buffer, or one input word. -/

namespace Sys2Proof.Machine

/-- The seven ends of a command, each with the command it belongs to and the whole state it leaves. -/
theorem exec_effect {i : Instr} {s t : State} (h : exec i s = .next t) :
   (∃ e, e ≠ .ok ∧ e ≠ .emptyNotAllowed ∧ t = s.answer e 0 ∧ (e = .unknownKind → i.mnemonic = "CREATE") ∧
    (e = .invalidBitWidth ∨ e = .valueOutOfRange → i.mnemonic ∈ ["COMPRESSK", "TCENC", "TCDEC"]) ∧
    (e = .indexOutOfRange → i.mnemonic ∈ ["GET", "ADDR"]) ∧
    (e = .sizeMismatch → i.mnemonic = "DECOMPRESS")) ∨
   (isReader i = true ∧ ∃ v, t = s.answer .ok v) ∨
   (∃ k sg zz kd, i = .create k sg zz ∧ t = State.answer { s with hdr := clearedHeader s.hdr ⟨true, kd, sg, zz⟩ } .ok 0) ∨
   (∃ len k, (i = .compress len ∨ ∃ k', i = .compressk k' len) ∧ s.hdr.cfg.valid = true ∧
      isOverflow s.hdr.cfg.kind = false ∧ len.toNat ≤ s.hdr.nmax.toNat ∧ (1 ≤ k ∧ k ≤ 32) ∧
      t = (afterBase s len k).answer .ok 0) ∨
   (∃ len, i = .compress len ∧ s.hdr.cfg.valid = true ∧
      isOverflow s.hdr.cfg.kind = true ∧ len.toNat ≤ s.hdr.nmax.toNat ∧
      (∃ s', encodeOverflow s s.layout (s.inputCodes len.toNat) = .ok s') ∧ t = (afterOverflow s len).answer .ok 0) ∨
   (∃ vs, i = .decompress s.hdr.n ∧ s.hdr.cfg.valid = true ∧ s.hdr.n.toNat ≤ s.hdr.nmax.toNat ∧ (List.range s.hdr.n.toNat).map (getValue s) = vs.map .ok ∧
          t = State.answer { s with
            hdr := { s.hdr with outLen := s.hdr.n }
            mem := memSet s.mem .out (memStoreFrom (memGet s.mem .out) 0 vs) } .ok 0) ∨
   (∃ idx v, i = .wrin idx v ∧ idx < s.hdr.nmax.toNat ∧ t = State.answer { s with mem := memSet s.mem .input (memStore (memGet s.mem .input) idx v) } .ok 0) := by
  cases i with
  | create k sg zz =>
    rcases execCreate_next.1 h with ⟨-, rfl⟩ | ⟨kd, hk, rfl⟩
    · exact .inl ⟨_, by decide, by decide, rfl, by simp [Instr.mnemonic]⟩
    · exact .inr (.inr (.inl ⟨_, _, _, _, rfl, rfl⟩))
  | compress len =>
    rcases execCompress_next.1 h with ⟨-, rfl⟩ | ⟨⟨hv,hl⟩, ⟨ho, hb⟩ | ⟨ho,hb⟩⟩
    · exact .inl ⟨_, by decide, by decide, rfl, by simp [Instr.mnemonic]⟩
    · obtain ⟨hk, -, rfl⟩ := compressBase_next.1 hb
      exact .inr (.inr (.inr (.inl ⟨len, _, .inl rfl, hv, ho, hl, hk, rfl⟩)))
    · obtain ⟨hk, rfl⟩ := compressOverflow_next.1 hb
      exact .inr (.inr (.inr (.inr (.inl ⟨len, rfl, hv, ho, hl, hk, rfl⟩))))
  | compressk k len =>
    rcases execCompressk_next.1 h with ⟨-, rfl⟩ | ⟨⟨hv,ho,hl⟩, ⟨hb,rfl⟩ | ⟨hb,-,rfl⟩ | ⟨-,-,hb⟩⟩
    · exact .inl ⟨_, by decide, by decide, rfl, by simp [Instr.mnemonic]⟩
    · exact .inl ⟨_, by decide, by decide, rfl, by simp [Instr.mnemonic]⟩
    · exact .inl ⟨_, by decide, by decide, rfl, by simp [Instr.mnemonic]⟩
    · obtain ⟨hk, -, rfl⟩ := compressBase_next.1 hb
      exact .inr (.inr (.inr (.inl ⟨len, _, .inr ⟨_, rfl⟩, hv, ho, hl, hk, rfl⟩)))
  | get j =>
    rcases execGet_next.1 h with ⟨-, rfl⟩ | ⟨-,-, rfl⟩ | ⟨_,_,v,_,rfl⟩
    · exact .inl ⟨_, by decide, by decide, rfl, by simp [Instr.mnemonic]⟩
    · exact .inl ⟨_, by decide, by decide, rfl, by simp [Instr.mnemonic]⟩
    · exact .inr (.inl ⟨rfl, v, rfl⟩)
  | decompress len =>
    rcases execDecompress_next.1 h with ⟨-, rfl⟩ | ⟨-,-, rfl⟩ | ⟨hv,rfl,hn,vs,hvs,rfl⟩
    · exact .inl ⟨_, by decide, by decide, rfl, by simp [Instr.mnemonic]⟩
    · exact .inl ⟨_, by decide, by decide, rfl, by simp [Instr.mnemonic]⟩
    · exact .inr (.inr (.inr (.inr (.inr (.inl ⟨vs, rfl, hv, hn, hvs, rfl⟩)))))
  | size =>
    rcases execSize_next.1 h with ⟨-, rfl⟩ | ⟨-,rfl⟩
    · exact .inl ⟨_, by decide, by decide, rfl, by simp [Instr.mnemonic]⟩
    · exact .inr (.inl ⟨rfl, _, rfl⟩)
  | addr st j =>
    cases st with
    | main =>
      rcases execAddr_main_next.1 h with ⟨-, rfl⟩ | ⟨-,-, rfl⟩ | ⟨_,_,hb⟩
      · exact .inl ⟨_, by decide, by decide, rfl, by simp [Instr.mnemonic]⟩
      · exact .inl ⟨_, by decide, by decide, rfl, by simp [Instr.mnemonic]⟩
      · exact .inr (.inl ⟨rfl, _, (respondBitAddr_next.1 hb).2⟩)
    | overflow =>
      rcases execAddr_overflow_next.1 h with ⟨-, rfl⟩ | ⟨-,⟨-, rfl⟩ | ⟨_,hb⟩⟩
      · exact .inl ⟨_, by decide, by decide, rfl, by simp [Instr.mnemonic]⟩
      · exact .inl ⟨_, by decide, by decide, rfl, by simp [Instr.mnemonic]⟩
      · exact .inr (.inl ⟨rfl, _, (respondBitAddr_next.1 hb).2⟩)
  | bitwidth v => exact .inr (.inl ⟨rfl, _, respond_next.1 h⟩)
  | zzenc v => exact .inr (.inl ⟨rfl, _, respond_next.1 h⟩)
  | zzdec v => exact .inr (.inl ⟨rfl, _, respond_next.1 h⟩)
  | tcenc k x =>
    rcases execTcenc_next.1 h with ⟨-, rfl⟩ | ⟨-,-, rfl⟩ | ⟨_,_,rfl⟩
    · exact .inl ⟨_, by decide, by decide, rfl, by simp [Instr.mnemonic]⟩
    · exact .inl ⟨_, by decide, by decide, rfl, by simp [Instr.mnemonic]⟩
    · exact .inr (.inl ⟨rfl, _, rfl⟩)
  | tcdec k x =>
    rcases execTcdec_next.1 h with ⟨-, rfl⟩ | ⟨-,-, rfl⟩ | ⟨_,_,rfl⟩
    · exact .inl ⟨_, by decide, by decide, rfl, by simp [Instr.mnemonic]⟩
    · exact .inl ⟨_, by decide, by decide, rfl, by simp [Instr.mnemonic]⟩
    · exact .inr (.inl ⟨rfl, _, rfl⟩)
  | wrin idx v =>
    rcases execWrin_next.1 h with ⟨-, rfl⟩ | ⟨hl, rfl⟩
    · exact .inl ⟨_, by decide, by decide, rfl, by simp [Instr.mnemonic]⟩
    · exact .inr (.inr (.inr (.inr (.inr (.inr ⟨_, _, rfl, hl, rfl⟩)))))
  | rdout idx =>
    rcases readWithin_next.1 h with ⟨-, rfl⟩ | ⟨_,_,rfl⟩
    · exact .inl ⟨_, by decide, by decide, rfl, by simp [Instr.mnemonic]⟩
    · exact .inr (.inl ⟨rfl, _, rfl⟩)
  | rdmain idx =>
    rcases readWithin_next.1 h with ⟨-, rfl⟩ | ⟨_,_,rfl⟩
    · exact .inl ⟨_, by decide, by decide, rfl, by simp [Instr.mnemonic]⟩
    · exact .inr (.inl ⟨rfl, _, rfl⟩)
  | rdovf idx =>
    rcases readWithin_next.1 h with ⟨-, rfl⟩ | ⟨_,_,rfl⟩
    · exact .inl ⟨_, by decide, by decide, rfl, by simp [Instr.mnemonic]⟩
    · exact .inr (.inl ⟨rfl, _, rfl⟩)
  | rdhdr idx =>
    rcases execRdhdr_next.1 h with ⟨-, rfl⟩ | ⟨_,_,rfl⟩
    · exact .inl ⟨_, by decide, by decide, rfl, by simp [Instr.mnemonic]⟩
    · exact .inr (.inl ⟨rfl, _, rfl⟩)

/-- A compress on an overflow kind leaves `IN` as it was. -/
theorem overflowMemory_input (s : State) (codes : List Nat) :
    (overflowMemory s codes).input = s.mem.input := by
  unfold overflowMemory; dsimp only; split <;> rfl

/-- A compress on an overflow kind leaves `OUT` as it was. -/
theorem overflowMemory_out (s : State) (codes : List Nat) :
    (overflowMemory s codes).out = s.mem.out := by
  unfold overflowMemory; dsimp only; split <;> rfl

end Sys2Proof.Machine
end

