-- ==== Sys2Proof/Laws/PerInstr.lean ====
section
/-! SUPPORT. Statements made for every command, one lemma a constructor: the command word that a command is written
as lies in that command's row of the opcode table (R64) and has no bit beyond the row's fields. -/

namespace Sys2Proof.Laws

/-- The encoded command word matches the row of R64 that bears the command's mnemonic. -/
def EncodesInItsRow.Statement (i : Instr) : Prop :=
  i.wellFormed = true → ∃ row ∈ opcodeTable, row.mnemonic = i.mnemonic ∧ (encode i).cmd &&& row.mask = row.value

/-- A word whose row fixes the opcode byte alone (format `X`). -/
theorem commandWord_and_byte (imm op : Nat) (hi : imm < 2 ^ 24) (ho : op < 2 ^ 8) :
    commandWord imm op &&& 0x000000FF#32 = BitVec.ofNat 32 op := by
  apply BitVec.eq_of_toNat_eq
  have h : (commandWord imm op).toNat = imm * 2 ^ 8 + op := by
    unfold commandWord; rw [BitVec.toNat_ofNat]; omega
  have e : (BitVec.ofNat 32 op).toNat = op := by rw [BitVec.toNat_ofNat]; omega
  rw [BitVec.toNat_and, h, e]
  refine (Nat.and_two_pow_sub_one_eq_mod (imm * 2 ^ 8 + op) 8).trans ?_
  omega

/-- The words whose rows leave an 8-bit immediate free (format `K`), each checked. -/
theorem commandWord_and_k : ∀ k : Fin 256,
    commandWord k.val 0x03 &&& 0xFFFF00FF#32 = 0x00000003#32 ∧
    commandWord k.val 0x13 &&& 0xFFFF00FF#32 = 0x00000013#32 ∧
    commandWord k.val 0x14 &&& 0xFFFF00FF#32 = 0x00000014#32 := by decide +kernel

theorem EncodesInItsRow.create (kind : Nat) (signed zigzag : Bool) :
    EncodesInItsRow.Statement (.create kind signed zigzag) := by
  intro h
  refine ⟨⟨"CREATE", 0x00000001#32, 0xFFFC00FF#32⟩, by decide, rfl, ?_⟩
  have hk : kind < 256 := by simpa [Instr.wellFormed] using h
  have all : ∀ z g : Bool, ∀ k : Fin 256,
      commandWord (z.toNat * 2 ^ 9 + g.toNat * 2 ^ 8 + k.val) 0x01 &&& 0xFFFC00FF#32 = 0x00000001#32 := by
    decide +kernel
  exact all zigzag signed ⟨kind, hk⟩

theorem EncodesInItsRow.compress (len : Word) : EncodesInItsRow.Statement (.compress len) :=
  fun _ => ⟨⟨"COMPRESS", 0x00000002#32, 0xFFFFFFFF#32⟩, by decide, rfl,
    show commandWord 0 0x02 &&& 0xFFFFFFFF#32 = 0x00000002#32 by decide⟩

theorem EncodesInItsRow.compressk (k : Nat) (len : Word) : EncodesInItsRow.Statement (.compressk k len) := fun h =>
  ⟨⟨"COMPRESSK", 0x00000003#32, 0xFFFF00FF#32⟩, by decide, rfl,
    (commandWord_and_k ⟨k, by simpa [Instr.wellFormed] using h⟩).1⟩

theorem EncodesInItsRow.get (i : Word) : EncodesInItsRow.Statement (.get i) :=
  fun _ => ⟨⟨"GET", 0x00000004#32, 0xFFFFFFFF#32⟩, by decide, rfl,
    show commandWord 0 0x04 &&& 0xFFFFFFFF#32 = 0x00000004#32 by decide⟩

theorem EncodesInItsRow.decompress (len : Word) : EncodesInItsRow.Statement (.decompress len) :=
  fun _ => ⟨⟨"DECOMPRESS", 0x00000005#32, 0xFFFFFFFF#32⟩, by decide, rfl,
    show commandWord 0 0x05 &&& 0xFFFFFFFF#32 = 0x00000005#32 by decide⟩

theorem EncodesInItsRow.size : EncodesInItsRow.Statement .size :=
  fun _ => ⟨⟨"SIZE", 0x00000006#32, 0xFFFFFFFF#32⟩, by decide, rfl,
    show commandWord 0 0x06 &&& 0xFFFFFFFF#32 = 0x00000006#32 by decide⟩

theorem EncodesInItsRow.addr (s : Stream) (j : Word) : EncodesInItsRow.Statement (.addr s j) :=
  fun _ => ⟨⟨"ADDR", 0x00000007#32, 0xFFFFFEFF#32⟩, by decide, rfl, by
    cases s
    · change commandWord 0 0x07 &&& 0xFFFFFEFF#32 = 0x00000007#32; decide
    · change commandWord 1 0x07 &&& 0xFFFFFEFF#32 = 0x00000007#32; decide⟩

theorem EncodesInItsRow.bitwidth (v : Word) : EncodesInItsRow.Statement (.bitwidth v) :=
  fun _ => ⟨⟨"BITWIDTH", 0x00000010#32, 0xFFFFFFFF#32⟩, by decide, rfl,
    show commandWord 0 0x10 &&& 0xFFFFFFFF#32 = 0x00000010#32 by decide⟩

theorem EncodesInItsRow.zzenc (x : Word) : EncodesInItsRow.Statement (.zzenc x) :=
  fun _ => ⟨⟨"ZZENC", 0x00000011#32, 0xFFFFFFFF#32⟩, by decide, rfl,
    show commandWord 0 0x11 &&& 0xFFFFFFFF#32 = 0x00000011#32 by decide⟩

theorem EncodesInItsRow.zzdec (u : Word) : EncodesInItsRow.Statement (.zzdec u) :=
  fun _ => ⟨⟨"ZZDEC", 0x00000012#32, 0xFFFFFFFF#32⟩, by decide, rfl,
    show commandWord 0 0x12 &&& 0xFFFFFFFF#32 = 0x00000012#32 by decide⟩

theorem EncodesInItsRow.tcenc (k : Nat) (x : Word) : EncodesInItsRow.Statement (.tcenc k x) := fun h =>
  ⟨⟨"TCENC", 0x00000013#32, 0xFFFF00FF#32⟩, by decide, rfl,
    (commandWord_and_k ⟨k, by simpa [Instr.wellFormed] using h⟩).2.1⟩

theorem EncodesInItsRow.tcdec (k : Nat) (u : Word) : EncodesInItsRow.Statement (.tcdec k u) := fun h =>
  ⟨⟨"TCDEC", 0x00000014#32, 0xFFFF00FF#32⟩, by decide, rfl,
    (commandWord_and_k ⟨k, by simpa [Instr.wellFormed] using h⟩).2.2⟩

theorem EncodesInItsRow.wrin (idx : Nat) (v : Word) : EncodesInItsRow.Statement (.wrin idx v) := fun h =>
  ⟨⟨"WRIN", 0x00000020#32, 0x000000FF#32⟩, by decide, rfl,
    commandWord_and_byte idx 0x20 (by simpa [Instr.wellFormed] using h) (by decide)⟩

theorem EncodesInItsRow.rdout (idx : Nat) : EncodesInItsRow.Statement (.rdout idx) := fun h =>
  ⟨⟨"RDOUT", 0x00000021#32, 0x000000FF#32⟩, by decide, rfl,
    commandWord_and_byte idx 0x21 (by simpa [Instr.wellFormed] using h) (by decide)⟩

theorem EncodesInItsRow.rdmain (idx : Nat) : EncodesInItsRow.Statement (.rdmain idx) := fun h =>
  ⟨⟨"RDMAIN", 0x00000022#32, 0x000000FF#32⟩, by decide, rfl,
    commandWord_and_byte idx 0x22 (by simpa [Instr.wellFormed] using h) (by decide)⟩

theorem EncodesInItsRow.rdovf (idx : Nat) : EncodesInItsRow.Statement (.rdovf idx) := fun h =>
  ⟨⟨"RDOVF", 0x00000023#32, 0x000000FF#32⟩, by decide, rfl,
    commandWord_and_byte idx 0x23 (by simpa [Instr.wellFormed] using h) (by decide)⟩

theorem EncodesInItsRow.rdhdr (idx : Nat) : EncodesInItsRow.Statement (.rdhdr idx) := fun h =>
  ⟨⟨"RDHDR", 0x00000024#32, 0x000000FF#32⟩, by decide, rfl,
    commandWord_and_byte idx 0x24 (by simpa [Instr.wellFormed] using h) (by decide)⟩

end Sys2Proof.Laws
end

