-- ==== Sys2Proof/Laws/Streams.lean ====
section
/-! SUPPORT. The bits of packed words, in both layouts. -/

namespace Sys2Proof.Machine

/-- The bits of a sum of `k`-bit digits: digit `t` stands at bit `t * k`. -/
theorem sum_digits_bit (k n : Nat) (hk : 1 ≤ k) (f : Nat → Nat) (hf : ∀ t, t < n → f t < 2^k) :
   ((List.range n).map fun t => f t * 2^(t*k)).sum < 2^(n*k) ∧
   ∀ j, ((List.range n).map fun t => f t * 2^(t*k)).sum.testBit j = (decide (j < n*k) && (f (j/k)).testBit (j%k)) := by
  induction n with
  | zero => simp
  | succ n ih =>
    obtain ⟨h1, h2⟩ := ih (fun t ht => hf t (by omega))
    have hn := hf n (by omega)
    rw [List.range_succ, List.map_append, List.sum_append]
    simp only [List.map_cons, List.map_nil, List.sum_cons, List.sum_nil, Nat.add_zero]
    generalize ((List.range n).map fun t => f t * 2^(t*k)).sum = S at *
    have hS : S + f n * 2^(n*k) = 2^(n*k) * f n + S := by ring
    constructor
    · calc S + f n * 2^(n*k) < 2^(n*k) + f n * 2^(n*k) := by omega
        _ = (f n + 1) * 2^(n*k) := by ring
        _ ≤ 2^k * 2^(n*k) := Nat.mul_le_mul_right _ (by omega)
        _ = 2^((n+1)*k) := by rw [← pow_add]; congr 1; ring
    · intro j
      rw [hS, Nat.testBit_two_pow_mul_add _ h1]
      split
      · rename_i hj
        rw [h2, decide_eq_true hj]
        have : j < (n+1)*k := by nlinarith
        simp [this]
      · rename_i hj
        have hj' : n*k ≤ j := by omega
        by_cases hl : j < (n+1)*k
        · have e1 : j/k = n := Nat.div_eq_of_lt_le (by omega) (by omega)
          have e2 : j%k = j - n*k := by
            have := Nat.div_add_mod j k
            rw [e1] at this
            have : n*k = k*n := Nat.mul_comm _ _
            omega
          simp [hl, e1, e2]
        · simp only [hl, decide_false, Bool.false_and]
          apply Nat.testBit_lt_two_pow
          calc f n < 2^k := hn
            _ ≤ 2^(j-n*k) := Nat.pow_le_pow_right (by norm_num) (by have : (n+1)*k = n*k+k := by ring
                                                                    omega)

/-- Bit `b` of a word of a cross stream (R112): the bit of the value it belongs to, 0 beyond the last entry. -/
theorem packWordX_bit (vals : List Nat) (k w b : Nat) (hb : b < 32) :
   (packWordX vals k w).testBit b = (decide (32*w+b < vals.length*k) && (vals.getD ((32*w+b)/k) 0).testBit ((32*w+b)%k)) ∧ packWordX vals k w < 2^32 := by
  have := sum_digits_bit 1 32 le_rfl (fun b => if 32*w+b < vals.length*k then vals.getD ((32*w+b)/k) 0 / 2^((32*w+b)%k) % 2 else 0) (fun t _ => by split <;> omega)
  have e : packWordX vals k w = ((List.range 32).map fun t => (if 32*w+t < vals.length*k then vals.getD ((32*w+t)/k) 0 / 2^((32*w+t)%k) % 2 else 0) * 2^(t*1)).sum := by
    unfold packWordX
    congr 2
    funext t
    split <;> simp
  rw [e]
  refine ⟨?_, by simpa using this.1⟩
  rw [this.2]
  simp only [Nat.div_one, Nat.mod_one, mul_one, hb, decide_true, Bool.true_and]
  split
  · rename_i h
    simp only [h, decide_true, Bool.true_and]
    rw [Nat.testBit_eq_decide_div_mod_eq]
    rw [Nat.testBit_eq_decide_div_mod_eq]; simp
  · rename_i h; simp [h]

/-- Bit `b` of a word of a no-cross stream (R133): the bit of the value of its slot, 0 outside the slots in use. -/
theorem packWordNC_bit (vals : List Nat) (k w b : Nat) (hk : 1 ≤ k) (hv : ∀ v ∈ vals, v ≤ 2^k-1) :
   (packWordNC vals k w).testBit b = (decide (b < slotsPerWord k * k) && decide (w*slotsPerWord k+b/k < vals.length) && (vals.getD (w*slotsPerWord k + b/k) 0).testBit (b%k)) ∧ packWordNC vals k w < 2^32 := by
  have hg : ∀ i, vals.getD i 0 < 2^k := by
    intro i
    have h2 : 0 < 2^k := Nat.two_pow_pos k
    by_cases h : i < vals.length
    · have := hv _ (List.getElem_mem h)
      rw [List.getD_eq_getElem _ _ h]
      omega
    · rw [List.getD_eq_default _ _ (by omega)]; exact h2
  have := sum_digits_bit k (slotsPerWord k) hk (fun t => if w*slotsPerWord k + t < vals.length then vals.getD (w*slotsPerWord k+t) 0 else 0) (fun t _ => by split; exact hg _; exact Nat.two_pow_pos k)
  have e : packWordNC vals k w = ((List.range (slotsPerWord k)).map fun t => (if w*slotsPerWord k + t < vals.length then vals.getD (w*slotsPerWord k+t) 0 else 0) * 2^(t*k)).sum := by
    unfold packWordNC
    congr 2
    funext t
    split <;> simp
  have hle : slotsPerWord k * k ≤ 32 := Nat.div_mul_le_self 32 k
  rw [e]
  refine ⟨?_, lt_of_lt_of_le this.1 (Nat.pow_le_pow_right (by norm_num) hle)⟩
  rw [this.2]
  split <;> rename_i h <;> simp [h]

/-- A word has at least one slot. -/
theorem slotsPerWord_pos {k} (hk : 1 ≤ k) (hk' : k ≤ 32) : 1 ≤ slotsPerWord k := by
  unfold slotsPerWord; exact (Nat.one_le_div_iff (by omega)).2 hk'

/-- The upper bounds of a rounded-up quotient. -/
theorem ceilDiv_le_iff {a b w} (hb : 1 ≤ b) : ceilDiv a b ≤ w ↔ a ≤ w * b := by
  unfold ceilDiv
  rw [← Nat.lt_succ_iff, Nat.div_lt_iff_lt_mul (by omega)]
  have : (w.succ) * b = w*b + b := by rw [Nat.succ_mul]
  omega

/-- What lies below a rounded-up quotient. -/
theorem lt_ceilDiv_iff {a b w} (hb : 1 ≤ b) : w < ceilDiv a b ↔ w * b < a := by
  have := @ceilDiv_le_iff a b w hb; omega

/-- An entry of a no-cross stream stands inside one word. -/
theorem bitAddr_nc_word {k j} (hk : 1 ≤ k) (hk' : k ≤ 32) (b) (hb : b < k) :
   (bitAddr .nc k j + b) / 32 = j / slotsPerWord k ∧ (bitAddr .nc k j + b) % 32 = j % slotsPerWord k * k + b ∧ j % slotsPerWord k * k + k ≤ 32 := by
  have hp := slotsPerWord_pos hk hk'
  have hle : slotsPerWord k * k ≤ 32 := Nat.div_mul_le_self 32 k
  have hm := Nat.mod_lt j (show slotsPerWord k > 0 by omega)
  have : j % slotsPerWord k * k + k ≤ slotsPerWord k * k := by nlinarith
  simp only [bitAddr]
  omega

/-- Packing puts bit `b` of value `j` at bit address `bitAddr l k j + b`, in a word of the stream. -/
theorem packWord_entry_bit (l) (vals : List Nat) (k j b) (hk : 1 ≤ k) (hk' : k ≤ 32) (hv : ∀ v ∈ vals, v ≤ 2^k-1) (hj : j < vals.length) (hb : b < k) :
   (bitAddr l k j + b)/32 < streamWords l vals.length k ∧
   (packWord l vals k ((bitAddr l k j + b)/32)).testBit ((bitAddr l k j + b)%32) = (vals.getD j 0).testBit b := by
  cases l with
  | x =>
    simp only [bitAddr, streamWords, packWord]
    have h1 : j*k + b < vals.length * k := by nlinarith
    constructor
    · rw [lt_ceilDiv_iff (by norm_num)]; omega
    · rw [(packWordX_bit vals k _ _ (Nat.mod_lt _ (by norm_num))).1]
      have e : 32 * ((j*k+b)/32) + (j*k+b)%32 = j*k+b := Nat.div_add_mod _ _
      rw [e]
      have e1 : (j*k+b)/k = j := by rw [Nat.add_comm, Nat.add_mul_div_right _ _ (by omega), Nat.div_eq_of_lt hb]; omega
      have e2 : (j*k+b)%k = b := by rw [Nat.add_comm, Nat.add_mul_mod_self_right, Nat.mod_eq_of_lt hb]
      simp [h1, e1, e2]
  | nc =>
    obtain ⟨e1, e2, e3⟩ := bitAddr_nc_word (j := j) hk hk' b hb
    have hp := slotsPerWord_pos hk hk'
    have hm := Nat.mod_lt j (show slotsPerWord k > 0 by omega)
    rw [e1, e2]
    simp only [streamWords, packWord]
    constructor
    · rw [lt_ceilDiv_iff hp]; have := Nat.div_mul_le_self j (slotsPerWord k); omega
    · rw [(packWordNC_bit vals k _ _ hk hv).1]
      have f1 : (j % slotsPerWord k * k + b)/k = j % slotsPerWord k := by rw [Nat.add_comm, Nat.add_mul_div_right _ _ (by omega), Nat.div_eq_of_lt hb]; omega
      have f2 : (j % slotsPerWord k * k + b)%k = b := by rw [Nat.add_comm, Nat.add_mul_mod_self_right, Nat.mod_eq_of_lt hb]
      have f3 : j / slotsPerWord k * slotsPerWord k + j % slotsPerWord k = j := by rw [Nat.mul_comm]; exact Nat.div_add_mod _ _
      rw [f1, f2, f3]
      have : j % slotsPerWord k * k + b < slotsPerWord k * k := by nlinarith
      simp [this, hj]

/-- A packed word is a 32-bit number. -/
theorem packWord_lt (l) (vals : List Nat) (k w) (hk : 1 ≤ k) (hv : ∀ v ∈ vals, v ≤ 2^k-1) : packWord l vals k w < 2^32 := by
  cases l
  · exact (packWordX_bit vals k w 0 (by norm_num)).2
  · exact (packWordNC_bit vals k w 0 hk hv).2

end Sys2Proof.Machine
end

