-- ==== Sys2Proof/Tests/Slice0.lean ====
section
/-! SUPPORT. The model's own tests: what WellFormed refuses, words written out by hand from R62 and R64, the vectors of
95_test_vectors.md on single commands, and for every obligation with hypotheses a state and operands that meet them. -/

namespace Sys2Proof.Tests

set_option Elab.async false

open Sys2Proof Sys2Proof.Machine

/-! ### Helpers -/

/-- The state after a command that goes on. -/
def after (i : Instr) (s : State) : State :=
  match exec i s with
  | .next t => t
  | .fault _ => State.reset
  | .refused _ => State.reset

/-- The response of a command that goes on. -/
def answerOf (i : Instr) (s : State) : Option Response :=
  match exec i s with
  | .next t => t.responses.getLast?
  | .fault _ => none
  | .refused _ => none

/-- The response of a step. -/
def stepAnswer (s : State) : Option Response :=
  match step s with
  | .next t => t.responses.getLast?
  | .fault _ => none
  | .refused _ => none

/-- The state after a step that goes on. -/
def stepAfter (s : State) : State :=
  match step s with
  | .next t => t
  | .fault _ => State.reset
  | .refused _ => State.reset

/-- A block of 16 words a space with a packer that holds no array, and these words in `IN`. -/
def loaded (kd : Kind) (signed zigzag : Bool) (vals : List Word) : State :=
  { State.reset with
    hdr := { Header.reset 16 with cfg := ⟨true, kd, signed, zigzag⟩ }
    mem := { Memory.reset with input := memStoreFrom [] 0 vals } }

/-- That block after compressing all of them. -/
def packed (kd : Kind) (signed zigzag : Bool) (vals : List Word) : State :=
  after (.compress (BitVec.ofNat 32 vals.length)) (loaded kd signed zigzag vals)

/-- The first words of a space. -/
def wordsOf (s : State) (sp : Space) (len : Nat) : List Word := (List.range len).map (s.word sp)

/-- The source's own example (S1). -/
def sourceArray : List Word := [1, 2, 3, 1024, 4, 5, 2048]

/-- `[-5, 3, 0, -1]` of section 2.7. -/
def twosArray : List Word := [0xFFFFFFFB, 3, 0, 0xFFFFFFFF]

/-- `[-1, 1, -70000, 2, 0, -2, 3, 1]` of section 2.6. -/
def mixedArray : List Word := [0xFFFFFFFF, 1, 0xFFFEEE90, 2, 0, 0xFFFFFFFE, 3, 1]

/-- `[100, 200, 300, 400, 500, 1, 2]` of section 2.6. -/
def wideArray : List Word := [100, 200, 300, 400, 500, 1, 2]

def sourcePacked : State := packed .overflowCross false false sourceArray
def twosPacked : State := packed .cross true false twosArray
def mixedPacked : State := packed .overflowCross true false mixedArray

theorem exec_after {i : Instr} {s : State} (h : (answerOf i s).isSome = true) : exec i s = .next (after i s) := by
  unfold answerOf at h; unfold after
  split at h
  · rename_i t ht; rw [ht]
  · cases h
  · cases h

theorem step_after {s : State} (h : (stepAnswer s).isSome = true) : step s = .next (stepAfter s) := by
  unfold stepAnswer at h; unfold stepAfter
  split at h
  · rename_i t ht; rw [ht]
  · cases h
  · cases h

theorem exec_packed {kd : Kind} {signed zigzag : Bool} {vals : List Word}
    (h : (answerOf (.compress (BitVec.ofNat 32 vals.length)) (loaded kd signed zigzag vals)).isSome = true) :
    exec (.compress (BitVec.ofNat 32 vals.length)) (loaded kd signed zigzag vals) =
      .next (packed kd signed zigzag vals) := exec_after h

/-! ### WellFormed refuses each ill-formed immediate (R62) -/

theorem test_wellFormed_create : (Instr.create 256 false false).wellFormed = false := by decide
theorem test_wellFormed_compressk : (Instr.compressk 256 0).wellFormed = false := by decide
theorem test_wellFormed_tcenc : (Instr.tcenc 256 0).wellFormed = false := by decide
theorem test_wellFormed_tcdec : (Instr.tcdec 256 0).wellFormed = false := by decide
theorem test_wellFormed_wrin : (Instr.wrin (2 ^ 24) 0).wellFormed = false := by decide
theorem test_wellFormed_rdout : (Instr.rdout (2 ^ 24)).wellFormed = false := by decide
theorem test_wellFormed_rdmain : (Instr.rdmain (2 ^ 24)).wellFormed = false := by decide
theorem test_wellFormed_rdovf : (Instr.rdovf (2 ^ 24)).wellFormed = false := by decide
theorem test_wellFormed_rdhdr : (Instr.rdhdr (2 ^ 24)).wellFormed = false := by decide

/-! ### Words written out from R62 and R64, one for each command -/

theorem test_decode_create :
    decode 0b00000000000000110000000100000001 0 = .ok (.create 1 true true) := by decide
theorem test_decode_create_signed_only :
    decode 0b00000000000000010000001000000001 9 = .ok (.create 2 true false) := by decide
theorem test_decode_compress : decode 0b00000000000000000000000000000010 7 = .ok (.compress 7) := by decide
theorem test_decode_compressk :
    decode 0b00000000000000001000001100000011 2 = .ok (.compressk 0x83 2) := by decide
theorem test_decode_get : decode 0b00000000000000000000000000000100 3 = .ok (.get 3) := by decide
theorem test_decode_decompress : decode 0b00000000000000000000000000000101 7 = .ok (.decompress 7) := by decide
theorem test_decode_size : decode 0b00000000000000000000000000000110 5 = .ok .size := by decide
theorem test_decode_addr_main : decode 0b00000000000000000000000000000111 6 = .ok (.addr .main 6) := by decide
theorem test_decode_addr_overflow :
    decode 0b00000000000000000000000100000111 1 = .ok (.addr .overflow 1) := by decide
theorem test_decode_bitwidth : decode 0b00000000000000000000000000010000 255 = .ok (.bitwidth 255) := by decide
theorem test_decode_zzenc : decode 0b00000000000000000000000000010001 1 = .ok (.zzenc 1) := by decide
theorem test_decode_zzdec : decode 0b00000000000000000000000000010010 1 = .ok (.zzdec 1) := by decide
theorem test_decode_tcenc :
    decode 0b00000000000000000000010000010011 0xFFFFFFFD = .ok (.tcenc 4 0xFFFFFFFD) := by decide
theorem test_decode_tcdec : decode 0b00000000000000000000010000010100 13 = .ok (.tcdec 4 13) := by decide
theorem test_decode_wrin : decode 0b10000000000000000000001100100000 1024 = .ok (.wrin 0x800003 1024) := by decide
theorem test_decode_rdout : decode 0b00000000000000000000011000100001 1 = .ok (.rdout 6) := by decide
theorem test_decode_rdmain : decode 0b00000000000000010000000000100010 0 = .ok (.rdmain 0x100) := by decide
theorem test_decode_rdovf : decode 0b00000001000000000000000000100011 0 = .ok (.rdovf 0x10000) := by decide
theorem test_decode_rdhdr : decode 0b00000000000000000000101100100100 0 = .ok (.rdhdr 11) := by decide

/-- R65, the reserved opcodes of section 2.8. -/
theorem test_decode_reserved :
    decode 0x00 0 = .error .reservedOpcode ∧ decode 0x08 0 = .error .reservedOpcode ∧
    decode 0x15 0 = .error .reservedOpcode ∧ decode 0xFF 0 = .error .reservedOpcode := by decide

/-- R66, the non-zero `zero` fields of section 2.8. -/
theorem test_decode_zero_field :
    decode 0x110 3 = .error .nonzeroZeroField ∧ decode 0x102 3 = .error .nonzeroZeroField ∧
    decode 0x40001 3 = .error .nonzeroZeroField ∧ decode 0x207 3 = .error .nonzeroZeroField ∧
    decode 0x10003 3 = .error .nonzeroZeroField ∧ decode 0x10413 3 = .error .nonzeroZeroField := by decide

/-- R64: no word belongs to two rows. -/
theorem test_rows_disjoint :
    opcodeTable.Pairwise fun r q => r.value &&& (r.mask &&& q.mask) ≠ q.value &&& (r.mask &&& q.mask) := by decide

theorem test_encode_create : encode (.create 1 true true) = ⟨0x00030101, 0⟩ := by decide
theorem test_encode_addr : encode (.addr .overflow 1) = ⟨0x00000107, 1⟩ := by decide
theorem test_pack : pseudoPack [5, 9] = [.wrin 0 5, .wrin 1 9, .compress 2] := by decide
theorem test_decodeTableWord : decodeTableWord 32 0x00000303 = some (.compressk 3 0) := by decide
theorem test_withFetchWord : stepAnswer (State.reset.withFetchWord 32 0x00000B24) = some ⟨.ok, 16⟩ := by
  decide +kernel

/-! ### Vectors of 95_test_vectors.md, at most two a command -/

/-- Section 2.8: accepted although `ZIGZAG` means nothing to an unsigned packer. -/
theorem test_create_unsigned_zigzag :
    answerOf (.rdhdr 0) (after (.create 0 false true) State.reset) = some ⟨.ok, 0x80000200⟩ := by decide +kernel
theorem test_create_kind_4 : answerOf (.create 4 false false) State.reset = some ⟨.unknownKind, 0⟩ := by
  decide +kernel
/-- Section 2.6, `[100,200,...]`: no overflow is cheapest, and records are split. -/
theorem test_compress_overflow_words :
    wordsOf (packed .overflowCross false false wideArray) .main 3 = [0x258640C8, 0x400BE8C8, 0] := by decide +kernel
/-- Section 2.7, `nocross`, signed, zigzag. -/
theorem test_compress_zigzag_words :
    wordsOf (packed .nocross true true [0xFFFFFFFF, 2, 0xFFFFFFFD, 100, 0]) .main 2 = [0xC8050401, 0] := by
  decide +kernel
/-- Section 2.4, `k = 3` in layout X: an entry is split over the two words. -/
theorem test_compressk_words :
    wordsOf (after (.compressk 3 11) (loaded .cross false false [5, 6, 7, 1, 2, 3, 4, 0, 7, 5, 3])) .main 2 =
      [0xEF11A3F5, 0] := by decide +kernel
theorem test_compressk_too_narrow :
    answerOf (.compressk 3 2) (loaded .cross false false [5, 9]) = some ⟨.valueOutOfRange, 0⟩ := by decide +kernel
/-- P1 and section 2.6. -/
theorem test_get_overflow_value : answerOf (.get 3) sourcePacked = some ⟨.ok, 1024⟩ := by decide +kernel
theorem test_get_twos_negative : answerOf (.get 2) mixedPacked = some ⟨.ok, 0xFFFEEE90⟩ := by decide +kernel
theorem test_decompress_words : wordsOf (after (.decompress 7) sourcePacked) .out 7 = sourceArray := by decide +kernel
theorem test_decompress_mismatch : answerOf (.decompress 6) sourcePacked = some ⟨.sizeMismatch, 0⟩ := by decide +kernel
theorem test_size : answerOf .size sourcePacked = some ⟨.ok, 7⟩ := by decide +kernel
/-- Section 2.4, `k = 3` in layout NC: entry 10 starts word 1. -/
theorem test_addr_nocross :
    answerOf (.addr .main 10) (packed .nocross false false [5, 6, 7, 1, 2, 3, 4, 0, 7, 5, 3]) = some ⟨.ok, 32⟩ := by
  decide +kernel
theorem test_addr_overflow : answerOf (.addr .overflow 1) sourcePacked = some ⟨.ok, 12⟩ := by decide +kernel
theorem test_bitwidth_zero : answerOf (.bitwidth 0) State.reset = some ⟨.ok, 1⟩ := by decide +kernel
theorem test_bitwidth_2048 : answerOf (.bitwidth 2048) State.reset = some ⟨.ok, 12⟩ := by decide +kernel
theorem test_zzenc_negative : answerOf (.zzenc 0xFFFEEE90) State.reset = some ⟨.ok, 0x000222DF⟩ := by decide +kernel
theorem test_zzenc_least : answerOf (.zzenc 0x80000000) State.reset = some ⟨.ok, 0xFFFFFFFF⟩ := by decide +kernel
theorem test_zzdec_odd : answerOf (.zzdec 0x000222DF) State.reset = some ⟨.ok, 0xFFFEEE90⟩ := by decide +kernel
theorem test_zzdec_greatest : answerOf (.zzdec 0xFFFFFFFF) State.reset = some ⟨.ok, 0x80000000⟩ := by decide +kernel
theorem test_tcenc_bounds :
    [answerOf (.tcenc 4 0xFFFFFFF8) State.reset, answerOf (.tcenc 4 8) State.reset,
      answerOf (.tcenc 32 0x80000000) State.reset, answerOf (.tcenc 1 0xFFFFFFFF) State.reset] =
    [some ⟨.ok, 8⟩, some ⟨.valueOutOfRange, 0⟩, some ⟨.ok, 0x80000000⟩, some ⟨.ok, 1⟩] := by decide +kernel
theorem test_tcenc_widths :
    [answerOf (.tcenc 0 0) State.reset, answerOf (.tcenc 33 0) State.reset, answerOf (.tcenc 255 0) State.reset] =
    [some ⟨.invalidBitWidth, 0⟩, some ⟨.invalidBitWidth, 0⟩, some ⟨.invalidBitWidth, 0⟩] := by decide +kernel
theorem test_tcdec_bounds :
    [answerOf (.tcdec 4 7) State.reset, answerOf (.tcdec 4 8) State.reset, answerOf (.tcdec 4 16) State.reset,
      answerOf (.tcdec 32 0xFFFFFFFF) State.reset] =
    [some ⟨.ok, 7⟩, some ⟨.ok, 0xFFFFFFF8⟩, some ⟨.valueOutOfRange, 0⟩, some ⟨.ok, 0xFFFFFFFF⟩] := by decide +kernel
theorem test_tcdec_widths :
    [answerOf (.tcdec 0 0) State.reset, answerOf (.tcdec 40 0) State.reset] =
    [some ⟨.invalidBitWidth, 0⟩, some ⟨.invalidBitWidth, 0⟩] := by decide +kernel
theorem test_wrin_last_word : (after (.wrin 15 9) State.reset).word .input 15 = 9 := by decide +kernel
theorem test_wrin_beyond : answerOf (.wrin 16 1) State.reset = some ⟨.illegalCommand, 0⟩ := by decide +kernel
/-- P5: `IN` and `OUT` are not kept in step. -/
theorem test_rdout_stays :
    answerOf (.rdout 3) (after (.create 0 false false) (after (.decompress 7) sourcePacked)) = some ⟨.ok, 1024⟩ := by
  decide +kernel
theorem test_rdmain : answerOf (.rdmain 0) sourcePacked = some ⟨.ok, 0x03A81642⟩ := by decide +kernel
theorem test_rdmain_beyond : answerOf (.rdmain 1) sourcePacked = some ⟨.illegalCommand, 0⟩ := by decide +kernel
theorem test_rdovf : answerOf (.rdovf 0) sourcePacked = some ⟨.ok, 0x00800400⟩ := by decide +kernel
theorem test_rdovf_split : wordsOf mixedPacked .ovf 2 = [0xBA43FFFF, 0x003FFFEB] := by decide +kernel
/-- The header of section 2.6, `overflow-cross`, `TWOS`. -/
theorem test_rdhdr_all :
    (List.range 12).map (fun r => answerOf (.rdhdr r) mixedPacked) =
    ([0x80000102, 8, 0, 2, 3, 3, 18, 18, 1, 2, 0, 16] : List Word).map (fun w => some ⟨.ok, w⟩) := by decide +kernel
theorem test_rdhdr_reserved : answerOf (.rdhdr 12) State.reset = some ⟨.illegalCommand, 0⟩ := by decide +kernel

/-! ### Witnesses: for each obligation with hypotheses, states and operands that meet them

A witness with several parts takes the clauses of its obligation in their order, at the ends of their ranges. -/

/-- One request pending after reset. -/
def asking (cmd arg : Word) : State := { State.reset with inputs := [.request cmd arg] }

theorem witness_DecodeOfEncode :
    ∀ i ∈ [Instr.create 255 true true, .compressk 255 0xFFFFFFFF, .addr .overflow 0, .tcenc 0 0, .tcdec 255 1,
      .wrin (2 ^ 24 - 1) 5, .rdout 0, .rdmain (2 ^ 24 - 1), .rdovf 1, .rdhdr 15, .size], i.wellFormed = true := by decide

theorem witness_EncodeOfDecode :
    decode 0xFFFFFF20 7 = .ok (.wrin (2 ^ 24 - 1) 7) ∧ decode 0x00000006 7 = .ok .size := by decide +kernel

theorem witness_DecodeFollowsOpcodeTable :
    ∀ row ∈ opcodeTable, row.value &&& row.mask = row.value := by decide

theorem witness_ReservedOpcodeIsIllegal : ∀ op ∈ [0x00, 0x08, 0x0F, 0x15, 0x1F, 0x25, 0xFF],
    (asking (BitVec.ofNat 32 op) 0).inputs = .request (BitVec.ofNat 32 op) 0 :: [] ∧
      ((BitVec.ofNat 32 op).toNat % 256 = 0x00 ∨
        (0x08 ≤ (BitVec.ofNat 32 op).toNat % 256 ∧ (BitVec.ofNat 32 op).toNat % 256 ≤ 0x0F) ∨
        (0x15 ≤ (BitVec.ofNat 32 op).toNat % 256 ∧ (BitVec.ofNat 32 op).toNat % 256 ≤ 0x1F) ∨
        0x25 ≤ (BitVec.ofNat 32 op).toNat % 256) := by decide

/-- The lowest bit of each format's `zero` field, for one opcode of each clause. -/
theorem witness_NonzeroZeroFieldIsIllegal :
    (asking 0x00040001 0).inputs = .request 0x00040001 0 :: [] ∧
    ((0x00040001#32).toNat % 256 = 0x01 ∧ (0x00040001#32).toNat / 2 ^ 18 ≠ 0) ∧
    ((0x00010003#32).toNat % 256 = 0x03 ∧ (0x00010003#32).toNat / 2 ^ 16 ≠ 0) ∧
    ((0x00000207#32).toNat % 256 = 0x07 ∧ (0x00000207#32).toNat / 2 ^ 9 ≠ 0) ∧
    ((0x00000102#32).toNat % 256 = 0x02 ∧ (0x00000102#32).toNat / 2 ^ 8 ≠ 0) := by decide

theorem witness_StepRunsDecodedCommand :
    (asking 0x00000010 5).inputs = .request 0x00000010 5 :: [] ∧ decode 0x00000010 5 = .ok (.bitwidth 5) := by decide

theorem witness_ResetInputResets :
    ({ sourcePacked with inputs := [.reset] } : State).inputs = .reset :: [] := by decide +kernel

theorem witness_CommandsRightAfterReset :
    (∃ len, Instr.compress 0 = .compress len) ∧ (∃ k len, Instr.compressk 1 0 = .compressk k len) ∧
      (∃ idx, Instr.rdovf 0 = .rdovf idx) := ⟨⟨0, rfl⟩, ⟨1, 0, rfl⟩, ⟨0, rfl⟩⟩

theorem witness_BitWidthForLaws : (0 ≤ 1) ∧ (1 ≤ 1) ∧ (2 ≤ 2) := by decide

/-- The two ends of each range that `TcencResult` and `TcdecResult` speak of: widths 0, 1, 32 and 33. -/
theorem witness_TcencResult :
    answerOf (.tcenc 0 0) State.reset = some ⟨.invalidBitWidth, 0⟩ ∧
    answerOf (.tcenc 33 0) State.reset = some ⟨.invalidBitWidth, 0⟩ ∧
    answerOf (.tcenc 1 1) State.reset = some ⟨.valueOutOfRange, 0⟩ ∧
    answerOf (.tcenc 1 0) State.reset = some ⟨.ok, 0⟩ ∧
    answerOf (.tcenc 32 0x80000000) State.reset = some ⟨.ok, 0x80000000⟩ := by decide +kernel

theorem witness_TcdecResult :
    answerOf (.tcdec 0 0) State.reset = some ⟨.invalidBitWidth, 0⟩ ∧
    answerOf (.tcdec 33 0) State.reset = some ⟨.invalidBitWidth, 0⟩ ∧
    answerOf (.tcdec 1 2) State.reset = some ⟨.valueOutOfRange, 0⟩ ∧
    answerOf (.tcdec 1 1) State.reset = some ⟨.ok, 0xFFFFFFFF⟩ ∧
    answerOf (.tcdec 32 0x80000000) State.reset = some ⟨.ok, 0x80000000⟩ := by decide +kernel

theorem witness_TwosComplementRoundTrip :
    (1 ≤ 1 ∧ 1 ≤ 32 ∧ FitsTwos (0xFFFFFFFF#32).toInt 1) ∧ (32 ≤ 32 ∧ FitsTwos (0x80000000#32).toInt 32) := by
  unfold FitsTwos; decide

theorem witness_StreamWordCounts : 1 ≤ 1 ∧ 32 ≤ 32 ∧ 8 ∣ 32 ∧ 32 ∣ 32 := by decide

theorem witness_EntriesLieInsideStream :
    1 ≤ 3 ∧ 3 ≤ 32 ∧ 10 < 11 ∧ bitAddr .x 3 10 + 3 ≤ 32 * streamWords .x 11 3 ∧
      bitAddr .nc 3 10 + 3 ≤ 32 * streamWords .nc 11 3 := by decide

theorem witness_ExtractReadsEntryBits : 1 ≤ 1 ∧ 1 ≤ 32 ∧ 32 ≤ 32 := by decide

theorem witness_CrossPackerRoundTrip :
    (∀ v ∈ [0x10000, 0x1ABCD, 1], v ≤ 2 ^ 17 - 1) ∧
    (∀ w, w < streamWords .x [0x10000, 0x1ABCD, 1].length 17 →
      (packWords .x [0x10000, 0x1ABCD, 1] 17)[w]? =
        some ((fun w => ([0x579B0000, 7] : List Word).getD w 0) w)) ∧
    [0x10000, 0x1ABCD, 1][1]? = some 0x1ABCD := by decide +kernel

theorem witness_NocrossPackerRoundTrip :
    (∀ v ∈ [0x10000, 0x1ABCD, 1], v ≤ 2 ^ 17 - 1) ∧
    (∀ w, w < streamWords .nc [0x10000, 0x1ABCD, 1].length 17 →
      (packWords .nc [0x10000, 0x1ABCD, 1] 17)[w]? =
        some ((fun w => ([0x10000, 0x1ABCD, 1] : List Word).getD w 0) w)) ∧
    [0x10000, 0x1ABCD, 1][2]? = some 1 := by decide +kernel

/-- Bit 17 of word 0, beside the one slot, and bit 3 of word 1, after the last entry. -/
theorem witness_PaddingBitsAreZero :
    ((packWords .nc [0x10000, 1] 17)[0]? = some 0x00010000 ∧
      ∀ j, j < 2 → ¬ (bitAddr .nc 17 j ≤ 32 * 0 + 17 ∧ 32 * 0 + 17 < bitAddr .nc 17 j + 17)) ∧
    ((packWords .x [0x10000, 0x1ABCD] 17)[1]? = some 3 ∧
      ∀ j, j < 2 → ¬ (bitAddr .x 17 j ≤ 32 * 1 + 3 ∧ 32 * 1 + 3 < bitAddr .x 17 j + 17)) := by decide +kernel

theorem witness_CreateResult : (0 = 0 ∧ Kind.cross = .cross) ∧ (3 = 3 ∧ Kind.overflowNocross = .overflowNocross) := by
  decide

theorem witness_UnknownKindIsRejected : 4 ≤ 4 ∧ 4 ≤ 255 := by decide

theorem witness_PackerCommandsNeedPacker :
    State.reset.hasPacker = false ∧ (∃ st j, Instr.addr .main 0 = .addr st j) := ⟨by decide, .main, 0, rfl⟩

/-- The empty array, the two's-complement one, and a length of `NMAX`. -/
theorem witness_CompressBaseResult :
    (loaded .nocross true false twosArray).hasPacker = true ∧
      isOverflow (loaded .nocross true false twosArray).hdr.cfg.kind = false ∧
      (0#32).toNat ≤ (loaded .nocross true false twosArray).hdr.nmax.toNat ∧
      (16#32).toNat ≤ (loaded .nocross true false twosArray).hdr.nmax.toNat := by decide +kernel

theorem witness_CompressOverflowResult :
    (loaded .overflowNocross true false mixedArray).hasPacker = true ∧
      isOverflow (loaded .overflowNocross true false mixedArray).hdr.cfg.kind = true ∧
      (0#32).toNat ≤ (loaded .overflowNocross true false mixedArray).hdr.nmax.toNat ∧
      (16#32).toNat ≤ (loaded .overflowNocross true false mixedArray).hdr.nmax.toNat ∧
      (loaded .overflowNocross true false mixedArray).hdr.nmax.toNat ≤ 2 ^ 24 := by decide +kernel

/-- `K_TC = 4` for `[-5, 3, 0, -1]` (section 2.3). -/
theorem twosArray_width : TwosWidthOf (loaded .cross true false twosArray) 4 4 := by
  have mode : (loaded .cross true false twosArray).mode = .twos := by decide
  have first : ((loaded .cross true false twosArray).word .input 0).toInt = -5 := by decide +kernel
  unfold TwosWidthOf
  rw [if_pos mode]
  refine ⟨by decide, by decide, ?_, fun j hj h => ?_⟩
  · unfold FitsTwos; decide +kernel
  · have h0 := h 0 (by decide)
    rw [first] at h0
    by_contra hlt
    have : j ≤ 3 := by omega
    unfold FitsTwos at h0
    interval_cases j <;> revert h0 <;> decide

/-- The unsigned `[5, 9, 6]` needs four bits (section 2.7). -/
theorem unsigned_width :
    TwosWidthOf (loaded .cross false false [5, 9, 6]) 3 0 ∧
    LeastWidth 3 (fun i => codeOf (loaded .cross false false [5, 9, 6]).mode 0
      ((loaded .cross false false [5, 9, 6]).word .input i)) 4 := by
  have mode : (loaded .cross false false [5, 9, 6]).mode = .none := by decide
  have nine : codeOf (loaded .cross false false [5, 9, 6]).mode 0
      ((loaded .cross false false [5, 9, 6]).word .input 1) = 9 := by decide +kernel
  refine ⟨by unfold TwosWidthOf; rw [mode]; rfl, by decide, by decide +kernel, fun j hj h => ?_⟩
  have h1 := h 1 (by decide)
  simp only [nine] at h1
  by_contra hlt
  have : j ≤ 3 := by omega
  interval_cases j <;> revert h1 <;> decide

theorem witness_CompresskResult :
    TwosWidthOf (loaded .cross true false twosArray) (4#32).toNat 4 ∧
    ∀ k ∈ [4, 32], 1 ≤ k ∧ k ≤ 32 ∧ ∀ i, i < (4#32).toNat →
      codeOf (loaded .cross true false twosArray).mode 4 ((loaded .cross true false twosArray).word .input i) ≤
        2 ^ k - 1 := ⟨twosArray_width, by decide +kernel⟩

/-- Length 17 of 16, `COMPRESSK` on an overflow kind, widths 0 and 33, and `9` in three bits. -/
theorem witness_CompressErrors :
    (loaded .cross false false [5, 9, 6]).hdr.nmax.toNat < (17#32).toNat ∧
    isOverflow (loaded .overflowCross false false [5, 9, 6]).hdr.cfg.kind = true ∧
    ((0 = 0 ∨ 32 < 0) ∧ (33 = 0 ∨ 32 < 33)) ∧
    TwosWidthOf (loaded .cross false false [5, 9, 6]) (3#32).toNat 0 ∧
    (∃ i, i < (3#32).toNat ∧ 2 ^ 3 - 1 < codeOf (loaded .cross false false [5, 9, 6]).mode 0
      ((loaded .cross false false [5, 9, 6]).word .input i)) :=
  ⟨by decide, by decide, by decide, unsigned_width.1, 1, by decide +kernel⟩

theorem witness_CompresskAtLeastWidthIsCompress :
    isOverflow (loaded .cross false false [5, 9, 6]).hdr.cfg.kind = false ∧
    TwosWidthOf (loaded .cross false false [5, 9, 6]) (3#32).toNat 0 ∧
    LeastWidth (3#32).toNat (fun i => codeOf (loaded .cross false false [5, 9, 6]).mode 0
      ((loaded .cross false false [5, 9, 6]).word .input i)) 4 := ⟨by decide, unsigned_width⟩

theorem witness_ZeroLengthArray : sourcePacked.hasPacker = true ∧ twosPacked.hasPacker = true := by decide +kernel

/-! The source's example as `COMPRESS` leaves it, and a two's-complement one, meet the invariants. -/

theorem codes_fit_of_check {s : State}
    (h : ∀ i, i < s.hdr.n.toNat →
      (match getCode s i with
        | .ok c => decide (c < 2 ^ s.hdr.kTc.toNat)
        | .error _ => true) = true) :
    ∀ i c, i < s.hdr.n.toNat → getCode s i = .ok c → c < 2 ^ s.hdr.kTc.toNat := by
  intro i c hi hc
  have := h i hi
  rw [hc] at this
  simpa using this

theorem sourcePacked_inv : Inv sourcePacked where
  header :=
    { nmax_pos := by decide +kernel
      nmax_le := by decide +kernel
      no_packer := by decide +kernel
      n_le := by decide +kernel
      m_le := by decide +kernel
      mainWords_le := by decide +kernel
      ovfWords_le := by decide +kernel
      outLen_le := by decide +kernel
      shape := fun _ => .inr (by unfold Header.PackedShape Header.OverflowShape Header.BaseShape; decide +kernel)
      kTc_twos := fun _ h => absurd h (by decide +kernel)
      kTc_other := by decide +kernel }
  memory :=
    { canonical := by decide +kernel
      input_within := by unfold WithinSpace; decide +kernel
      main_within := by unfold WithinSpace; decide +kernel
      ovf_within := by unfold WithinSpace; decide +kernel
      out_within := by unfold WithinSpace; decide +kernel
      main_written := by unfold WrittenUpTo; decide +kernel
      ovf_written := by unfold WrittenUpTo; decide +kernel
      out_written := by unfold WrittenUpTo; decide +kernel }
  overflow := fun _ =>
    { payloads := by decide +kernel
      inline_le := by decide +kernel
      table_gt := by decide +kernel }
  codes_fit := fun h => absurd h (by decide +kernel)

theorem mixedPacked_inv : Inv mixedPacked where
  header :=
    { nmax_pos := by decide +kernel
      nmax_le := by decide +kernel
      no_packer := by decide +kernel
      n_le := by decide +kernel
      m_le := by decide +kernel
      mainWords_le := by decide +kernel
      ovfWords_le := by decide +kernel
      outLen_le := by decide +kernel
      shape := fun _ => .inr (by unfold Header.PackedShape Header.OverflowShape Header.BaseShape; decide +kernel)
      kTc_twos := fun _ _ => .inr (by decide +kernel)
      kTc_other := fun h => absurd (by decide +kernel) h }
  memory :=
    { canonical := by decide +kernel
      input_within := by unfold WithinSpace; decide +kernel
      main_within := by unfold WithinSpace; decide +kernel
      ovf_within := by unfold WithinSpace; decide +kernel
      out_within := by unfold WithinSpace; decide +kernel
      main_written := by unfold WrittenUpTo; decide +kernel
      ovf_written := by unfold WrittenUpTo; decide +kernel
      out_written := by unfold WrittenUpTo; decide +kernel }
  overflow := fun _ =>
    { payloads := by decide +kernel
      inline_le := by decide +kernel
      table_gt := by decide +kernel }
  codes_fit := fun _ => codes_fit_of_check (by decide +kernel)

theorem twosPacked_header : HeaderInv twosPacked.hdr where
  nmax_pos := by decide +kernel
  nmax_le := by decide +kernel
  no_packer := by decide +kernel
  n_le := by decide +kernel
  m_le := by decide +kernel
  mainWords_le := by decide +kernel
  ovfWords_le := by decide +kernel
  outLen_le := by decide +kernel
  shape := fun _ => .inr (by unfold Header.PackedShape Header.OverflowShape Header.BaseShape; decide +kernel)
  kTc_twos := fun _ _ => .inr (by decide +kernel)
  kTc_other := fun h => absurd (by decide +kernel) h

theorem witness_GetBaseResult :
    HeaderInv twosPacked.hdr ∧ twosPacked.hasPacker = true ∧ isOverflow twosPacked.hdr.cfg.kind = false ∧
      (0#32).toNat < twosPacked.hdr.n.toNat ∧ (3#32).toNat < twosPacked.hdr.n.toNat :=
  ⟨twosPacked_header, by decide +kernel⟩

/-- Element 1 is stored inline, element 2 in the table. -/
theorem witness_GetOverflowResult :
    Inv mixedPacked ∧ mixedPacked.hasPacker = true ∧ isOverflow mixedPacked.hdr.cfg.kind = true ∧
      (2#32).toNat < mixedPacked.hdr.n.toNat ∧ mixedPacked.record 1 % 2 = 0 ∧ mixedPacked.record 2 % 2 = 1 :=
  ⟨mixedPacked_inv, by decide +kernel⟩

/-- The first index out of range of each stream, and `ADDR 1` on a base kind. -/
theorem witness_IndexOutOfRangeIsAnswered :
    sourcePacked.hasPacker = true ∧ sourcePacked.hdr.n.toNat ≤ (7#32).toNat ∧
    (isOverflow sourcePacked.hdr.cfg.kind = true ∧ sourcePacked.hdr.m.toNat ≤ (2#32).toNat) ∧
    (twosPacked.hasPacker = true ∧ isOverflow twosPacked.hdr.cfg.kind = false) := by decide +kernel

theorem witness_DecompressResult : Inv sourcePacked ∧ sourcePacked.hasPacker = true :=
  ⟨sourcePacked_inv, by decide +kernel⟩

theorem witness_SizeMismatchIsAnswered :
    sourcePacked.hasPacker = true ∧ (6#32) ≠ sourcePacked.hdr.n ∧ (8#32) ≠ sourcePacked.hdr.n := by decide +kernel

theorem witness_SizeResult : sourcePacked.hasPacker = true := by decide +kernel

/-- The last index of each stream. -/
theorem witness_AddrResult :
    HeaderInv sourcePacked.hdr ∧ sourcePacked.hasPacker = true ∧ (6#32).toNat < sourcePacked.hdr.n.toNat ∧
      isOverflow sourcePacked.hdr.cfg.kind = true ∧ (1#32).toNat < sourcePacked.hdr.m.toNat :=
  ⟨sourcePacked_inv.header, by decide +kernel⟩

theorem witness_WrinResult : 15 < State.reset.hdr.nmax.toNat ∧ State.reset.hdr.nmax.toNat ≤ 16 := by decide

theorem witness_ReadWordResult :
    HeaderInv sourcePacked.hdr ∧ (0 < sourcePacked.hdr.mainWords.toNat ∧ ¬ 1 < sourcePacked.hdr.mainWords.toNat) ∧
      (0 < sourcePacked.hdr.ovfWords.toNat ∧ ¬ 1 < sourcePacked.hdr.ovfWords.toNat) ∧
      ¬ 0 < sourcePacked.hdr.outLen.toNat ∧ 6 < (after (.decompress 7) sourcePacked).hdr.outLen.toNat :=
  ⟨sourcePacked_inv.header, by decide +kernel⟩

theorem witness_EveryCommandAnswersOnce :
    exec (.decompress 7) sourcePacked = .next (after (.decompress 7) sourcePacked) := exec_after (by decide +kernel)

theorem witness_FailedCommandChangesNothing :
    exec (.decompress 6) sourcePacked = .next (after (.decompress 6) sourcePacked) ∧
      (after (.decompress 6) sourcePacked).responses = sourcePacked.responses ++ [⟨.sizeMismatch, 0⟩] ∧
      (Response.mk Err.sizeMismatch 0).err ≠ .ok := ⟨exec_after (by decide +kernel), by decide +kernel⟩

/-- Each error that `ErrorsByCommand` names, answered. -/
theorem witness_ErrorsByCommand :
    answerOf (.create 4 false false) sourcePacked = some ⟨.unknownKind, 0⟩ ∧
    answerOf (.compressk 33 4) twosPacked = some ⟨.invalidBitWidth, 0⟩ ∧
    answerOf (.tcenc 4 8) sourcePacked = some ⟨.valueOutOfRange, 0⟩ ∧
    answerOf (.addr .overflow 2) sourcePacked = some ⟨.indexOutOfRange, 0⟩ ∧
    answerOf (.decompress 6) sourcePacked = some ⟨.sizeMismatch, 0⟩ := by decide +kernel

theorem witness_ReadersChangeNothing :
    isReader (.get 3) = true ∧ exec (.get 3) sourcePacked = .next (after (.get 3) sourcePacked) :=
  ⟨rfl, exec_after (by decide +kernel)⟩

theorem witness_ResponsesAreNeverRead :
    exec (.compress 7) sourcePacked = .next (after (.compress 7) sourcePacked) := exec_after (by decide +kernel)

/-- One command for each memory, and a change in it. -/
theorem witness_WhoWritesWhichMemory :
    ((after (.wrin 0 9) sourcePacked).mem.input ≠ sourcePacked.mem.input) ∧
    ((after (.compress 2) sourcePacked).mem.main ≠ sourcePacked.mem.main) ∧
    ((after (.compress 4) sourcePacked).mem.ovf ≠ sourcePacked.mem.ovf) ∧
    ((after (.decompress 7) sourcePacked).mem.out ≠ sourcePacked.mem.out) := by decide +kernel

theorem witness_WhoWritesWhichRegister :
    ((after (.decompress 7) sourcePacked).hdr.outLen ≠ sourcePacked.hdr.outLen) ∧
    ((after (.create 0 false false) sourcePacked).hdr.cfg ≠ sourcePacked.hdr.cfg) ∧
    ((after (.compress 2) sourcePacked).hdr.n ≠ sourcePacked.hdr.n) := by decide +kernel

theorem witness_GetSurvivesOtherCommands :
    replacesArray (.wrin 3 7) = false ∧ exec (.wrin 3 7) sourcePacked = .next (after (.wrin 3 7) sourcePacked) ∧
      exec (.get 3) sourcePacked =
        .next { sourcePacked with responses := sourcePacked.responses ++ [⟨.ok, 1024⟩] } := by
  refine ⟨rfl, exec_after (by decide +kernel), (exec_after (by decide +kernel)).trans ?_⟩
  exact congrArg Host.Outcome.next (by decide +kernel)

/-- Two states that differ in an input word beyond the length and in what `OUT` holds. -/
theorem witness_CompressDependsOnInputOnly :
    sourcePacked.hdr.cfg = (after (.wrin 9 1) (after (.decompress 7) sourcePacked)).hdr.cfg ∧
    sourcePacked.hdr.nmax = (after (.wrin 9 1) (after (.decompress 7) sourcePacked)).hdr.nmax ∧
    (∀ i, i < (5#32).toNat →
      sourcePacked.word .input i = (after (.wrin 9 1) (after (.decompress 7) sourcePacked)).word .input i) ∧
    exec (.compress 5) sourcePacked = .next (after (.compress 5) sourcePacked) ∧
    exec (.compress 5) (after (.wrin 9 1) (after (.decompress 7) sourcePacked)) =
      .next (after (.compress 5) (after (.wrin 9 1) (after (.decompress 7) sourcePacked))) ∧
    (after (.compress 5) sourcePacked).responses = sourcePacked.responses ++ [⟨.ok, 0⟩] :=
  ⟨by decide +kernel, by decide +kernel, by decide +kernel, exec_after (by decide +kernel),
    exec_after (by decide +kernel), by decide +kernel⟩

/-- The source's example with its four tail bits of `MAIN` and its eight of `OVF` set. -/
def tailsSet : State :=
  { sourcePacked with mem := { sourcePacked.mem with main := [(0, 0xF3A81642)], ovf := [(0, 0xFF800400)] } }

theorem witness_PaddingIsNeverRead :
    Inv sourcePacked ∧ sourcePacked.hasPacker = true ∧ tailsSet.hdr = sourcePacked.hdr ∧
    tailsSet.mem ≠ sourcePacked.mem ∧
    (∀ j, j < sourcePacked.hdr.n.toNat → ∀ b, b < mainEntryWidth sourcePacked.hdr →
      streamBit tailsSet .main (bitAddr sourcePacked.layout (mainEntryWidth sourcePacked.hdr) j + b) =
        streamBit sourcePacked .main (bitAddr sourcePacked.layout (mainEntryWidth sourcePacked.hdr) j + b)) ∧
    (∀ j, j < sourcePacked.hdr.m.toNat → ∀ b, b < sourcePacked.hdr.kOver.toNat →
      streamBit tailsSet .ovf (bitAddr sourcePacked.layout sourcePacked.hdr.kOver.toNat j + b) =
        streamBit sourcePacked .ovf (bitAddr sourcePacked.layout sourcePacked.hdr.kOver.toNat j + b)) ∧
    exec (.get 3) sourcePacked =
      .next { sourcePacked with responses := sourcePacked.responses ++ [⟨.ok, 1024⟩] } :=
  ⟨sourcePacked_inv, by decide +kernel, by decide +kernel, by decide +kernel, by decide +kernel, by decide +kernel,
    witness_GetSurvivesOtherCommands.2.2⟩

theorem witness_ResetMeetsInvariants :
    (1 ≤ (1#32).toNat ∧ (1#32).toNat ≤ 2 ^ 24) ∧ (1 ≤ (0x1000000#32).toNat ∧ (0x1000000#32).toNat ≤ 2 ^ 24) := by decide

/-- The source's example with a `WRIN` pending. -/
def sourceAsked : State := { sourcePacked with inputs := [.request 0x00000320 7] }

theorem sourceAsked_inv : Inv sourceAsked where
  header := sourcePacked_inv.header
  memory :=
    { canonical := sourcePacked_inv.memory.canonical
      input_within := sourcePacked_inv.memory.input_within
      main_within := sourcePacked_inv.memory.main_within
      ovf_within := sourcePacked_inv.memory.ovf_within
      out_within := sourcePacked_inv.memory.out_within
      main_written := sourcePacked_inv.memory.main_written
      ovf_written := sourcePacked_inv.memory.ovf_written
      out_written := sourcePacked_inv.memory.out_written }
  overflow := fun _ =>
    { payloads := by decide +kernel
      inline_le := by decide +kernel
      table_gt := by decide +kernel }
  codes_fit := fun h => absurd h (by decide +kernel)

theorem sourceAsked_step : step sourceAsked = .next (stepAfter sourceAsked) := step_after (by decide +kernel)

theorem witness_StepKeepsHeaderInvariants :
    HeaderInv sourceAsked.hdr ∧ step sourceAsked = .next (stepAfter sourceAsked) :=
  ⟨sourceAsked_inv.header, sourceAsked_step⟩

theorem witness_StepKeepsMemoryCanonical :
    sourceAsked.mem.wf ∧ step sourceAsked = .next (stepAfter sourceAsked) :=
  ⟨sourceAsked_inv.memory.canonical, sourceAsked_step⟩

theorem witness_StepKeepsInvariants :
    Inv sourceAsked ∧ step sourceAsked = .next (stepAfter sourceAsked) :=
  ⟨sourceAsked_inv, sourceAsked_step⟩

theorem witness_EveryRequestIsAnswered :
    Inv sourceAsked ∧ sourceAsked.inputs = .request 0x00000320 7 :: [] := ⟨sourceAsked_inv, by decide +kernel⟩

theorem witness_CompressThenGet :
    (loaded .overflowCross true false mixedArray).hdr.nmax.toNat ≤ 2 ^ 24 ∧
    exec (.compress (BitVec.ofNat 32 mixedArray.length)) (loaded .overflowCross true false mixedArray) =
      .next mixedPacked ∧
    mixedPacked.responses = (loaded .overflowCross true false mixedArray).responses ++ [⟨.ok, 0⟩] ∧
    (7#32).toNat < (BitVec.ofNat 32 mixedArray.length).toNat :=
  ⟨by decide, exec_packed (by decide +kernel), by decide +kernel, by decide⟩

theorem witness_CompressThenDecompress :
    (loaded .overflowCross false false sourceArray).hdr.nmax.toNat ≤ 2 ^ 24 ∧
    exec (.compress (BitVec.ofNat 32 sourceArray.length)) (loaded .overflowCross false false sourceArray) =
      .next sourcePacked ∧
    sourcePacked.responses = (loaded .overflowCross false false sourceArray).responses ++ [⟨.ok, 0⟩] :=
  ⟨by decide, exec_packed (by decide +kernel), by decide +kernel⟩

end Sys2Proof.Tests
end

section
/-! SUPPORT. Numbers that the registers hold: the bit length, the maximum of a list, the word counts of a stream, the
two's-complement width of an array, and the candidate that the overflow selector picks. -/

namespace Sys2Proof.Machine

/-! ### Bit lengths and maxima (R7, R80, R83) -/

theorem bitlen_le_iff {v k : Nat} : bitlen v ≤ k ↔ v < 2 ^ k := by
  unfold bitlen
  split
  · next h => simp [h]
  · next h => exact Nat.succ_le_iff.trans (Nat.log2_lt h)

theorem bitWidthFor_le_iff {v k : Nat} (hk : 1 ≤ k) : bitWidthFor v ≤ k ↔ v < 2 ^ k := by
  rw [← bitlen_le_iff, bitWidthFor, Nat.max_le]
  exact and_iff_right hk

theorem one_le_bitWidthFor (v : Nat) : 1 ≤ bitWidthFor v := Nat.le_max_left _ _

theorem lt_two_pow_bitWidthFor (v : Nat) : v < 2 ^ bitWidthFor v :=
  (bitWidthFor_le_iff (one_le_bitWidthFor v)).1 le_rfl

theorem maxOf_le_iff {vs : List Nat} {b : Nat} : maxOf vs ≤ b ↔ ∀ v ∈ vs, v ≤ b := by
  induction vs with
  | nil => simp [maxOf]
  | cons v vs ih => simp only [maxOf, List.foldr_cons, Nat.max_le, List.forall_mem_cons] at ih ⊢; rw [ih]

theorem le_maxOf {vs : List Nat} {v : Nat} (h : v ∈ vs) : v ≤ maxOf vs := maxOf_le_iff.1 le_rfl v h

/-- The width computed for the maximum of a list (R83) fits every number of the list. -/
theorem le_mask_bitWidthFor_maxOf {vs : List Nat} {v : Nat} (h : v ∈ vs) : v ≤ mask (bitWidthFor (maxOf vs)) :=
  Nat.le_sub_one_of_lt ((le_maxOf h).trans_lt (lt_two_pow_bitWidthFor _))

/-! ### Word counts (R111, R132) -/

/-- A stream of entries of at most one word takes at most one word for each entry. -/
theorem streamWords_le (l : Layout) (cnt : Nat) {k : Nat} (hk : 1 ≤ k) (hk' : k ≤ 32) : streamWords l cnt k ≤ cnt := by
  cases l with
  | x => exact (ceilDiv_le_iff (by norm_num)).2 (Nat.mul_le_mul_left cnt hk')
  | nc =>
    have hslot := slotsPerWord_pos hk hk'
    exact (ceilDiv_le_iff hslot).2 (Nat.le_mul_of_pos_right cnt hslot)

/-! ### The two's-complement width of an array (R101) -/

theorem tcMagnitude_s32_lt (w : Word) : tcMagnitude (s32 w) < 2 ^ 31 := by
  have hw := w.isLt
  unfold tcMagnitude s32
  split <;> split <;> omega

theorem tcWidthFor_bounds (ws : List Word) : 1 ≤ tcWidthFor (ws.map s32) ∧ tcWidthFor (ws.map s32) ≤ 32 := by
  have hmax : maxOf ((ws.map s32).map fun x => bitlen (tcMagnitude x)) ≤ 31 := by
    simp only [maxOf_le_iff, List.map_map, List.forall_mem_map, Function.comp_apply]
    exact fun w _ => bitlen_le_iff.2 (tcMagnitude_s32_lt w)
  unfold tcWidthFor
  omega

theorem kTcFor_twos_bounds (ws : List Word) : 1 ≤ kTcFor .twos ws ∧ kTcFor .twos ws ≤ 32 := tcWidthFor_bounds ws

theorem kTcFor_eq_zero {mode : Mode} (h : mode ≠ .twos) (ws : List Word) : kTcFor mode ws = 0 := by
  cases mode with
  | none => rfl
  | zigzag => rfl
  | twos => exact absurd rfl h

theorem kTcFor_le (mode : Mode) (ws : List Word) : kTcFor mode ws ≤ 32 := by
  by_cases h : mode = .twos
  · exact h ▸ (kTcFor_twos_bounds ws).2
  · simp [kTcFor_eq_zero h]

/-- In mode `TWOS` every code has at most `K_TC` bits (R102). -/
theorem encodeArray_twos_lt {ws : List Word} {c : Nat} (h : c ∈ encodeArray .twos ws) : c < 2 ^ kTcFor .twos ws := by
  obtain ⟨w, -, rfl⟩ := List.mem_map.1 h
  have hpos : (0 : Int) < 2 ^ kTcFor .twos ws := by positivity
  have hlt := Int.emod_lt_of_pos (s32 w) hpos
  show (s32 w % 2 ^ kTcFor .twos ws).toNat < 2 ^ kTcFor .twos ws
  rw [Int.toNat_lt (Int.emod_nonneg _ hpos.ne')]
  exact_mod_cast hlt

/-! ### The candidate that the selector picks (R146 to R150) -/

/-- The selector picks one of the candidates, whose inline widths are 1 to 31 (R146). -/
theorem selectKSmall_eq_candidate (codes : List Nat) :
    ∃ ks, (1 ≤ ks ∧ ks ≤ 31) ∧ selectKSmall codes = candidate codes ks := by
  refine List.foldlRecOn (motive := fun c => ∃ ks, (1 ≤ ks ∧ ks ≤ 31) ∧ c = candidate codes ks) _ _
    ⟨1, by decide, rfl⟩ fun best hbest ks hks => ?_
  split
  · have hlast : lastCandidate codes ≤ 31 := Nat.min_le_right _ _
    have := List.mem_range'_1.1 hks
    exact ⟨ks, by omega, rfl⟩
  · exact hbest

theorem selectKSmall_kSmall_bounds (codes : List Nat) :
    1 ≤ (selectKSmall codes).kSmall ∧ (selectKSmall codes).kSmall ≤ 31 := by
  obtain ⟨ks, hks, heq⟩ := selectKSmall_eq_candidate codes
  rw [heq]
  exact hks

theorem selectKSmall_m (codes : List Nat) :
    (selectKSmall codes).m = (overflowCodes codes (selectKSmall codes).kSmall).length := by
  obtain ⟨ks, -, heq⟩ := selectKSmall_eq_candidate codes
  rw [heq]
  rfl

theorem selectKSmall_bMain (codes : List Nat) :
    (selectKSmall codes).bMain = bMainFor (selectKSmall codes).kSmall (selectKSmall codes).m := by
  obtain ⟨ks, -, heq⟩ := selectKSmall_eq_candidate codes
  rw [heq]
  rfl

theorem selectKSmall_kOver (codes : List Nat) :
    (selectKSmall codes).kOver = kOverFor (overflowCodes codes (selectKSmall codes).kSmall) := by
  obtain ⟨ks, -, heq⟩ := selectKSmall_eq_candidate codes
  rw [heq]
  rfl

theorem selectKSmall_m_le (codes : List Nat) : (selectKSmall codes).m ≤ codes.length := by
  rw [selectKSmall_m]
  exact List.length_filter_le _ _

/-- An overflow code is a code above the threshold (R147). -/
theorem mem_overflowCodes {codes : List Nat} {ks c : Nat} :
    c ∈ overflowCodes codes ks ↔ c ∈ codes ∧ threshold ks < c := by
  simp [overflowCodes]

theorem kOverFor_nil : kOverFor [] = 0 := rfl

theorem kOverFor_eq_bitWidthFor {ovs : List Nat} (h : ovs ≠ []) : kOverFor ovs = bitWidthFor (maxOf ovs) :=
  if_neg (by simpa using h)

/-- Every overflow code fits the width of the overflow table (R148). -/
theorem le_mask_kOverFor {ovs : List Nat} {c : Nat} (h : c ∈ ovs) : c ≤ 2 ^ kOverFor ovs - 1 := by
  rw [kOverFor_eq_bitWidthFor (List.ne_nil_of_mem h)]
  exact le_mask_bitWidthFor_maxOf h

/-- An overflow code is at least 2, so a table that is not empty is at least 2 bits wide (R20). -/
theorem two_le_kOverFor {codes : List Nat} {ks : Nat} (hks : 1 ≤ ks) (h : overflowCodes codes ks ≠ []) :
    2 ≤ kOverFor (overflowCodes codes ks) := by
  obtain ⟨c, hc⟩ := List.exists_mem_of_ne_nil _ h
  have hthreshold : 2 ^ 1 ≤ 2 ^ ks := Nat.pow_le_pow_right (by norm_num) hks
  have hgt : 2 ^ ks - 1 < c := (mem_overflowCodes.1 hc).2
  have hle := le_mask_kOverFor hc
  by_contra! hlt
  have hnarrow : 2 ^ kOverFor (overflowCodes codes ks) ≤ 2 ^ 1 :=
    Nat.pow_le_pow_right (by norm_num) (Nat.le_of_lt_succ hlt)
  omega

end Sys2Proof.Machine
end

section
/-! SUPPORT. One step, said once: what it can be, and how a property that every part of a step keeps is kept by the step. -/

namespace Sys2Proof.Machine

/-- The step of a request that decodes is its command's meaning, with the request taken off the channel (R52). -/
theorem step_of_decode_ok {s : State} {cmd arg : Word} {rest : List HostInput} {i : Instr}
    (hin : s.inputs = .request cmd arg :: rest) (hdec : decode cmd arg = .ok i) : step s = exec i (dropInput s) := by
  simp only [step, hin, hdec]

/-- The step of a request that does not decode answers `IllegalCommand` (R65, R66). -/
theorem step_of_decode_error {s : State} {cmd arg : Word} {rest : List HostInput} {e : DecodeError}
    (hin : s.inputs = .request cmd arg :: rest) (hdec : decode cmd arg = .error e) :
    step s = raise .illegalCommand (dropInput s) := by
  simp only [step, hin, hdec]

theorem step_of_reset {s : State} {rest : List HostInput} (hin : s.inputs = .reset :: rest) :
    step s = .next (takeReset (dropInput s)) := by
  simp only [step, hin]

theorem step_of_idle {s : State} (hin : s.inputs = []) : step s = .next s := by
  simp only [step, hin]

/-- The four things a step can be: idle, a reset, a command, a request that is no command. -/
theorem step_next {s t : State} (h : step s = .next t) :
    t = s ∨ t = takeReset (dropInput s) ∨ (∃ i, exec i (dropInput s) = .next t) ∨
      t = (dropInput s).answer .illegalCommand 0 := by
  match hin : s.inputs with
  | [] =>
    rw [step_of_idle hin] at h
    exact .inl (Host.Outcome.next.inj h).symm
  | .reset :: rest =>
    rw [step_of_reset hin] at h
    exact .inr (.inl (Host.Outcome.next.inj h).symm)
  | .request cmd arg :: rest =>
    cases hdec : decode cmd arg with
    | ok i => exact .inr (.inr (.inl ⟨i, step_of_decode_ok hin hdec ▸ h⟩))
    | error e => exact .inr (.inr (.inr (raise_next.1 (step_of_decode_error hin hdec ▸ h))))

/-- What taking an input, taking a reset, answering `IllegalCommand` and every command keep, every step keeps. -/
theorem step_keeps {P : State → Prop} (hdrop : ∀ s, P s → P (dropInput s)) (hreset : ∀ s, P s → P (takeReset s))
    (hillegal : ∀ s, P s → P (s.answer .illegalCommand 0)) (hexec : ∀ i s t, P s → exec i s = .next t → P t)
    {s t : State} (hs : P s) (h : step s = .next t) : P t := by
  rcases step_next h with rfl | rfl | ⟨i, hi⟩ | rfl
  · exact hs
  · exact hreset _ (hdrop _ hs)
  · exact hexec i _ _ (hdrop _ hs) hi
  · exact hillegal _ (hdrop _ hs)

end Sys2Proof.Machine
end

section
/-! The header invariants (R30, as far as they speak of registers alone), kept by every step. -/

namespace Sys2Proof.Machine

/-! ### Registers that a command writes as numbers -/

theorem toNat_ofNat_width {k : Nat} (h : k ≤ 32) : (BitVec.ofNat 6 k).toNat = k := by
  rw [BitVec.toNat_ofNat]
  exact Nat.mod_eq_of_lt (by omega)

theorem toNat_ofNat_le {v : Nat} {w : Word} (h : v ≤ w.toNat) : (BitVec.ofNat 32 v).toNat = v := by
  rw [BitVec.toNat_ofNat]
  exact Nat.mod_eq_of_lt (h.trans_lt w.isLt)

theorem fresh_reset (nmax : Word) : (Header.reset nmax).Fresh := by simp [Header.Fresh]

theorem fresh_clearedHeader (h : Header) (cfg : Cfg) : (clearedHeader h cfg).Fresh := by simp [Header.Fresh]

/-- The registers after a compress on a base kind have the shape of R30 (c). -/
theorem baseHeader_shape (h : Header) (len : Word) {k : Nat} (kTc : Nat) (hk : 1 ≤ k) (hk' : k ≤ 32) :
    (baseHeader h len k kTc).BaseShape := by
  have hwords := toNat_ofNat_le (streamWords_le (layoutOf h.cfg.kind) len.toNat hk hk')
  simp [Header.BaseShape, toNat_ofNat_width hk', hk, hk', hwords, -BitVec.toNat_ofNat]

/-! ### The registers after a compress on an overflow kind -/

/-- What the encoder needs of the candidate it picked: its two widths are legal, the second where it is used. -/
def PackableChoice (codes : List Nat) : Prop :=
  (selectKSmall codes).bMain ≤ 32 ∧ ((selectKSmall codes).m ≠ 0 → (selectKSmall codes).kOver ≤ 32)

/-- Encoding gives a value only for a choice whose widths are legal. -/
theorem packableChoice_of_encode {s s' : State} {codes : List Nat}
    (h : encodeOverflow s s.layout codes = .ok s') : PackableChoice codes := by
  obtain ⟨⟨⟨-, hb⟩, -⟩, hover, -⟩ := encodeOverflow_eq_ok.1 h
  exact ⟨hb, fun hm => (hover hm).1.2⟩

theorem selectKSmall_kOver_eq_zero {codes : List Nat} (hm : (selectKSmall codes).m = 0) :
    (selectKSmall codes).kOver = 0 := by
  rw [selectKSmall_m, List.length_eq_zero_iff] at hm
  rw [selectKSmall_kOver, hm, kOverFor_nil]

theorem two_le_selectKSmall_kOver {codes : List Nat} (hm : (selectKSmall codes).m ≠ 0) :
    2 ≤ (selectKSmall codes).kOver := by
  rw [selectKSmall_m, Ne, List.length_eq_zero_iff] at hm
  rw [selectKSmall_kOver]
  exact two_le_kOverFor (selectKSmall_kSmall_bounds codes).1 hm

theorem PackableChoice.kOver_le {codes : List Nat} (hc : PackableChoice codes) : (selectKSmall codes).kOver ≤ 32 := by
  by_cases hm : (selectKSmall codes).m = 0
  · simp [selectKSmall_kOver_eq_zero hm]
  · exact hc.2 hm

theorem selectKSmall_bMain_pos (codes : List Nat) : 1 ≤ (selectKSmall codes).bMain := by
  rw [selectKSmall_bMain, bMainFor]
  exact Nat.le_add_right _ _

/-- The overflow stream takes at most one word for each overflow code. -/
theorem PackableChoice.ovfWordsFor_le {codes : List Nat} (hc : PackableChoice codes) (l : Layout) :
    ovfWordsFor l (selectKSmall codes).m (selectKSmall codes).kOver ≤ (selectKSmall codes).m := by
  unfold ovfWordsFor
  split
  · exact Nat.zero_le _
  · next hm => exact streamWords_le l _ (one_le_two.trans (two_le_selectKSmall_kOver hm)) hc.kOver_le

section
variable (h : Header) {len : Word} {codes : List Nat} (kTc : Nat)

theorem overflowHeader_kSmall_toNat :
    (overflowHeader h len (selectKSmall codes) kTc).kSmall.toNat = (selectKSmall codes).kSmall :=
  toNat_ofNat_width ((selectKSmall_kSmall_bounds codes).2.trans (by norm_num))

theorem overflowHeader_bMain_toNat (hc : PackableChoice codes) :
    (overflowHeader h len (selectKSmall codes) kTc).bMain.toNat = (selectKSmall codes).bMain :=
  toNat_ofNat_width hc.1

theorem overflowHeader_kOver_toNat (hc : PackableChoice codes) :
    (overflowHeader h len (selectKSmall codes) kTc).kOver.toNat = (selectKSmall codes).kOver :=
  toNat_ofNat_width hc.kOver_le

theorem overflowHeader_mainWords_toNat (hc : PackableChoice codes) :
    (overflowHeader h len (selectKSmall codes) kTc).mainWords.toNat =
      streamWords (layoutOf h.cfg.kind) len.toNat (selectKSmall codes).bMain :=
  toNat_ofNat_le (streamWords_le _ len.toNat (selectKSmall_bMain_pos codes) hc.1)

variable (hlen : codes.length = len.toNat)
include hlen

theorem overflowHeader_m_toNat :
    (overflowHeader h len (selectKSmall codes) kTc).m.toNat = (selectKSmall codes).m :=
  toNat_ofNat_le (hlen ▸ selectKSmall_m_le codes)

theorem overflowHeader_m_eq_zero :
    (overflowHeader h len (selectKSmall codes) kTc).m = 0 ↔ (selectKSmall codes).m = 0 := by
  rw [← overflowHeader_m_toNat h kTc hlen]
  exact BitVec.toNat_eq

theorem overflowHeader_ovfWords_toNat (hc : PackableChoice codes) :
    (overflowHeader h len (selectKSmall codes) kTc).ovfWords.toNat =
      ovfWordsFor (layoutOf h.cfg.kind) (selectKSmall codes).m (selectKSmall codes).kOver :=
  toNat_ofNat_le ((hc.ovfWordsFor_le _).trans (hlen ▸ selectKSmall_m_le codes))

/-- The registers after a compress on an overflow kind have the shape of R30 (d). -/
theorem overflowHeader_shape (hc : PackableChoice codes) :
    (overflowHeader h len (selectKSmall codes) kTc).OverflowShape := by
  have hkOver : (overflowHeader h len (selectKSmall codes) kTc).kOver = 0 ↔ (selectKSmall codes).kOver = 0 := by
    rw [← overflowHeader_kOver_toNat h kTc hc]
    exact BitVec.toNat_eq
  simp only [Header.OverflowShape, overflowHeader_m_eq_zero h kTc hlen, overflowHeader_m_toNat h kTc hlen,
    overflowHeader_mainWords_toNat h kTc hc, overflowHeader_ovfWords_toNat h kTc hlen hc,
    overflowHeader_kSmall_toNat, overflowHeader_bMain_toNat h kTc hc, overflowHeader_kOver_toNat h kTc hc, hkOver, ne_eq]
  obtain ⟨hks, hks'⟩ := selectKSmall_kSmall_bounds codes
  refine ⟨rfl, hks, hks', selectKSmall_bMain codes, hc.1, ⟨fun hk => ?_, selectKSmall_kOver_eq_zero⟩,
    fun hm => ⟨two_le_selectKSmall_kOver hm, hc.2 hm⟩, rfl, rfl⟩
  by_contra hm
  have := two_le_selectKSmall_kOver hm
  omega

end

/-! ### Each way a command leaves the header -/

theorem HeaderInv.reset {nmax : Word} (hpos : 1 ≤ nmax.toNat) (hle : nmax.toNat ≤ 2 ^ 24) :
    HeaderInv (Header.reset nmax) where
  nmax_pos := hpos
  nmax_le := hle
  no_packer _ := rfl
  n_le := Nat.zero_le _
  m_le := Nat.zero_le _
  mainWords_le := Nat.zero_le _
  ovfWords_le := Nat.zero_le _
  outLen_le := Nat.zero_le _
  shape _ := .inl (fresh_reset nmax)
  kTc_twos _ _ := .inl (fresh_reset nmax)
  kTc_other _ := rfl

theorem HeaderInv.create {h : Header} (hinv : HeaderInv h) (kd : Kind) (signed zigzag : Bool) :
    HeaderInv (clearedHeader h ⟨true, kd, signed, zigzag⟩) where
  nmax_pos := hinv.nmax_pos
  nmax_le := hinv.nmax_le
  no_packer hv := nomatch hv
  n_le := Nat.zero_le _
  m_le := Nat.zero_le _
  mainWords_le := Nat.zero_le _
  ovfWords_le := Nat.zero_le _
  outLen_le := hinv.outLen_le
  shape _ := .inl (fresh_clearedHeader _ _)
  kTc_twos _ _ := .inl (fresh_clearedHeader _ _)
  kTc_other _ := rfl

/-- The register `K_TC` that a compress leaves: 1 to 32 in mode `TWOS`. -/
theorem kTcFor_register_twos {mode : Mode} (hm : mode = .twos) (ws : List Word) :
    1 ≤ (BitVec.ofNat 6 (kTcFor mode ws)).toNat ∧ (BitVec.ofNat 6 (kTcFor mode ws)).toNat ≤ 32 := by
  rw [toNat_ofNat_width (kTcFor_le mode ws), hm]
  exact kTcFor_twos_bounds ws

/-- The register `K_TC` that a compress leaves: 0 in the other modes. -/
theorem kTcFor_register_other {mode : Mode} (hm : mode ≠ .twos) (ws : List Word) :
    BitVec.ofNat 6 (kTcFor mode ws) = 0 := by
  rw [kTcFor_eq_zero hm]
  rfl

theorem HeaderInv.compressBase {h : Header} (hinv : HeaderInv h) (hvalid : h.cfg.valid = true)
    (hbase : isOverflow h.cfg.kind = false) {len : Word} (hlen : len.toNat ≤ h.nmax.toNat) {k : Nat} (hk : 1 ≤ k)
    (hk' : k ≤ 32) (ws : List Word) : HeaderInv (baseHeader h len k (kTcFor (modeOf h.cfg) ws)) where
  nmax_pos := hinv.nmax_pos
  nmax_le := hinv.nmax_le
  no_packer hv := absurd (hvalid.symm.trans hv) (by decide)
  n_le := hlen
  m_le := Nat.zero_le _
  mainWords_le := by
    rw [baseHeader_mainWords, baseHeader_n, toNat_ofNat_le (streamWords_le _ _ hk hk')]
    exact streamWords_le _ _ hk hk'
  ovfWords_le := Nat.zero_le _
  outLen_le := hinv.outLen_le
  shape _ := .inr (by
    rw [Header.PackedShape, baseHeader_cfg, hbase]
    exact baseHeader_shape h len _ hk hk')
  kTc_twos _ hm := .inr (kTcFor_register_twos hm ws)
  kTc_other hm := kTcFor_register_other hm ws

theorem HeaderInv.compressOverflow {h : Header} (hinv : HeaderInv h) (hvalid : h.cfg.valid = true)
    (hover : isOverflow h.cfg.kind = true) {len : Word} (hlen : len.toNat ≤ h.nmax.toNat) {codes : List Nat}
    (hcodes : codes.length = len.toNat) (hc : PackableChoice codes) (ws : List Word) :
    HeaderInv (overflowHeader h len (selectKSmall codes) (kTcFor (modeOf h.cfg) ws)) where
  nmax_pos := hinv.nmax_pos
  nmax_le := hinv.nmax_le
  no_packer hv := absurd (hvalid.symm.trans hv) (by decide)
  n_le := hlen
  m_le := by
    rw [overflowHeader_m_toNat h _ hcodes]
    exact hcodes ▸ selectKSmall_m_le codes
  mainWords_le := by
    rw [overflowHeader_mainWords_toNat h _ hc]
    exact streamWords_le _ _ (selectKSmall_bMain_pos codes) hc.1
  ovfWords_le := by
    rw [overflowHeader_ovfWords_toNat h _ hcodes hc, overflowHeader_m_toNat h _ hcodes]
    exact hc.ovfWordsFor_le _
  outLen_le := hinv.outLen_le
  shape _ := .inr (by
    rw [Header.PackedShape, overflowHeader_cfg, hover]
    exact overflowHeader_shape h _ hcodes hc)
  kTc_twos _ hm := .inr (kTcFor_register_twos hm ws)
  kTc_other hm := kTcFor_register_other hm ws

theorem HeaderInv.decompress {h : Header} (hinv : HeaderInv h) (hvalid : h.cfg.valid = true) :
    HeaderInv { h with outLen := h.n } where
  nmax_pos := hinv.nmax_pos
  nmax_le := hinv.nmax_le
  no_packer hv := absurd (hvalid.symm.trans hv) (by decide)
  n_le := hinv.n_le
  m_le := hinv.m_le
  mainWords_le := hinv.mainWords_le
  ovfWords_le := hinv.ovfWords_le
  outLen_le := hinv.n_le
  shape := hinv.shape
  kTc_twos := hinv.kTc_twos
  kTc_other := hinv.kTc_other

/-- Every command keeps the header invariants. -/
theorem exec_keeps_headerInv {i : Instr} {s t : State} (hs : HeaderInv s.hdr) (h : exec i s = .next t) :
    HeaderInv t.hdr := by
  rcases exec_effect h with ⟨e, -, -, rfl, -⟩ | ⟨-, v, rfl⟩ | ⟨k, signed, zigzag, kd, -, rfl⟩ |
    ⟨len, k, -, hvalid, hbase, hlen, ⟨hk, hk'⟩, rfl⟩ | ⟨len, -, hvalid, hover, hlen, ⟨s', henc⟩, rfl⟩ |
    ⟨vs, -, hvalid, -, -, rfl⟩ | ⟨idx, v, -, -, rfl⟩
  · exact hs
  · exact hs
  · exact hs.create kd signed zigzag
  · exact hs.compressBase hvalid hbase hlen hk hk' _
  · exact hs.compressOverflow hvalid hover hlen (inputCodes_length s _) (packableChoice_of_encode henc) _
  · exact hs.decompress hvalid
  · exact hs

/-- Settles O55: each of the seven ends of a command leaves a header that meets the invariants, and so does a reset. -/
theorem stepKeepsHeaderInvariants : Obligations.StepKeepsHeaderInvariants := by
  intro s t hs h
  exact step_keeps (P := fun s => HeaderInv s.hdr) (fun _ hs => hs)
    (fun _ hs => HeaderInv.reset hs.nmax_pos hs.nmax_le) (fun _ hs => hs)
    (fun _ _ _ hs h => exec_keeps_headerInv hs h) hs h

end Sys2Proof.Machine
end

section
/-! SUPPORT. Entries read back from a stream: extraction in bits, and what it finds in the words that packing wrote. -/

namespace Sys2Proof.Machine

/-- An entry extracted from a cross stream is its `k` bits, split or not (R114). -/
theorem extractX_testBit (rd : Nat → Word) {k : Nat} (hk : k ≤ 32) (j b : Nat) :
    (extractX rd k j).testBit b =
      (decide (b < k) && (rd ((j * k + b) / 32)).getLsbD ((j * k + b) % 32)) := by
  have hfirst : b < 32 - j * k % 32 → (j * k + b) / 32 = j * k / 32 ∧ (j * k + b) % 32 = j * k % 32 + b := by omega
  unfold extractX
  dsimp only
  split
  · next hfit =>
    by_cases hb : b < k
    · obtain ⟨hword, hbit⟩ := hfirst (by omega)
      simp [hb, hword, hbit, Nat.testBit_div_two_pow, Nat.add_comm b, BitVec.testBit_toNat]
    · simp [hb]
  · next hsplit =>
    have hlow : (rd (j * k / 32)).toNat / 2 ^ (j * k % 32) < 2 ^ (32 - j * k % 32) := by
      rw [Nat.div_lt_iff_lt_mul (Nat.two_pow_pos _), ← pow_add, Nat.sub_add_cancel (by omega)]
      exact (rd (j * k / 32)).isLt
    rw [Nat.add_comm, Nat.mul_comm, Nat.testBit_two_pow_mul_add _ hlow]
    split
    · next hb =>
      obtain ⟨hword, hbit⟩ := hfirst hb
      have hbk : b < k := by omega
      simp [hbk, hword, hbit, Nat.testBit_div_two_pow, Nat.add_comm b, BitVec.testBit_toNat]
    · next hb =>
      by_cases hbk : b < k
      · have hword : (j * k + b) / 32 = j * k / 32 + 1 := by omega
        have hbit : (j * k + b) % 32 = b - (32 - j * k % 32) := by omega
        have hin : b - (32 - j * k % 32) < j * k % 32 + k - 32 := by omega
        simp [hbk, hword, hbit, hin, BitVec.testBit_toNat]
      · have hout : ¬ b - (32 - j * k % 32) < j * k % 32 + k - 32 := by omega
        simp [hbk, hout]

/-- An entry extracted from a no-cross stream is its `k` bits (R135). -/
theorem extractNC_testBit (rd : Nat → Word) {k : Nat} (hk : 1 ≤ k) (hk' : k ≤ 32) (j b : Nat) :
    (extractNC rd k j).testBit b =
      (decide (b < k) && (rd ((bitAddr .nc k j + b) / 32)).getLsbD ((bitAddr .nc k j + b) % 32)) := by
  unfold extractNC
  by_cases hb : b < k
  · obtain ⟨hword, hbit, -⟩ := bitAddr_nc_word (j := j) hk hk' b hb
    simp [hb, hword, hbit, Nat.testBit_div_two_pow, Nat.add_comm b, BitVec.testBit_toNat]
  · simp [hb]

/-- An extracted entry is the `k` stream bits from its bit address on, in either layout (R45, R56). -/
theorem extractWords_testBit (l : Layout) (rd : Nat → Word) {k : Nat} (hk : 1 ≤ k) (hk' : k ≤ 32) (j b : Nat) :
    (extractWords l rd k j).testBit b =
      (decide (b < k) && (rd ((bitAddr l k j + b) / 32)).getLsbD ((bitAddr l k j + b) % 32)) := by
  cases l with
  | x => exact extractX_testBit rd hk' j b
  | nc => exact extractNC_testBit rd hk hk' j b

/-- Words that agree with the packed ones give each packed value back. -/
theorem extractWords_packed {l : Layout} {rd : Nat → Word} {vals : List Nat} {k j : Nat} (hk : 1 ≤ k) (hk' : k ≤ 32)
    (hv : ∀ v ∈ vals, v ≤ 2 ^ k - 1)
    (hrd : ∀ w, w < streamWords l vals.length k → rd w = BitVec.ofNat 32 (packWord l vals k w))
    (hj : j < vals.length) : extractWords l rd k j = vals[j] := by
  refine Nat.eq_of_testBit_eq fun b => ?_
  rw [extractWords_testBit l rd hk hk']
  by_cases hb : b < k
  · obtain ⟨hword, hbit⟩ := packWord_entry_bit l vals k j b hk hk' hv hj hb
    have hpos : (bitAddr l k j + b) % 32 < 32 := Nat.mod_lt _ (by norm_num)
    rw [hrd _ hword, BitVec.getLsbD_ofNat, hbit, List.getD_eq_getElem _ _ hj]
    simp [hb, hpos]
  · have hlt : vals[j] < 2 ^ k := by
      have := hv _ (List.getElem_mem hj)
      have := Nat.two_pow_pos k
      omega
    have hzero : vals[j].testBit b = false :=
      Nat.testBit_lt_two_pow (hlt.trans_le (Nat.pow_le_pow_right (by norm_num) (Nat.le_of_not_lt hb)))
    simp [hb, hzero]

/-- A space into which a stream has been packed gives each packed value back. -/
theorem extractWords_of_stored {t : State} {sp : Space} {m : Mem} {l : Layout} {vals : List Nat} {k j : Nat}
    (hmem : memGet t.mem sp = memStoreFrom m 0 (packWords l vals k)) (hk : 1 ≤ k) (hk' : k ≤ 32)
    (hv : ∀ v ∈ vals, v ≤ 2 ^ k - 1) (hj : j < vals.length) : extractWords l (t.word sp) k j = vals[j] := by
  refine extractWords_packed hk hk' hv (fun w hw => ?_) hj
  rw [State.word, hmem, memFind_memStoreFrom]
  simp [hw, packWords]

/-! ### The words that a compress writes -/

theorem afterBase_main (s : State) (len : Word) (k : Nat) :
    memGet (afterBase s len k).mem .main =
      memStoreFrom s.mem.main 0 (packWords s.layout (s.inputCodes len.toNat) k) := rfl

/-- The records that the overflow encoder packs into `MAIN` (R153). -/
def selectedRecords (codes : List Nat) : List Nat := (buildRecords (selectKSmall codes).kSmall 0 codes).1

/-- The values that the overflow encoder packs into `OVF` (R154). -/
def selectedTable (codes : List Nat) : List Nat := overflowCodes codes (selectKSmall codes).kSmall

@[simp] theorem selectedRecords_length (codes : List Nat) : (selectedRecords codes).length = codes.length :=
  (buildRecords_lengths _ 0 codes).1

@[simp] theorem selectedTable_length (codes : List Nat) : (selectedTable codes).length = (selectKSmall codes).m :=
  (selectKSmall_m codes).symm

theorem overflowMemory_main (s : State) (codes : List Nat) :
    (overflowMemory s codes).main =
      memStoreFrom s.mem.main 0 (packWords s.layout (selectedRecords codes) (selectKSmall codes).bMain) := by
  unfold overflowMemory; dsimp only; split <;> rfl

theorem overflowMemory_ovf_of_empty {s : State} {codes : List Nat} (hm : (selectKSmall codes).m = 0) :
    (overflowMemory s codes).ovf = s.mem.ovf := by
  unfold overflowMemory; dsimp only; rw [if_pos hm]; rfl

theorem overflowMemory_ovf {s : State} {codes : List Nat} (hm : (selectKSmall codes).m ≠ 0) :
    (overflowMemory s codes).ovf =
      memStoreFrom s.mem.ovf 0 (packWords s.layout (selectedTable codes) (selectKSmall codes).kOver) := by
  unfold overflowMemory; dsimp only; rw [if_neg hm]; rfl

/-! ### The records and the table (R153, R154) -/

theorem overflowCodes_cons_of_le {ks c : Nat} (h : c ≤ threshold ks) (cs : List Nat) :
    overflowCodes (c :: cs) ks = overflowCodes cs ks := by
  simp [overflowCodes, Nat.not_lt.2 h]

theorem overflowCodes_cons_of_lt {ks c : Nat} (h : threshold ks < c) (cs : List Nat) :
    overflowCodes (c :: cs) ks = c :: overflowCodes cs ks := by
  simp [overflowCodes, h]

/-- A record of the encoder: flag 0 and a code of the array within the threshold, or flag 1 and the number of an overflow
occurrence, counted from `t`. -/
theorem mem_buildRecords {ks t : Nat} {codes : List Nat} {r : Nat} (h : r ∈ (buildRecords ks t codes).1) :
    (r % 2 = 0 ∧ r / 2 ≤ threshold ks ∧ r / 2 ∈ codes) ∨
      (r % 2 = 1 ∧ r / 2 < t + (overflowCodes codes ks).length) := by
  induction codes generalizing t with
  | nil => simp [buildRecords] at h
  | cons c cs ih =>
    by_cases hc : c ≤ threshold ks
    · simp only [buildRecords, if_pos hc, List.mem_cons] at h
      rcases h with rfl | h
      · exact .inl ⟨by omega, by omega, by simp⟩
      · rw [overflowCodes_cons_of_le hc]
        exact (ih h).imp_left fun ⟨hflag, hle, hmem⟩ => ⟨hflag, hle, List.mem_cons_of_mem c hmem⟩
    · simp only [buildRecords, if_neg hc, List.mem_cons] at h
      rw [overflowCodes_cons_of_lt (Nat.lt_of_not_le hc), List.length_cons]
      rcases h with rfl | h
      · exact .inr ⟨by omega, by omega⟩
      · refine (ih h).imp (fun ⟨hflag, hle, hmem⟩ => ⟨hflag, hle, List.mem_cons_of_mem c hmem⟩) ?_
        exact fun ⟨hflag, hlt⟩ => ⟨hflag, by omega⟩

/-- The payloads of the flagged records count the overflow occurrences from `t` on. -/
theorem buildRecords_payloads (ks t : Nat) (codes : List Nat) :
    ((buildRecords ks t codes).1.filter fun r => decide (r % 2 = 1)).map (fun r => r / 2) =
      List.range' t (overflowCodes codes ks).length := by
  induction codes generalizing t with
  | nil => rfl
  | cons c cs ih =>
    by_cases hc : c ≤ threshold ks
    · simp [buildRecords, hc, overflowCodes_cons_of_le hc, ih]
    · have hodd : (t * 2 + 1) % 2 = 1 := by omega
      have hhalf : (t * 2 + 1) / 2 = t := by omega
      simp [buildRecords, hc, overflowCodes_cons_of_lt (Nat.lt_of_not_le hc), hodd, hhalf, ih, List.range'_succ]

theorem mem_selectedRecords {codes : List Nat} {r : Nat} (h : r ∈ selectedRecords codes) :
    (r % 2 = 0 ∧ r / 2 ≤ threshold (selectKSmall codes).kSmall ∧ r / 2 ∈ codes) ∨
      (r % 2 = 1 ∧ r / 2 < (selectedTable codes).length) := by
  simpa [selectedTable] using mem_buildRecords h

theorem selectedRecords_payloads (codes : List Nat) :
    ((selectedRecords codes).filter fun r => decide (r % 2 = 1)).map (fun r => r / 2) =
      List.range (selectKSmall codes).m := by
  rw [selectKSmall_m, List.range_eq_range']
  exact buildRecords_payloads _ 0 codes

/-- Every record fits the width `B_main` (R149). -/
theorem selectedRecords_le {codes : List Nat} {r : Nat} (h : r ∈ selectedRecords codes) :
    r ≤ 2 ^ (selectKSmall codes).bMain - 1 := by
  obtain ⟨payload, hpayload, hwidth⟩ : ∃ w, r / 2 < 2 ^ w ∧ w + 1 ≤ (selectKSmall codes).bMain := by
    rw [selectKSmall_bMain, bMainFor]
    rcases mem_selectedRecords h with ⟨-, hle, -⟩ | ⟨-, hlt⟩
    · have hpos := Nat.two_pow_pos (selectKSmall codes).kSmall
      unfold threshold at hle
      exact ⟨(selectKSmall codes).kSmall, by omega, by omega⟩
    · rw [selectedTable_length] at hlt
      exact ⟨bitWidthFor ((selectKSmall codes).m - 1),
        (Nat.le_sub_one_of_lt hlt).trans_lt (lt_two_pow_bitWidthFor _), by omega⟩
  have hpow : 2 ^ (payload + 1) ≤ 2 ^ (selectKSmall codes).bMain := Nat.pow_le_pow_right (by norm_num) hwidth
  rw [pow_succ] at hpow
  omega

/-- Every value of the table fits the width `k_over` (R148). -/
theorem selectedTable_le {codes : List Nat} {c : Nat} (h : c ∈ selectedTable codes) :
    c ≤ 2 ^ (selectKSmall codes).kOver - 1 := by
  rw [selectKSmall_kOver]
  exact le_mask_kOverFor h

/-! ### The state after a compress on an overflow kind -/

@[simp] theorem afterOverflow_n (s : State) (len : Word) : (afterOverflow s len).hdr.n = len := rfl
@[simp] theorem afterOverflow_cfg (s : State) (len : Word) : (afterOverflow s len).hdr.cfg = s.hdr.cfg := rfl
@[simp] theorem afterOverflow_layout (s : State) (len : Word) : (afterOverflow s len).layout = s.layout := rfl

theorem afterOverflow_main (s : State) (len : Word) :
    memGet (afterOverflow s len).mem .main =
      memStoreFrom s.mem.main 0
        (packWords s.layout (selectedRecords (s.inputCodes len.toNat)) (selectKSmall (s.inputCodes len.toNat)).bMain) :=
  overflowMemory_main s _

theorem afterOverflow_ovf {s : State} {len : Word} (hm : (selectKSmall (s.inputCodes len.toNat)).m ≠ 0) :
    memGet (afterOverflow s len).mem .ovf =
      memStoreFrom s.mem.ovf 0
        (packWords s.layout (selectedTable (s.inputCodes len.toNat)) (selectKSmall (s.inputCodes len.toNat)).kOver) :=
  overflowMemory_ovf hm

theorem afterOverflow_ovf_of_empty {s : State} {len : Word} (hm : (selectKSmall (s.inputCodes len.toNat)).m = 0) :
    memGet (afterOverflow s len).mem .ovf = s.mem.ovf :=
  overflowMemory_ovf_of_empty hm

theorem afterOverflow_kSmall (s : State) (len : Word) :
    (afterOverflow s len).hdr.kSmall.toNat = (selectKSmall (s.inputCodes len.toNat)).kSmall :=
  overflowHeader_kSmall_toNat _ _

theorem afterOverflow_m (s : State) (len : Word) :
    (afterOverflow s len).hdr.m.toNat = (selectKSmall (s.inputCodes len.toNat)).m :=
  overflowHeader_m_toNat _ _ (inputCodes_length s _)

section
variable {s : State} {len : Word} (hc : PackableChoice (s.inputCodes len.toNat))
include hc

theorem afterOverflow_bMain :
    (afterOverflow s len).hdr.bMain.toNat = (selectKSmall (s.inputCodes len.toNat)).bMain :=
  overflowHeader_bMain_toNat _ _ hc

theorem afterOverflow_kOver :
    (afterOverflow s len).hdr.kOver.toNat = (selectKSmall (s.inputCodes len.toNat)).kOver :=
  overflowHeader_kOver_toNat _ _ hc

theorem afterOverflow_mainWords :
    (afterOverflow s len).hdr.mainWords.toNat =
      streamWords s.layout len.toNat (selectKSmall (s.inputCodes len.toNat)).bMain :=
  overflowHeader_mainWords_toNat _ _ hc

theorem afterOverflow_ovfWords :
    (afterOverflow s len).hdr.ovfWords.toNat =
      ovfWordsFor s.layout (selectKSmall (s.inputCodes len.toNat)).m (selectKSmall (s.inputCodes len.toNat)).kOver :=
  overflowHeader_ovfWords_toNat _ _ (inputCodes_length s _) hc

end

end Sys2Proof.Machine
end

section
/-! SUPPORT. The memory part of the invariants, one space at a time: canonical, inside `NMAX`, and written as far as a read
command reaches. -/

namespace Sys2Proof.Machine

/-- How many words of a space the read commands reach (R201 to R203); `IN` is not read by any of them. -/
def readableLen (h : Header) : Space → Word
  | .input => 0
  | .main => h.mainWords
  | .ovf => h.ovfWords
  | .out => h.outLen

/-- What `MemoryInv` says of one space whose first `len` words can be read. -/
structure SpaceInv (m : Mem) (nmax len : Word) : Prop where
  canonical : Mem.wf m
  within : WithinSpace m nmax
  written : WrittenUpTo m len

theorem writtenUpTo_zero (m : Mem) : WrittenUpTo m 0 := fun _ h => absurd h (Nat.not_lt_zero _)

theorem memoryInv_iff {s : State} :
    MemoryInv s ↔ ∀ sp, SpaceInv (memGet s.mem sp) s.hdr.nmax (readableLen s.hdr sp) := by
  constructor
  · rintro ⟨⟨hin, hmain, hovf, hout⟩, inWithin, mainWithin, ovfWithin, outWithin, mainWritten, ovfWritten, outWritten⟩ sp
    cases sp with
    | input => exact ⟨hin, inWithin, writtenUpTo_zero _⟩
    | main => exact ⟨hmain, mainWithin, mainWritten⟩
    | ovf => exact ⟨hovf, ovfWithin, ovfWritten⟩
    | out => exact ⟨hout, outWithin, outWritten⟩
  · intro h
    exact
      { canonical := ⟨(h .input).canonical, (h .main).canonical, (h .ovf).canonical, (h .out).canonical⟩
        input_within := (h .input).within
        main_within := (h .main).within
        ovf_within := (h .ovf).within
        out_within := (h .out).within
        main_written := (h .main).written
        ovf_written := (h .ovf).written
        out_written := (h .out).written }

theorem SpaceInv.empty (nmax : Word) : SpaceInv [] nmax 0 where
  canonical := List.Pairwise.nil
  within _ hp := absurd hp List.not_mem_nil
  written := writtenUpTo_zero _

/-- A space of which nothing can be read has no words to be written. -/
theorem SpaceInv.unread {m : Mem} {nmax len : Word} (h : SpaceInv m nmax len) : SpaceInv m nmax 0 :=
  ⟨h.canonical, h.within, writtenUpTo_zero m⟩

/-- Writing one word keeps what was written, in form and range. -/
theorem SpaceInv.store {m : Mem} {nmax len : Word} (h : SpaceInv m nmax len) {a : Nat} (ha : a < nmax.toNat)
    (v : Word) : SpaceInv (memStore m a v) nmax len where
  canonical := memStore_wf h.canonical a v
  within := memStoreFrom_within h.within a [v] ha
  written b hb := by
    rw [memFind_memStore]
    split
    · rfl
    · exact h.written b hb

/-- Writing `len` words from index 0 on makes the first `len` words readable, whatever was readable before. -/
theorem SpaceInv.fill {m : Mem} {nmax len : Word} (h : SpaceInv m nmax len) {len' : Word} {vs : List Word}
    (hlen : vs.length = len'.toNat) (hle : len'.toNat ≤ nmax.toNat) : SpaceInv (memStoreFrom m 0 vs) nmax len' where
  canonical := memStoreFrom_wf h.canonical 0 vs
  within := memStoreFrom_within h.within 0 vs (by omega)
  written b hb := by
    have hb' : b < vs.length := by omega
    simp [memFind_memStoreFrom, hb']

/-! ### Each way a command leaves the memories -/

theorem MemoryInv.of_same {s t : State} (hs : MemoryInv s) (hhdr : t.hdr = s.hdr) (hmem : t.mem = s.mem) :
    MemoryInv t := by
  rw [memoryInv_iff] at hs ⊢
  rw [hhdr, hmem]
  exact hs

theorem MemoryInv.of_reset {s : State} {nmax : Word} (hhdr : s.hdr = Header.reset nmax) (hmem : s.mem = Memory.reset) :
    MemoryInv s := by
  rw [memoryInv_iff, hhdr, hmem]
  intro sp
  cases sp <;> exact SpaceInv.empty nmax

theorem MemoryInv.create {s : State} (hs : MemoryInv s) (cfg : Cfg) :
    MemoryInv { s with hdr := clearedHeader s.hdr cfg } := by
  rw [memoryInv_iff] at hs ⊢
  intro sp
  cases sp with
  | input => exact hs .input
  | main => exact (hs .main).unread
  | ovf => exact (hs .ovf).unread
  | out => exact hs .out

theorem MemoryInv.wrin {s : State} (hs : MemoryInv s) {idx : Nat} (hidx : idx < s.hdr.nmax.toNat) (v : Word) :
    MemoryInv { s with mem := memSet s.mem .input (memStore (memGet s.mem .input) idx v) } := by
  rw [memoryInv_iff] at hs ⊢
  intro sp
  cases sp with
  | input => exact (hs .input).store hidx v
  | main => exact hs .main
  | ovf => exact hs .ovf
  | out => exact hs .out

theorem MemoryInv.decompress {s : State} (hs : MemoryInv s) {vs : List Word} (hvs : vs.length = s.hdr.n.toNat)
    (hn : s.hdr.n.toNat ≤ s.hdr.nmax.toNat) :
    MemoryInv { s with
      hdr := { s.hdr with outLen := s.hdr.n }
      mem := memSet s.mem .out (memStoreFrom (memGet s.mem .out) 0 vs) } := by
  rw [memoryInv_iff] at hs ⊢
  intro sp
  cases sp with
  | input => exact hs .input
  | main => exact hs .main
  | ovf => exact hs .ovf
  | out => exact (hs .out).fill hvs hn

theorem MemoryInv.compressBase {s : State} (hs : MemoryInv s) {len : Word} (hlen : len.toNat ≤ s.hdr.nmax.toNat)
    {k : Nat} (hk : 1 ≤ k) (hk' : k ≤ 32) : MemoryInv (afterBase s len k) := by
  have hwords := streamWords_le s.layout len.toNat hk hk'
  rw [memoryInv_iff] at hs ⊢
  intro sp
  cases sp with
  | input => exact hs .input
  | main =>
    have hreg : (readableLen (afterBase s len k).hdr .main).toNat = streamWords s.layout len.toNat k :=
      toNat_ofNat_le hwords
    refine (hs .main).fill ?_ (hreg.trans_le (hwords.trans hlen))
    rw [hreg, packWords_length, inputCodes_length]
  | ovf => exact (hs .ovf).unread
  | out => exact hs .out

theorem MemoryInv.compressOverflow {s : State} (hs : MemoryInv s) {len : Word}
    (hlen : len.toNat ≤ s.hdr.nmax.toNat) (hc : PackableChoice (s.inputCodes len.toNat)) :
    MemoryInv (afterOverflow s len) := by
  have hmain := afterOverflow_mainWords hc
  have hovf := afterOverflow_ovfWords hc
  have hcodes := inputCodes_length s len.toNat
  rw [memoryInv_iff] at hs ⊢
  intro sp
  cases sp with
  | input =>
    show SpaceInv (overflowMemory s _).input _ _
    rw [overflowMemory_input]
    exact hs .input
  | main =>
    rw [afterOverflow_main]
    refine (hs .main).fill ?_ (hmain.trans_le ((streamWords_le _ _ (selectKSmall_bMain_pos _) hc.1).trans hlen))
    rw [packWords_length, selectedRecords_length, hcodes]
    exact hmain.symm
  | ovf =>
    by_cases hm : (selectKSmall (s.inputCodes len.toNat)).m = 0
    · rw [ovfWordsFor, if_pos hm] at hovf
      rw [afterOverflow_ovf_of_empty hm,
        show readableLen (afterOverflow s len).hdr .ovf = 0 from BitVec.eq_of_toNat_eq hovf]
      exact (hs .ovf).unread
    · have hle := selectKSmall_m_le (s.inputCodes len.toNat)
      rw [afterOverflow_ovf hm]
      refine (hs .ovf).fill ?_ (hovf.trans_le ((hc.ovfWordsFor_le _).trans (by omega)))
      rw [packWords_length, selectedTable_length]
      exact (hovf.trans (if_neg hm)).symm
  | out =>
    show SpaceInv (overflowMemory s _).out _ _
    rw [overflowMemory_out]
    exact hs .out

end Sys2Proof.Machine
end

section
/-! The contents of the streams: what the invariants say of the records, the table and the codes. -/

namespace Sys2Proof.Machine

/-- What `Inv` says of the entries of the two streams. -/
structure ContentsInv (s : State) : Prop where
  overflow : isOverflow s.hdr.cfg.kind = true → OverflowContents s
  codes_fit : s.mode = .twos → ∀ i c, i < s.hdr.n.toNat → getCode s i = .ok c → c < 2 ^ s.hdr.kTc.toNat

theorem inv_iff {s : State} : Inv s ↔ HeaderInv s.hdr ∧ MemoryInv s ∧ ContentsInv s :=
  ⟨fun h => ⟨h.header, h.memory, h.overflow, h.codes_fit⟩,
    fun ⟨hhdr, hmem, hcontents⟩ => ⟨hhdr, hmem, hcontents.overflow, hcontents.codes_fit⟩⟩

/-- A packer that holds no array says nothing of its streams. -/
theorem ContentsInv.of_empty {s : State} (hn : s.hdr.n = 0) (hm : s.hdr.m = 0) : ContentsInv s where
  overflow _ :=
    { payloads := by simp [State.overflowPayloads, hn, hm]
      inline_le i hi := by simp [hn] at hi
      table_gt t ht := by simp [hm] at ht }
  codes_fit _ i _ hi := by simp [hn] at hi

/-- The packed array is the same: the header but for `OUT_LEN`, and the words of `MAIN` and `OVF`. -/
def SamePacked (s t : State) : Prop :=
  t.hdr = { s.hdr with outLen := t.hdr.outLen } ∧ t.word .main = s.word .main ∧ t.word .ovf = s.word .ovf

section
variable {s t : State} (h : SamePacked s t)
include h

theorem SamePacked.record_eq (i : Nat) : t.record i = s.record i := by
  obtain ⟨hhdr, hmain, -⟩ := h
  rw [State.record, State.layout, hmain, hhdr]
  rfl

theorem SamePacked.overflowPayloads_eq : t.overflowPayloads = s.overflowPayloads := by
  have hrec : t.record = s.record := funext h.record_eq
  obtain ⟨hhdr, -, -⟩ := h
  rw [State.overflowPayloads, hrec, hhdr]
  rfl

theorem SamePacked.extract_eq {sp : Space} (hsp : t.word sp = s.word sp) (l : Layout) (k j : Nat) :
    extract t sp l k j = extract s sp l k j := by
  obtain ⟨hhdr, -, -⟩ := h
  rw [extract, hsp, hhdr]
  rfl

theorem SamePacked.getCode_eq (i : Nat) : getCode t i = getCode s i := by
  have hextract := @h.extract_eq
  obtain ⟨hhdr, hmain, hovf⟩ := h
  simp only [getCode, getCodeOverflow, hextract hmain, hextract hovf]
  rw [hhdr]

theorem SamePacked.contentsInv (hs : ContentsInv s) : ContentsInv t := by
  have hrec := h.record_eq
  have hpay := h.overflowPayloads_eq
  have hcode := h.getCode_eq
  obtain ⟨hhdr, -, hovf⟩ := h
  have hlayout : t.layout = s.layout := by rw [State.layout, hhdr]; rfl
  have hmode : t.mode = s.mode := by rw [State.mode, hhdr]; rfl
  constructor
  · intro hk
    rw [hhdr] at hk
    obtain ⟨hp, hi, ht⟩ := hs.overflow hk
    constructor
    · rw [hpay, hhdr]
      exact hp
    · simp only [hrec]
      rw [hhdr]
      exact hi
    · rw [hovf, hlayout, hhdr]
      exact ht
  · intro hm i c
    rw [hcode, hhdr]
    exact hs.codes_fit (hmode ▸ hm) i c

end

/-! ### After a compress on a base kind -/

/-- The entry of a code is the code, when the codes fit the width they were packed at. -/
theorem afterBase_getCode {s : State} {len : Word} {k : Nat} (hbase : isOverflow s.hdr.cfg.kind = false) (hk : 1 ≤ k)
    (hk' : k ≤ 32) (hfit : ∀ c ∈ s.inputCodes len.toNat, c ≤ mask k) {i c : Nat} (hi : i < len.toNat)
    (h : getCode (afterBase s len k) i = .ok c) : c ∈ s.inputCodes len.toNat := by
  rw [getCode, if_neg (by simp [afterBase, hbase])] at h
  obtain ⟨-, -, rfl⟩ := extract_eq_ok.1 h
  have hi' : i < (s.inputCodes len.toNat).length := by simpa using hi
  show extractWords s.layout _ (BitVec.ofNat 6 k).toNat i ∈ _
  rw [toNat_ofNat_width hk', extractWords_of_stored (afterBase_main s len k) hk hk' hfit hi']
  exact List.getElem_mem hi'

/-- A code of an array packed in mode `TWOS` fits the register `K_TC`. -/
theorem inputCodes_lt {s : State} {len c : Nat} (hmode : s.mode = .twos) (hc : c ∈ s.inputCodes len) :
    c < 2 ^ (BitVec.ofNat 6 (kTcFor s.mode (s.inputArray len))).toNat := by
  rw [toNat_ofNat_width (kTcFor_le _ _), hmode]
  rw [State.inputCodes, show modeOf s.hdr.cfg = .twos from hmode] at hc
  exact encodeArray_twos_lt hc

theorem ContentsInv.compressBase {s : State} {len : Word} {k : Nat} (hbase : isOverflow s.hdr.cfg.kind = false)
    (hk : 1 ≤ k) (hk' : k ≤ 32) (hfit : ∀ c ∈ s.inputCodes len.toNat, c ≤ mask k) :
    ContentsInv (afterBase s len k) where
  overflow hover := absurd (hbase.symm.trans hover) (by decide)
  codes_fit hmode _ _ hi hget := inputCodes_lt hmode (afterBase_getCode hbase hk hk' hfit hi hget)

/-! ### After a compress on an overflow kind -/

section
variable {s : State} {len : Word} (hc : PackableChoice (s.inputCodes len.toNat))
include hc

theorem afterOverflow_record {i : Nat} (hi : i < (selectedRecords (s.inputCodes len.toNat)).length) :
    (afterOverflow s len).record i = (selectedRecords (s.inputCodes len.toNat))[i] := by
  rw [State.record, afterOverflow_bMain hc]
  exact extractWords_of_stored (afterOverflow_main s len) (selectKSmall_bMain_pos _) hc.1
    (fun _ hr => selectedRecords_le hr) hi

theorem afterOverflow_table {t : Nat} (ht : t < (selectedTable (s.inputCodes len.toNat)).length) :
    extractWords s.layout ((afterOverflow s len).word .ovf) (afterOverflow s len).hdr.kOver.toNat t =
      (selectedTable (s.inputCodes len.toNat))[t] := by
  have hm : (selectKSmall (s.inputCodes len.toNat)).m ≠ 0 := by
    rw [← selectedTable_length]
    exact Nat.ne_zero_of_lt ht
  rw [afterOverflow_kOver hc]
  exact extractWords_of_stored (afterOverflow_ovf hm) (one_le_two.trans (two_le_selectKSmall_kOver hm)) hc.kOver_le
    (fun _ hv => selectedTable_le hv) ht

/-- The records that the encoder packed are the records of the state it leaves. -/
theorem afterOverflow_records :
    (List.range len.toNat).map (afterOverflow s len).record = selectedRecords (s.inputCodes len.toNat) := by
  refine List.ext_getElem (by simp) fun i _ hi => ?_
  simpa using afterOverflow_record hc hi

theorem afterOverflow_contents : OverflowContents (afterOverflow s len) where
  payloads := by
    rw [State.overflowPayloads, afterOverflow_n, afterOverflow_records hc, afterOverflow_m, selectedRecords_payloads]
  inline_le i hi hflag := by
    have hi' : i < (selectedRecords (s.inputCodes len.toNat)).length := by simpa using hi
    rw [afterOverflow_record hc hi'] at hflag ⊢
    rw [afterOverflow_kSmall]
    rcases mem_selectedRecords (List.getElem_mem hi') with ⟨-, hle, -⟩ | ⟨hodd, -⟩
    · exact hle
    · omega
  table_gt t ht := by
    have ht' : t < (selectedTable (s.inputCodes len.toNat)).length := by
      rw [selectedTable_length, ← afterOverflow_m]
      exact ht
    rw [afterOverflow_layout, afterOverflow_table hc ht', afterOverflow_kSmall]
    exact (mem_overflowCodes.1 (List.getElem_mem ht')).2

/-- What `GET` finds behind a record is a code of the array: the payload itself, or the table entry it points to. -/
theorem afterOverflow_getCode (hover : isOverflow s.hdr.cfg.kind = true) {i c : Nat} (hi : i < len.toNat)
    (h : getCode (afterOverflow s len) i = .ok c) : c ∈ s.inputCodes len.toNat := by
  have hi' : i < (selectedRecords (s.inputCodes len.toNat)).length := by simpa using hi
  have hshape := mem_selectedRecords (List.getElem_mem hi')
  rw [← afterOverflow_record hc hi'] at hshape
  rw [getCode, afterOverflow_cfg, if_pos hover, getCodeOverflow, afterOverflow_cfg] at h
  split at h
  · exact nomatch h
  · next r hr =>
    obtain ⟨-, -, hrec⟩ := extract_eq_ok.1 hr
    replace hrec : (afterOverflow s len).record i = r := hrec.symm
    rw [hrec] at hshape
    rcases hshape with ⟨heven, -, hmem⟩ | ⟨hodd, hlt⟩
    · rw [if_pos heven] at h
      exact Except.ok.inj h ▸ hmem
    · rw [if_neg (by omega)] at h
      obtain ⟨-, -, rfl⟩ := extract_eq_ok.1 h
      exact (afterOverflow_table hc hlt).symm ▸ (mem_overflowCodes.1 (List.getElem_mem hlt)).1

theorem ContentsInv.compressOverflow (hover : isOverflow s.hdr.cfg.kind = true) :
    ContentsInv (afterOverflow s len) where
  overflow _ := afterOverflow_contents hc
  codes_fit hmode _ _ hi hget := inputCodes_lt hmode (afterOverflow_getCode hc hover hi hget)

end

end Sys2Proof.Machine
end

section
/-! The invariants of the packed state (R30): they hold right after reset and every step keeps them. -/

namespace Sys2Proof.Machine

/-! ### The invariants do not see the channel -/

theorem samePacked_answer (s : State) (e : Err) (v : Word) : SamePacked s (s.answer e v) := ⟨rfl, rfl, rfl⟩

theorem samePacked_dropInput (s : State) : SamePacked s (dropInput s) := ⟨rfl, rfl, rfl⟩

theorem MemoryInv.answer {s : State} (h : MemoryInv s) (e : Err) (v : Word) : MemoryInv (s.answer e v) :=
  h.of_same rfl rfl

theorem ContentsInv.answer {s : State} (h : ContentsInv s) (e : Err) (v : Word) : ContentsInv (s.answer e v) :=
  (samePacked_answer s e v).contentsInv h

theorem Inv.answer {s : State} (h : Inv s) (e : Err) (v : Word) : Inv (s.answer e v) := by
  obtain ⟨hhdr, hmem, hcontents⟩ := inv_iff.1 h
  exact inv_iff.2 ⟨hhdr, hmem.answer e v, hcontents.answer e v⟩

theorem Inv.dropInput {s : State} (h : Inv s) : Inv (dropInput s) := by
  obtain ⟨hhdr, hmem, hcontents⟩ := inv_iff.1 h
  exact inv_iff.2 ⟨hhdr, hmem.of_same rfl rfl, (samePacked_dropInput s).contentsInv hcontents⟩

/-! ### Reset -/

/-- A state with the header and the memories of reset meets the invariants, whatever stands in its other fields. -/
theorem Inv.of_reset {s : State} {nmax : Word} (hhdr : s.hdr = Header.reset nmax) (hmem : s.mem = Memory.reset)
    (hpos : 1 ≤ nmax.toNat) (hle : nmax.toNat ≤ 2 ^ 24) : Inv s :=
  inv_iff.2 ⟨hhdr ▸ HeaderInv.reset hpos hle, MemoryInv.of_reset hhdr hmem,
    ContentsInv.of_empty (by rw [hhdr]; rfl) (by rw [hhdr]; rfl)⟩

theorem Inv.takeReset {s : State} (h : Inv s) : Inv (takeReset s) :=
  Inv.of_reset rfl rfl h.header.nmax_pos h.header.nmax_le

/-- Settles O54: nothing is packed after reset, and no word is listed. -/
theorem resetMeetsInvariants : Obligations.ResetMeetsInvariants :=
  fun _ hpos hle => Inv.of_reset rfl rfl hpos hle

/-! ### Commands -/

/-- A compress on a base kind that answers without an error packs codes that fit the width (R173, R175). -/
theorem compress_base_effect {i : Instr} {s t : State} {len : Word} (hi : i = .compress len ∨ ∃ k, i = .compressk k len)
    (hbase : isOverflow s.hdr.cfg.kind = false) (h : exec i s = .next t)
    (hok : t.responses = s.responses ++ [⟨.ok, 0⟩]) :
    ∃ k, (1 ≤ k ∧ k ≤ 32) ∧ (∀ c ∈ s.inputCodes len.toNat, c ≤ mask k) ∧ t = (afterBase s len k).answer .ok 0 := by
  rcases hi with rfl | ⟨k, rfl⟩
  · rcases execCompress_next.1 h with ⟨-, rfl⟩ | ⟨-, ⟨-, hpack⟩ | ⟨hover, -⟩⟩
    · simp at hok
    · obtain ⟨hk, -, rfl⟩ := compressBase_next.1 hpack
      exact ⟨_, hk, fun _ hc => le_mask_bitWidthFor_maxOf hc, rfl⟩
    · exact absurd (hbase.symm.trans hover) (by decide)
  · rcases execCompressk_next.1 h with ⟨-, rfl⟩ | ⟨-, ⟨-, rfl⟩ | ⟨-, -, rfl⟩ | ⟨-, hfit, hpack⟩⟩
    · simp at hok
    · simp at hok
    · simp at hok
    · obtain ⟨hk, -, rfl⟩ := compressBase_next.1 hpack
      exact ⟨k, hk, hfit, rfl⟩

/-- Every command keeps the memory part of the invariants. -/
theorem exec_keeps_memoryInv {i : Instr} {s t : State} (hs : MemoryInv s) (h : exec i s = .next t) : MemoryInv t := by
  rcases exec_effect h with ⟨e, -, -, rfl, -⟩ | ⟨-, v, rfl⟩ | ⟨k, signed, zigzag, kd, -, rfl⟩ |
    ⟨len, k, -, -, -, hlen, ⟨hk, hk'⟩, rfl⟩ | ⟨len, -, -, -, hlen, ⟨s', henc⟩, rfl⟩ |
    ⟨vs, -, -, hn, hvs, rfl⟩ | ⟨idx, v, -, hidx, rfl⟩
  · exact hs.answer e 0
  · exact hs.answer .ok v
  · exact (hs.create _).answer .ok 0
  · exact (hs.compressBase hlen hk hk').answer .ok 0
  · exact (hs.compressOverflow hlen (packableChoice_of_encode henc)).answer .ok 0
  · have hlength : vs.length = s.hdr.n.toNat := by simpa using (congrArg List.length hvs).symm
    exact (hs.decompress hlength hn).answer .ok 0
  · exact (hs.wrin hidx v).answer .ok 0

/-- Every command keeps what the invariants say of the two streams. -/
theorem exec_keeps_contentsInv {i : Instr} {s t : State} (hs : ContentsInv s) (h : exec i s = .next t) :
    ContentsInv t := by
  rcases exec_effect h with ⟨e, -, -, rfl, -⟩ | ⟨-, v, rfl⟩ | ⟨k, signed, zigzag, kd, -, rfl⟩ |
    ⟨len, k, hi, -, hbase, -, -, ht⟩ | ⟨len, -, -, hover, -, ⟨s', henc⟩, rfl⟩ |
    ⟨vs, -, -, -, -, rfl⟩ | ⟨idx, v, -, -, rfl⟩
  · exact hs.answer e 0
  · exact hs.answer .ok v
  · exact ContentsInv.of_empty rfl rfl
  · obtain ⟨k, ⟨hk, hk'⟩, hfit, rfl⟩ := compress_base_effect hi hbase h (by rw [ht]; rfl)
    exact (ContentsInv.compressBase hbase hk hk' hfit).answer .ok 0
  · exact (ContentsInv.compressOverflow (packableChoice_of_encode henc) hover).answer .ok 0
  · exact SamePacked.contentsInv ⟨rfl, rfl, rfl⟩ hs
  · exact SamePacked.contentsInv ⟨rfl, rfl, rfl⟩ hs

/-- Every command keeps the invariants. -/
theorem exec_keeps_inv {i : Instr} {s t : State} (hs : Inv s) (h : exec i s = .next t) : Inv t := by
  obtain ⟨hhdr, hmem, hcontents⟩ := inv_iff.1 hs
  exact inv_iff.2
    ⟨exec_keeps_headerInv hhdr h, exec_keeps_memoryInv hmem h, exec_keeps_contentsInv hcontents h⟩

/-- Settles O57: the header, the memories and the contents of the streams, each kept by every command, by a reset and by
the answer to a request that is no command. -/
theorem stepKeepsInvariants : Obligations.StepKeepsInvariants :=
  fun _ _ hs h => step_keeps (fun _ hs => hs.dropInput) (fun _ hs => hs.takeReset)
    (fun _ hs => hs.answer .illegalCommand 0) (fun _ _ _ hs h => exec_keeps_inv hs h) hs h

end Sys2Proof.Machine
end

section
/-! Single steps and registers: the decoded command, the readings after reset, and who writes which register. -/

namespace Sys2Proof.Machine

/-- Settles O7: the input that the step takes off is the request itself. -/
theorem stepRunsDecodedCommand : Obligations.StepRunsDecodedCommand := by
  intro s cmd arg rest i hin hdec
  have hdrop : dropInput s = { s with inputs := rest } := by rw [dropInput, hin, List.tail_cons]
  rw [step_of_decode_ok hin hdec, hdrop]

theorem cfgWord_reset : cfgWord ⟨false, .cross, false, false⟩ = 0 := by decide

/-- Every register but `NMAX` reads 0 after reset (R32). -/
theorem headerRegister_reset {idx : Nat} (h : idx ≤ 10) (nmax : Word) :
    headerRegister (Header.reset nmax) idx = some 0 := by
  interval_cases idx
  · exact congrArg some cfgWord_reset
  all_goals rfl

/-- Reading register `idx` answers its value (R204). -/
theorem execRdhdr_of_some {s : State} {idx : Nat} {w : Word} (h : headerRegister s.hdr idx = some w) :
    exec (.rdhdr idx) s = .next (s.answer .ok w) :=
  execRdhdr_next.2 (.inr ⟨w, h, rfl⟩)

/-- While a valid length is 0, every read of its space is illegal (R201 to R203). -/
theorem readWithin_zero (sp : Space) (idx : Nat) (s : State) :
    readWithin sp 0 idx s = .next (s.answer .illegalCommand 0) :=
  readWithin_next.2 (.inl ⟨Nat.zero_le idx, rfl⟩)

/-- Settles O9: the registers of reset are 0 but for `NMAX`, and the valid lengths of the three spaces are among them. -/
theorem resetValues : Obligations.ResetValues := by
  refine ⟨fun idx hidx => execRdhdr_of_some (headerRegister_reset hidx _),
    ⟨BitVec.ofNat 32 Config.nMax, execRdhdr_of_some rfl, by decide, by decide⟩, memGet_reset, ?_⟩
  rintro idx i (rfl | rfl | rfl)
  · exact readWithin_zero .main idx State.reset
  · exact readWithin_zero .ovf idx State.reset
  · exact readWithin_zero .out idx State.reset

/-- Settles O50: of the seven ends of a command only a new packer, a packed array and a decompressed buffer touch the
header, each its own registers. -/
theorem whoWritesWhichRegister : Obligations.WhoWritesWhichRegister := by
  intro i s t h
  rcases exec_effect h with ⟨e, -, -, rfl, -⟩ | ⟨-, v, rfl⟩ | ⟨k, signed, zigzag, kd, rfl, rfl⟩ |
    ⟨len, k, hi, -, -, -, -, rfl⟩ | ⟨len, rfl, -, -, -, -, rfl⟩ | ⟨vs, rfl, -, -, -, rfl⟩ | ⟨idx, v, -, -, rfl⟩
  · exact ⟨rfl, absurd rfl, absurd rfl, absurd rfl⟩
  · exact ⟨rfl, absurd rfl, absurd rfl, absurd rfl⟩
  · exact ⟨rfl, absurd rfl, fun _ => rfl, fun _ => by simp [Instr.mnemonic]⟩
  · refine ⟨rfl, absurd rfl, absurd rfl, fun _ => ?_⟩
    rcases hi with rfl | ⟨k', rfl⟩ <;> simp [Instr.mnemonic]
  · exact ⟨rfl, absurd rfl, absurd rfl, fun _ => by simp [Instr.mnemonic]⟩
  · exact ⟨rfl, fun _ => rfl, absurd rfl, absurd rfl⟩
  · exact ⟨rfl, absurd rfl, absurd rfl, absurd rfl⟩

end Sys2Proof.Machine
end

section
/-! Entries of a stream and their bit addresses (R44, R45, R54, R55): where an entry stands, what extracting it reads, and
what `ADDR` answers. -/

namespace Sys2Proof.Machine

/-! ### Where an entry stands -/

/-- The whole entries of a cross stream fit its words (R111). -/
theorem bitAddr_x_end_le (k : Nat) {cnt j : Nat} (hj : j < cnt) :
    bitAddr .x k j + k ≤ 32 * streamWords .x cnt k :=
  calc j * k + k
    _ = (j + 1) * k := (Nat.succ_mul j k).symm
    _ ≤ cnt * k := Nat.mul_le_mul_right k hj
    _ ≤ streamWords .x cnt k * 32 := (ceilDiv_le_iff (by norm_num)).1 le_rfl
    _ = 32 * streamWords .x cnt k := Nat.mul_comm _ _

/-- An entry of a no-cross stream stands in word `j / slotsPerWord k` and ends inside it (R48). -/
theorem bitAddr_nc_slot {k : Nat} (hk : 1 ≤ k) (hk' : k ≤ 32) (j : Nat) :
    bitAddr .nc k j / 32 = j / slotsPerWord k ∧ bitAddr .nc k j % 32 + k ≤ 32 := by
  obtain ⟨hword, hbit, hend⟩ := bitAddr_nc_word (j := j) hk hk' 0 hk
  rw [Nat.add_zero] at hword hbit
  rw [hbit]
  exact ⟨hword, hend⟩

/-- The word of an entry of a no-cross stream is one of the stream's words (R132). -/
theorem slot_word_lt {k cnt j : Nat} (hk : 1 ≤ k) (hk' : k ≤ 32) (hj : j < cnt) :
    j / slotsPerWord k < streamWords .nc cnt k :=
  (lt_ceilDiv_iff (slotsPerWord_pos hk hk')).2 ((Nat.div_mul_le_self j _).trans_lt hj)

/-- The last bit of an entry is inside the stream's words, in either layout (R55). -/
theorem bitAddr_end_le (l : Layout) {cnt k j : Nat} (hk : 1 ≤ k) (hk' : k ≤ 32) (hj : j < cnt) :
    bitAddr l k j + k ≤ 32 * streamWords l cnt k := by
  cases l with
  | x => exact bitAddr_x_end_le k hj
  | nc =>
    obtain ⟨hword, hend⟩ := bitAddr_nc_slot hk hk' j
    have hlt := slot_word_lt hk hk' hj
    omega

/-- Settles O20: a cross entry ends with the first `j + 1` entries; a no-cross entry ends inside its own word, which is a
word of the stream. -/
theorem entriesLieInsideStream : Obligations.EntriesLieInsideStream := by
  rintro l cnt k j hk hk' hj
  refine ⟨bitAddr_end_le l hk hk' hj, ?_⟩
  rintro rfl
  exact (bitAddr_nc_slot hk hk' j).2

/-! ### What extracting an entry reads -/

/-- An extracted entry has at most `k` bits: those above are not taken from the stream (R45). -/
theorem extractWords_lt (l : Layout) (rd : Nat → Word) {k : Nat} (hk : 1 ≤ k) (hk' : k ≤ 32) (j : Nat) :
    extractWords l rd k j < 2 ^ k := by
  refine Nat.lt_pow_two_of_testBit _ fun b hb => ?_
  rw [extractWords_testBit l rd hk hk', decide_eq_false (Nat.not_lt.2 hb), Bool.false_and]

/-- Settles O21: bit `b` of the extracted number is the stream's bit at `bitAddr + b` below `k`, and 0 from `k` on. -/
theorem extractReadsEntryBits : Obligations.ExtractReadsEntryBits := by
  intro s sp l k j hk hk'
  refine ⟨extractWords_lt l _ hk hk' j, fun b hb => ?_⟩
  rw [extractWords_testBit l _ hk hk', decide_eq_true hb, Bool.true_and, streamBit]

/-! ### The widths and word counts that the header of a packed array holds -/

/-- A packer that holds at least one element has the registers of a compress (R30 (c), (d), (f)). -/
theorem HeaderInv.packedShape {h : Header} (hinv : HeaderInv h) (hvalid : h.cfg.valid = true) (hn : 0 < h.n.toNat) :
    h.PackedShape := by
  refine (hinv.shape hvalid).resolve_left fun hfresh => ?_
  rw [hfresh.1] at hn
  exact absurd hn (by decide)

/-- The width of a main-stream entry is legal, and `MAIN_WORDS` is the length of the main stream at that width (R22). -/
theorem Header.PackedShape.main {h : Header} (hs : h.PackedShape) :
    (1 ≤ mainEntryWidth h ∧ mainEntryWidth h ≤ 32) ∧
      h.mainWords.toNat = streamWords (layoutOf h.cfg.kind) h.n.toNat (mainEntryWidth h) := by
  unfold Header.PackedShape at hs
  unfold mainEntryWidth
  split at hs
  · next hover =>
    obtain ⟨-, -, -, hbMain, hle, -, -, hwords, -⟩ := hs
    rw [if_pos hover]
    exact ⟨⟨hbMain ▸ Nat.le_add_right 1 _, hle⟩, hwords⟩
  · next hbase =>
    obtain ⟨hk, hk', -, -, -, -, -, hwords⟩ := hs
    rw [if_neg hbase]
    exact ⟨⟨hk, hk'⟩, hwords⟩

/-- When the overflow table is not empty, `K_OVER` is legal and `OVF_WORDS` is the length of the table (R20, R23). -/
theorem Header.PackedShape.table {h : Header} (hs : h.PackedShape) (hover : isOverflow h.cfg.kind = true)
    (hm : 0 < h.m.toNat) :
    (1 ≤ h.kOver.toNat ∧ h.kOver.toNat ≤ 32) ∧
      h.ovfWords.toNat = streamWords (layoutOf h.cfg.kind) h.m.toNat h.kOver.toNat := by
  unfold Header.PackedShape at hs
  rw [if_pos hover] at hs
  obtain ⟨-, -, -, -, -, -, hkOver, -, hwords⟩ := hs
  have hm0 : h.m ≠ 0 := fun hzero => absurd (hzero ▸ hm) (by decide)
  obtain ⟨hlow, hhigh⟩ := hkOver hm0
  exact ⟨⟨Nat.le_of_succ_le hlow, hhigh⟩, hwords.trans (if_neg hm.ne')⟩

/-! ### What `ADDR` answers -/

/-- R54 by the kind, as `ADDR` applies it. -/
theorem bitAddr_layoutOf (kd : Kind) (k j : Nat) :
    bitAddr (layoutOf kd) k j =
      if kd = .cross ∨ kd = .overflowCross then j * k else j / (32 / k) * 32 + j % (32 / k) * k := by
  cases kd <;> simp [layoutOf, bitAddr, slotsPerWord]

/-- The width of a main-stream entry by the kind (R182). -/
theorem mainEntryWidth_eq (h : Header) :
    mainEntryWidth h = if h.cfg.kind = .cross ∨ h.cfg.kind = .nocross then h.k.toNat else h.bMain.toNat := by
  unfold mainEntryWidth
  cases h.cfg.kind <;> simp [isOverflow]

/-- `ADDR 0, j` of an element of the array (R182). -/
theorem exec_addr_main {s : State} {j : Word} (hvalid : s.hasPacker = true) (hj : j.toNat < s.hdr.n.toNat)
    (hk : 1 ≤ mainEntryWidth s.hdr ∧ mainEntryWidth s.hdr ≤ 32) :
    exec (.addr .main j) s =
      .next (s.answer .ok (BitVec.ofNat 32 (bitAddr s.layout (mainEntryWidth s.hdr) j.toNat))) :=
  execAddr_main_next.2 (.inr (.inr ⟨hvalid, hj, respondBitAddr_next.2 ⟨hk, rfl⟩⟩))

/-- `ADDR 1, j` of an entry of the overflow table (R182). -/
theorem exec_addr_overflow {s : State} {j : Word} (hvalid : s.hasPacker = true)
    (hover : isOverflow s.hdr.cfg.kind = true) (hj : j.toNat < s.hdr.m.toNat)
    (hk : 1 ≤ s.hdr.kOver.toNat ∧ s.hdr.kOver.toNat ≤ 32) :
    exec (.addr .overflow j) s =
      .next (s.answer .ok (BitVec.ofNat 32 (bitAddr s.layout s.hdr.kOver.toNat j.toNat))) :=
  execAddr_overflow_next.2 (.inr ⟨⟨hvalid, hover⟩, .inr ⟨hj, respondBitAddr_next.2 ⟨hk, rfl⟩⟩⟩)

/-- Settles O40: a stream with an entry `j` has a legal width and the word count of that width, so the translator is
defined and the entry ends inside the stream. -/
theorem addrResult : Obligations.AddrResult := by
  intro s j hinv hvalid
  simp only [← bitAddr_layoutOf, ← mainEntryWidth_eq]
  constructor
  · intro hj
    obtain ⟨hk, hwords⟩ := (hinv.packedShape hvalid (Nat.zero_lt_of_lt hj)).main
    exact ⟨exec_addr_main hvalid hj hk, hwords ▸ bitAddr_end_le _ hk.1 hk.2 hj⟩
  · intro hover hj
    have hm : 0 < s.hdr.m.toNat := Nat.zero_lt_of_lt hj
    obtain ⟨hk, hwords⟩ := (hinv.packedShape hvalid (hm.trans_le hinv.m_le)).table hover hm
    exact ⟨exec_addr_overflow hvalid hover hj hk, hwords ▸ bitAddr_end_le _ hk.1 hk.2 hj⟩

end Sys2Proof.Machine
end

section
/-! The read commands (R51), who writes which memory (R40, R43), and the canonical form of the memories. -/

namespace Sys2Proof.Machine

/-! ### The read commands -/

/-- The command gives one response and changes nothing else, and the response does not depend on the earlier ones
(R12, R51). -/
def AnswersOnly (i : Instr) (s : State) : Prop :=
  ∃ e v, ∀ old, exec i { s with responses := old } = .next (State.answer { s with responses := old } e v)

/-- The three reads within a valid length only answer (R201 to R203). -/
theorem readWithin_answersOnly {i : Instr} {sp : Space} {len : Header → Word} {idx : Nat}
    (hi : ∀ s, exec i s = readWithin sp (len s.hdr) idx s) {s t : State} (h : exec i s = .next t) : AnswersOnly i s := by
  rw [hi] at h
  rcases readWithin_next.1 h with ⟨hidx, -⟩ | ⟨hidx, hword, -⟩
  · exact ⟨_, _, fun _ => (hi _).trans (readWithin_next.2 (.inl ⟨hidx, rfl⟩))⟩
  · exact ⟨_, s.word sp idx, fun _ => (hi _).trans (readWithin_next.2 (.inr ⟨hidx, hword, rfl⟩))⟩

/-- Each of the twelve read commands, in each way it can end, only answers. -/
theorem answersOnly_of_isReader {i : Instr} {s t : State} (hi : isReader i = true) (h : exec i s = .next t) :
    AnswersOnly i s := by
  cases i with
  | create kind signed zigzag => cases hi
  | compress len => cases hi
  | compressk k len => cases hi
  | decompress len => cases hi
  | wrin idx v => cases hi
  | get j =>
    rcases execGet_next.1 h with ⟨hv, -⟩ | ⟨hv, hj, -⟩ | ⟨hv, hj, v, hget, -⟩
    · exact ⟨_, _, fun _ => execGet_next.2 (.inl ⟨hv, rfl⟩)⟩
    · exact ⟨_, _, fun _ => execGet_next.2 (.inr (.inl ⟨hv, hj, rfl⟩))⟩
    · exact ⟨_, _, fun _ => execGet_next.2 (.inr (.inr ⟨hv, hj, v, hget, rfl⟩))⟩
  | size =>
    rcases execSize_next.1 h with ⟨hv, -⟩ | ⟨hv, -⟩
    · exact ⟨_, _, fun _ => execSize_next.2 (.inl ⟨hv, rfl⟩)⟩
    · exact ⟨_, s.hdr.n, fun _ => execSize_next.2 (.inr ⟨hv, rfl⟩)⟩
  | addr st j =>
    cases st with
    | main =>
      rcases execAddr_main_next.1 h with ⟨hv, -⟩ | ⟨hv, hj, -⟩ | ⟨hv, hj, haddr⟩
      · exact ⟨_, _, fun _ => execAddr_main_next.2 (.inl ⟨hv, rfl⟩)⟩
      · exact ⟨_, _, fun _ => execAddr_main_next.2 (.inr (.inl ⟨hv, hj, rfl⟩))⟩
      · exact ⟨_, .ofNat 32 (bitAddr s.layout (mainEntryWidth s.hdr) j.toNat), fun _ =>
          exec_addr_main hv hj (respondBitAddr_next.1 haddr).1⟩
    | overflow =>
      rcases execAddr_overflow_next.1 h with ⟨hv, -⟩ | ⟨⟨hv, hover⟩, ⟨hj, -⟩ | ⟨hj, haddr⟩⟩
      · exact ⟨_, _, fun _ => execAddr_overflow_next.2 (.inl ⟨hv, rfl⟩)⟩
      · exact ⟨_, _, fun _ => execAddr_overflow_next.2 (.inr ⟨⟨hv, hover⟩, .inl ⟨hj, rfl⟩⟩)⟩
      · exact ⟨_, .ofNat 32 (bitAddr s.layout s.hdr.kOver.toNat j.toNat), fun _ =>
          exec_addr_overflow hv hover hj (respondBitAddr_next.1 haddr).1⟩
  | bitwidth v => exact ⟨_, _, fun _ => rfl⟩
  | zzenc x => exact ⟨_, _, fun _ => rfl⟩
  | zzdec u => exact ⟨_, _, fun _ => rfl⟩
  | tcenc k x =>
    rcases execTcenc_next.1 h with ⟨hk, -⟩ | ⟨hk, hx, -⟩ | ⟨hk, hx, -⟩
    · exact ⟨_, _, fun _ => execTcenc_next.2 (.inl ⟨hk, rfl⟩)⟩
    · exact ⟨_, _, fun _ => execTcenc_next.2 (.inr (.inl ⟨hk, hx, rfl⟩))⟩
    · exact ⟨_, _, fun _ => execTcenc_next.2 (.inr (.inr ⟨hk, hx, rfl⟩))⟩
  | tcdec k u =>
    rcases execTcdec_next.1 h with ⟨hk, -⟩ | ⟨hk, hu, -⟩ | ⟨hk, hu, -⟩
    · exact ⟨_, _, fun _ => execTcdec_next.2 (.inl ⟨hk, rfl⟩)⟩
    · exact ⟨_, _, fun _ => execTcdec_next.2 (.inr (.inl ⟨hk, hu, rfl⟩))⟩
    · exact ⟨_, _, fun _ => execTcdec_next.2 (.inr (.inr ⟨hk, hu, rfl⟩))⟩
  | rdout idx => exact readWithin_answersOnly (len := Header.outLen) (fun _ => rfl) h
  | rdmain idx => exact readWithin_answersOnly (len := Header.mainWords) (fun _ => rfl) h
  | rdovf idx => exact readWithin_answersOnly (len := Header.ovfWords) (fun _ => rfl) h
  | rdhdr idx =>
    rcases execRdhdr_next.1 h with ⟨hidx, -⟩ | ⟨w, hidx, -⟩
    · exact ⟨_, _, fun _ => execRdhdr_next.2 (.inl ⟨hidx, rfl⟩)⟩
    · exact ⟨_, _, fun _ => execRdhdr_next.2 (.inr ⟨w, hidx, rfl⟩)⟩

/-- Settles O47: a read command only answers, and the response it gives does not depend on the one it has just given. -/
theorem readersChangeNothing : Obligations.ReadersChangeNothing := by
  intro i s t hi h
  obtain ⟨e, v, hanswer⟩ := answersOnly_of_isReader hi h
  have ht : t = s.answer e v := Host.Outcome.next.inj (h.symm.trans (hanswer s.responses))
  subst ht
  exact ⟨⟨e, v⟩, rfl, hanswer _⟩

/-! ### Who writes which memory -/

/-- Settles O49: of the seven ends of a command only a packed array, a decompressed buffer and an input word touch the
memories, each its own space; a compress on a base kind leaves `OVF`. -/
theorem whoWritesWhichMemory : Obligations.WhoWritesWhichMemory := by
  intro i s t h
  rcases exec_effect h with ⟨e, -, -, rfl, -⟩ | ⟨-, v, rfl⟩ | ⟨k, signed, zigzag, kd, -, rfl⟩ |
    ⟨len, k, hi, -, -, -, -, rfl⟩ | ⟨len, rfl, -, -, -, -, rfl⟩ | ⟨vs, rfl, -, -, -, rfl⟩ | ⟨idx, v, rfl, -, rfl⟩
  · exact ⟨absurd rfl, absurd rfl, absurd rfl, absurd rfl⟩
  · exact ⟨absurd rfl, absurd rfl, absurd rfl, absurd rfl⟩
  · exact ⟨absurd rfl, absurd rfl, absurd rfl, absurd rfl⟩
  · refine ⟨absurd rfl, fun _ => ?_, absurd rfl, absurd rfl⟩
    rcases hi with rfl | ⟨k', rfl⟩ <;> simp [Instr.mnemonic]
  · exact ⟨absurd (overflowMemory_input s _), fun _ => by simp [Instr.mnemonic], fun _ => rfl,
      absurd (overflowMemory_out s _)⟩
  · exact ⟨absurd rfl, absurd rfl, absurd rfl, fun _ => rfl⟩
  · exact ⟨fun _ => rfl, absurd rfl, absurd rfl, absurd rfl⟩

/-! ### The canonical form of the memories -/

/-- Writing words in a row to one space keeps the four memories canonical. -/
theorem memSet_memStoreFrom_wf {m : Memory} (h : m.wf) (sp : Space) (a : Nat) (vs : List Word) :
    (memSet m sp (memStoreFrom (memGet m sp) a vs)).wf :=
  memSet_wf h sp (memStoreFrom_wf (memGet_wf h sp) a vs)

/-- The two streams of a compress on an overflow kind leave the memories canonical. -/
theorem overflowMemory_wf {s : State} (h : s.mem.wf) (codes : List Nat) : (overflowMemory s codes).wf := by
  unfold overflowMemory
  dsimp only
  split
  · exact memSet_memStoreFrom_wf h .main 0 _
  · exact memSet_wf (memSet_memStoreFrom_wf h .main 0 _) .ovf (memStoreFrom_wf (memGet_wf h .ovf) 0 _)

/-- Every command keeps the memories canonical. -/
theorem exec_keeps_memory_wf {i : Instr} {s t : State} (hs : s.mem.wf) (h : exec i s = .next t) : t.mem.wf := by
  rcases exec_effect h with ⟨e, -, -, rfl, -⟩ | ⟨-, v, rfl⟩ | ⟨k, signed, zigzag, kd, -, rfl⟩ |
    ⟨len, k, -, -, -, -, -, rfl⟩ | ⟨len, -, -, -, -, -, rfl⟩ | ⟨vs, -, -, -, -, rfl⟩ | ⟨idx, v, -, -, rfl⟩
  · exact hs
  · exact hs
  · exact hs
  · exact memSet_memStoreFrom_wf hs .main 0 _
  · exact overflowMemory_wf hs _
  · exact memSet_memStoreFrom_wf hs .out 0 vs
  · exact memSet_wf hs .input (memStore_wf (memGet_wf hs .input) idx v)

/-- Settles O56: every write keeps the indices of its space rising, and a reset empties the four spaces. -/
theorem stepKeepsMemoryCanonical : Obligations.StepKeepsMemoryCanonical :=
  fun _ _ hs h => step_keeps (P := fun s => s.mem.wf) (fun _ hs => hs) (fun _ _ => reset_wf) (fun _ hs => hs)
    (fun _ _ _ hs h => exec_keeps_memory_wf hs h) hs h

end Sys2Proof.Machine
end

section
/-! The request format (30_encoding.md): the fields of a command word, the decoder by its opcode, and what decoding and
encoding say of each other. -/

namespace Sys2Proof

/-! ### Command words and their fields (R61, R62) -/

section
variable {imm op : Nat} (himm : imm < 2 ^ 24) (hop : op < 2 ^ 8)
include himm hop

theorem commandWord_toNat : (commandWord imm op).toNat = imm * 2 ^ 8 + op := by
  rw [commandWord, BitVec.toNat_ofNat]
  omega

/-- The bits of a command word from bit `8 + lo` on are those of its immediate from bit `lo` on. -/
theorem commandWord_div (lo : Nat) : (commandWord imm op).toNat / 2 ^ (8 + lo) = imm / 2 ^ lo := by
  rw [commandWord_toNat himm hop, pow_add, ← Nat.div_div_eq_div_mul]
  congr 1
  omega

theorem field_commandWord_opcode : field (commandWord imm op) 0 8 = op := by
  rw [field, commandWord_toNat himm hop]
  omega

theorem field_commandWord_imm (lo width : Nat) :
    field (commandWord imm op) (8 + lo) width = imm / 2 ^ lo % 2 ^ width := by
  rw [field, commandWord_div himm hop]

end

theorem field_lt (cmd : Word) (lo width : Nat) : field cmd lo width < 2 ^ width := Nat.mod_lt _ (Nat.two_pow_pos width)

/-- A command word whose bits from `8 + width` on are 0 is its opcode and the immediate of that width. -/
theorem commandWord_of_fields {cmd : Word} {width op : Nat} (hop : field cmd 0 8 = op)
    (hzero : cmd.toNat / 2 ^ (8 + width) = 0) : commandWord (field cmd 8 width) op = cmd := by
  have hlt : cmd.toNat / 2 ^ 8 < 2 ^ width := by
    rw [pow_add, ← Nat.div_div_eq_div_mul] at hzero
    exact (Nat.div_eq_zero_iff_lt (Nat.two_pow_pos width)).1 hzero
  apply BitVec.eq_of_toNat_eq
  rw [commandWord, BitVec.toNat_ofNat, field, Nat.mod_eq_of_lt hlt, ← hop, field]
  omega

theorem bitField_toNat (cmd : Word) (j : Nat) : (bitField cmd j).toNat = cmd.toNat / 2 ^ j % 2 := by
  unfold bitField field
  rcases Nat.mod_two_eq_zero_or_one (cmd.toNat / 2 ^ j) with h | h <;> simp [h]

/-! ### The decoder by its opcode (R62, R64) -/

/-- The first bit of the `zero` field (R62) and the command of an opcode of R64; the format `X` has no bit left over. -/
def commandOf (cmd arg : Word) : Nat → Option (Nat × Instr)
  | 0x01 => some (18, .create (field cmd 8 8) (bitField cmd 16) (bitField cmd 17))
  | 0x02 => some (8, .compress arg)
  | 0x03 => some (16, .compressk (field cmd 8 8) arg)
  | 0x04 => some (8, .get arg)
  | 0x05 => some (8, .decompress arg)
  | 0x06 => some (8, .size)
  | 0x07 => some (9, .addr (if bitField cmd 8 then .overflow else .main) arg)
  | 0x10 => some (8, .bitwidth arg)
  | 0x11 => some (8, .zzenc arg)
  | 0x12 => some (8, .zzdec arg)
  | 0x13 => some (16, .tcenc (field cmd 8 8) arg)
  | 0x14 => some (16, .tcdec (field cmd 8 8) arg)
  | 0x20 => some (32, .wrin (field cmd 8 24) arg)
  | 0x21 => some (32, .rdout (field cmd 8 24))
  | 0x22 => some (32, .rdmain (field cmd 8 24))
  | 0x23 => some (32, .rdovf (field cmd 8 24))
  | 0x24 => some (32, .rdhdr (field cmd 8 24))
  | _ => none

theorem whenZeroFrom_eq_ok {cmd : Word} {lo : Nat} {i j : Instr} :
    whenZeroFrom cmd lo i = .ok j ↔ cmd.toNat / 2 ^ lo = 0 ∧ i = j := by
  unfold whenZeroFrom
  split <;> simp [*]

theorem whenZeroFrom_word (cmd : Word) (i : Instr) : whenZeroFrom cmd 32 i = .ok i :=
  whenZeroFrom_eq_ok.2 ⟨Nat.div_eq_of_lt cmd.isLt, rfl⟩

/-- The decoder looks up the opcode and then checks the `zero` field. -/
theorem decode_eq_commandOf (cmd arg : Word) :
    decode cmd arg = (commandOf cmd arg (field cmd 0 8)).elim (.error .reservedOpcode)
      fun c => whenZeroFrom cmd c.1 c.2 := by
  unfold decode
  generalize field cmd 0 8 = op
  split <;> simp [commandOf, whenZeroFrom_word]

/-- A request decodes to the command of its opcode, and only if that command's `zero` field is all zeros (R66). -/
theorem decode_eq_ok {cmd arg : Word} {i : Instr} :
    decode cmd arg = .ok i ↔ ∃ lo, commandOf cmd arg (field cmd 0 8) = some (lo, i) ∧ cmd.toNat / 2 ^ lo = 0 := by
  rw [decode_eq_commandOf]
  cases hc : commandOf cmd arg (field cmd 0 8) with
  | none => simp
  | some c =>
    obtain ⟨lo, j⟩ := c
    simp [whenZeroFrom_eq_ok, and_comm]

/-! ### What decoding and encoding say of each other -/

/-- A request written with an immediate of `width` bits decodes to the command of its opcode, with the immediate that was
written. -/
theorem decode_commandWord {imm op width : Nat} {arg : Word} (f : Nat → Instr) (himm : imm < 2 ^ width)
    (hwidth : width ≤ 24) (hop : op < 2 ^ 8)
    (hc : commandOf (commandWord imm op) arg op = some (8 + width, f (field (commandWord imm op) 8 width))) :
    decode (commandWord imm op) arg = .ok (f imm) := by
  have himm' : imm < 2 ^ 24 := himm.trans_le (Nat.pow_le_pow_right (by decide) hwidth)
  have hfield : field (commandWord imm op) 8 width = imm := by
    rw [← Nat.add_zero 8, field_commandWord_imm himm' hop, pow_zero, Nat.div_one, Nat.mod_eq_of_lt himm]
  refine decode_eq_ok.2 ⟨8 + width, ?_, ?_⟩
  · rw [field_commandWord_opcode himm' hop, hc, hfield]
  · rw [commandWord_div himm' hop, Nat.div_eq_of_lt himm]

/-- A request without an immediate (R62 format `Z`). -/
theorem decode_commandWord_zero {op : Nat} {arg : Word} {i : Instr} (hop : op < 2 ^ 8)
    (hc : commandOf (commandWord 0 op) arg op = some (8, i)) : decode (commandWord 0 op) arg = .ok i :=
  decode_commandWord (width := 0) (fun _ => i) (by decide) (by decide) hop hc

/-- The command of a `CREATE` immediate (R62 format `C`): kind, `SIGNED` and `ZIGZAG`, from the lowest bit up. -/
def createOf (imm : Nat) : Instr := .create (imm % 2 ^ 8) (decide (imm / 2 ^ 8 % 2 = 1)) (decide (imm / 2 ^ 9 % 2 = 1))

/-- The three fields of `CREATE` are those of its ten-bit immediate. -/
theorem commandOf_create (cmd arg : Word) : commandOf cmd arg 0x01 = some (18, createOf (field cmd 8 10)) := by
  have hkind : field cmd 8 8 = field cmd 8 10 % 2 ^ 8 := by unfold field; omega
  have hsigned : field cmd 16 1 = field cmd 8 10 / 2 ^ 8 % 2 := by unfold field; omega
  have hzigzag : field cmd 17 1 = field cmd 8 10 / 2 ^ 9 % 2 := by unfold field; omega
  rw [commandOf, createOf, bitField, bitField, hkind, hsigned, hzigzag]

theorem createOf_encoded {kind : Nat} (hkind : kind < 2 ^ 8) (signed zigzag : Bool) :
    zigzag.toNat * 2 ^ 9 + signed.toNat * 2 ^ 8 + kind < 2 ^ 10 ∧
      createOf (zigzag.toNat * 2 ^ 9 + signed.toNat * 2 ^ 8 + kind) = .create kind signed zigzag := by
  generalize himm : zigzag.toNat * 2 ^ 9 + signed.toNat * 2 ^ 8 + kind = imm
  have hs := signed.toNat_le
  have hz := zigzag.toNat_le
  have hk : imm % 2 ^ 8 = kind := by omega
  have hsigned : imm / 2 ^ 8 % 2 = signed.toNat := by omega
  have hzigzag : imm / 2 ^ 9 % 2 = zigzag.toNat := by omega
  refine ⟨by omega, ?_⟩
  rw [createOf, hk, hsigned, hzigzag]
  cases signed <;> cases zigzag <;> rfl

/-- Settles O1: the decoder finds the opcode that the encoder wrote, a zero `zero` field above the immediate, and in the
immediate's own bits the number that was written there. -/
theorem decodeOfEncode : Obligations.DecodeOfEncode := by
  intro i hi
  cases i with
  | create kind signed zigzag =>
    obtain ⟨himm, hcreate⟩ := createOf_encoded (of_decide_eq_true hi) signed zigzag
    exact (decode_commandWord (width := 10) createOf himm (by decide) (by decide) (commandOf_create _ _)).trans
      (congrArg Except.ok hcreate)
  | compress len => exact decode_commandWord_zero (by decide) rfl
  | compressk k len =>
    exact decode_commandWord (fun k => .compressk k len) (of_decide_eq_true hi) (by decide) (by decide) rfl
  | get j => exact decode_commandWord_zero (by decide) rfl
  | decompress len => exact decode_commandWord_zero (by decide) rfl
  | size => exact decode_commandWord_zero (by decide) rfl
  | addr s j =>
    cases s with
    | main => exact decode_commandWord (width := 1) (fun _ => .addr .main j) (by decide) (by decide) (by decide) rfl
    | overflow =>
      exact decode_commandWord (width := 1) (fun _ => .addr .overflow j) (by decide) (by decide) (by decide) rfl
  | bitwidth v => exact decode_commandWord_zero (by decide) rfl
  | zzenc x => exact decode_commandWord_zero (by decide) rfl
  | zzdec u => exact decode_commandWord_zero (by decide) rfl
  | tcenc k x => exact decode_commandWord (fun k => .tcenc k x) (of_decide_eq_true hi) (by decide) (by decide) rfl
  | tcdec k u => exact decode_commandWord (fun k => .tcdec k u) (of_decide_eq_true hi) (by decide) (by decide) rfl
  | wrin idx v => exact decode_commandWord (fun idx => .wrin idx v) (of_decide_eq_true hi) (by decide) (by decide) rfl
  | rdout idx => exact decode_commandWord .rdout (of_decide_eq_true hi) (by decide) (by decide) rfl
  | rdmain idx => exact decode_commandWord .rdmain (of_decide_eq_true hi) (by decide) (by decide) rfl
  | rdovf idx => exact decode_commandWord .rdovf (of_decide_eq_true hi) (by decide) (by decide) rfl
  | rdhdr idx => exact decode_commandWord .rdhdr (of_decide_eq_true hi) (by decide) (by decide) rfl

/-- A command word with nothing above its opcode. -/
theorem commandWord_zero_of_opcode {cmd : Word} {op : Nat} (hop : field cmd 0 8 = op) (hzero : cmd.toNat / 2 ^ 8 = 0) :
    commandWord 0 op = cmd := by
  rw [← commandWord_of_fields (width := 0) hop hzero, field, pow_zero, Nat.mod_one]

/-- The immediate of `CREATE` (R62 format `C`), put together from its three fields. -/
theorem create_immediate (cmd : Word) :
    (bitField cmd 17).toNat * 2 ^ 9 + (bitField cmd 16).toNat * 2 ^ 8 + field cmd 8 8 = field cmd 8 10 := by
  rw [bitField_toNat, bitField_toNat, field, field]
  omega

theorem encode_addr (b : Bool) (j : Word) :
    encode (.addr (if b then .overflow else .main) j) = ⟨commandWord b.toNat 0x07, j⟩ := by
  cases b <;> rfl

/-- What the decoder reads at an opcode is a well-formed command, and its own request has the word that was read. -/
theorem encode_of_commandOf {cmd arg : Word} {lo : Nat} {i : Instr}
    (hc : commandOf cmd arg (field cmd 0 8) = some (lo, i)) (hzero : cmd.toNat / 2 ^ lo = 0) :
    i.wellFormed = true ∧ (encode i).cmd = cmd ∧ ((encode i).arg = arg ∨
      ((encode i).arg = 0 ∧ ∀ arg', commandOf cmd arg' (field cmd 0 8) = some (lo, i))) := by
  generalize hop : field cmd 0 8 = op at hc ⊢
  have hkind : decide (field cmd 8 8 < 2 ^ 8) = true := decide_eq_true (field_lt cmd 8 8)
  have hidx : decide (field cmd 8 24 < 2 ^ 24) = true := decide_eq_true (field_lt cmd 8 24)
  unfold commandOf at hc
  split at hc
  -- Format C
  case h_1 =>
    cases hc
    refine ⟨hkind, ?_, .inr ⟨rfl, fun _ => rfl⟩⟩
    rw [encode, create_immediate]
    exact commandWord_of_fields (width := 10) hop hzero
  -- Format S
  case h_7 =>
    cases hc
    rw [encode_addr, bitField_toNat]
    exact ⟨rfl, commandWord_of_fields (width := 1) hop hzero, .inl rfl⟩
  -- Format Z, without and with an operand
  case h_6 =>
    cases hc
    exact ⟨rfl, commandWord_zero_of_opcode hop hzero, .inr ⟨rfl, fun _ => rfl⟩⟩
  case h_2 | h_4 | h_5 | h_8 | h_9 | h_10 =>
    cases hc
    exact ⟨rfl, commandWord_zero_of_opcode hop hzero, .inl rfl⟩
  -- Format K
  case h_3 | h_11 | h_12 =>
    cases hc
    exact ⟨hkind, commandWord_of_fields (width := 8) hop hzero, .inl rfl⟩
  -- Format X, with and without an operand
  case h_13 =>
    cases hc
    exact ⟨hidx, commandWord_of_fields (width := 24) hop hzero, .inl rfl⟩
  case h_14 | h_15 | h_16 | h_17 =>
    cases hc
    exact ⟨hidx, commandWord_of_fields (width := 24) hop hzero, .inr ⟨rfl, fun _ => rfl⟩⟩
  -- A reserved opcode
  case h_18 => cases hc

/-- Settles O2: the fields that the decoder reads are the whole command word, and a command without an operand is read
alike from every operand. -/
theorem encodeOfDecode : Obligations.EncodeOfDecode := by
  intro cmd arg i h
  obtain ⟨lo, hc, hzero⟩ := decode_eq_ok.1 h
  obtain ⟨hwf, hcmd, harg⟩ := encode_of_commandOf hc hzero
  refine ⟨hwf, hcmd, harg.imp id ?_⟩
  rintro ⟨h0, hall⟩
  exact ⟨h0, fun arg' => decode_eq_ok.2 ⟨lo, hall arg', hzero⟩⟩

/-! ### The opcode table (R64) and the requests that are no commands (R65, R66) -/

/-- The mask of a row: the opcode byte and the `zero` field from bit `lo` on. -/
def formatMask (lo : Nat) : Word := BitVec.allOnes 32 <<< lo ||| (BitVec.allOnes 8).setWidth 32

theorem formatMask_bit {lo b : Nat} (hb : b < 32) :
    (formatMask lo).getLsbD b = (decide (lo ≤ b) || decide (b < 8)) := by
  rw [formatMask, BitVec.getLsbD_or, BitVec.getLsbD_shiftLeft, BitVec.getLsbD_allOnes, BitVec.getLsbD_setWidth,
    BitVec.getLsbD_allOnes]
  grind

/-- A word that matches a row's value under its mask has the row's opcode and an empty `zero` field. -/
theorem fields_of_match {cmd : Word} {lo op : Nat} (hlo : 8 ≤ lo) (hop : op < 2 ^ 8)
    (h : cmd &&& formatMask lo = BitVec.ofNat 32 op) : field cmd 0 8 = op ∧ cmd.toNat / 2 ^ lo = 0 := by
  have hbit : ∀ b, lo ≤ b ∨ b < 8 → cmd.toNat.testBit b = op.testBit b := by
    intro b hmask
    by_cases hb : b < 32
    · have hfixed : (decide (lo ≤ b) || decide (b < 8)) = true := by simpa using hmask
      have hbits : (cmd &&& formatMask lo).getLsbD b = (BitVec.ofNat 32 op).getLsbD b := by rw [h]
      rwa [BitVec.getLsbD_and, formatMask_bit hb, hfixed, Bool.and_true, BitVec.getLsbD_ofNat, decide_eq_true hb,
        Bool.true_and] at hbits
    · have h32 : 2 ^ 32 ≤ 2 ^ b := Nat.pow_le_pow_right (by decide) (Nat.le_of_not_lt hb)
      rw [Nat.testBit_lt_two_pow (cmd.isLt.trans_le h32), Nat.testBit_lt_two_pow (by omega)]
  constructor
  · apply Nat.eq_of_testBit_eq
    intro b
    rw [field, pow_zero, Nat.div_one, Nat.testBit_mod_two_pow]
    by_cases hb : b < 8
    · simp [hb, hbit]
    · have h8 : 2 ^ 8 ≤ 2 ^ b := Nat.pow_le_pow_right (by decide) (Nat.le_of_not_lt hb)
      simp [hb, Nat.testBit_lt_two_pow (hop.trans_le h8)]
  · apply Nat.eq_of_testBit_eq
    intro b
    have h8 : 2 ^ 8 ≤ 2 ^ (b + lo) := Nat.pow_le_pow_right (by decide) (by omega)
    rw [Nat.testBit_div_two_pow, hbit (b + lo) (.inl (Nat.le_add_left _ _)),
      Nat.testBit_lt_two_pow (hop.trans_le h8), Nat.zero_testBit]

/-- Every row fixes its opcode byte and the `zero` field of the command that the decoder reads there. -/
theorem row_format : ∀ row ∈ opcodeTable, ∃ lo op, 8 ≤ lo ∧ op < 2 ^ 8 ∧ row.mask = formatMask lo ∧
    row.value = BitVec.ofNat 32 op ∧
    ∀ cmd arg, ∃ i, commandOf cmd arg op = some (lo, i) ∧ i.mnemonic = row.mnemonic := by
  simp only [opcodeTable, List.forall_mem_cons, List.not_mem_nil, false_imp_iff, implies_true, and_true]
  refine ⟨⟨18, 1, ?_⟩, ⟨8, 2, ?_⟩, ⟨16, 3, ?_⟩, ⟨8, 4, ?_⟩, ⟨8, 5, ?_⟩, ⟨8, 6, ?_⟩, ⟨9, 7, ?_⟩, ⟨8, 0x10, ?_⟩,
    ⟨8, 0x11, ?_⟩, ⟨8, 0x12, ?_⟩, ⟨16, 0x13, ?_⟩, ⟨16, 0x14, ?_⟩, ⟨32, 0x20, ?_⟩, ⟨32, 0x21, ?_⟩, ⟨32, 0x22, ?_⟩,
    ⟨32, 0x23, ?_⟩, ⟨32, 0x24, ?_⟩⟩
  all_goals exact ⟨by decide, by decide, by decide, rfl, fun _ _ => ⟨_, rfl, rfl⟩⟩

/-- The table has one row for each mnemonic. -/
theorem row_eq_of_mnemonic :
    ∀ row ∈ opcodeTable, ∀ row' ∈ opcodeTable, row.mnemonic = row'.mnemonic → row = row' := by decide

/-- Every command's own request matches the row of its mnemonic. -/
theorem encodesInItsRow (i : Instr) : Laws.EncodesInItsRow.Statement i := by
  cases i with
  | create kind signed zigzag => exact Laws.EncodesInItsRow.create kind signed zigzag
  | compress len => exact Laws.EncodesInItsRow.compress len
  | compressk k len => exact Laws.EncodesInItsRow.compressk k len
  | get j => exact Laws.EncodesInItsRow.get j
  | decompress len => exact Laws.EncodesInItsRow.decompress len
  | size => exact Laws.EncodesInItsRow.size
  | addr s j => exact Laws.EncodesInItsRow.addr s j
  | bitwidth v => exact Laws.EncodesInItsRow.bitwidth v
  | zzenc x => exact Laws.EncodesInItsRow.zzenc x
  | zzdec u => exact Laws.EncodesInItsRow.zzdec u
  | tcenc k x => exact Laws.EncodesInItsRow.tcenc k x
  | tcdec k u => exact Laws.EncodesInItsRow.tcdec k u
  | wrin idx v => exact Laws.EncodesInItsRow.wrin idx v
  | rdout idx => exact Laws.EncodesInItsRow.rdout idx
  | rdmain idx => exact Laws.EncodesInItsRow.rdmain idx
  | rdovf idx => exact Laws.EncodesInItsRow.rdovf idx
  | rdhdr idx => exact Laws.EncodesInItsRow.rdhdr idx

/-- Settles O3: a matching word has the row's opcode and an empty `zero` field, so it decodes; a word that decodes is the
command word of its command, which matches the one row of that mnemonic. -/
theorem decodeFollowsOpcodeTable : Obligations.DecodeFollowsOpcodeTable := by
  intro cmd arg row hrow
  constructor
  · intro hmatch
    obtain ⟨lo, op, hlo, hop, hmask, hvalue, hcommand⟩ := row_format row hrow
    rw [hmask, hvalue] at hmatch
    obtain ⟨hopcode, hzero⟩ := fields_of_match hlo hop hmatch
    obtain ⟨i, hc, hname⟩ := hcommand cmd arg
    exact ⟨i, decode_eq_ok.2 ⟨lo, hopcode ▸ hc, hzero⟩, hname⟩
  · rintro ⟨i, hdec, hname⟩
    obtain ⟨hwf, hcmd, -⟩ := encodeOfDecode cmd arg i hdec
    obtain ⟨row', hrow', hname', hmatch⟩ := encodesInItsRow i hwf
    obtain rfl := row_eq_of_mnemonic row' hrow' row hrow (hname'.trans hname)
    rwa [hcmd] at hmatch

/-- Settles O4: the decoder evaluated on the eight words. -/
theorem decodingOfWrittenWords : Obligations.DecodingOfWrittenWords := by
  unfold Obligations.DecodingOfWrittenWords
  decide

theorem field_opcode (cmd : Word) : field cmd 0 8 = cmd.toNat % 256 := by
  rw [field, pow_zero, Nat.div_one]
  rfl

/-- The opcodes of R65 are those of no command. -/
theorem commandOf_reserved (cmd arg : Word) {op : Nat}
    (h : op = 0x00 ∨ (0x08 ≤ op ∧ op ≤ 0x0F) ∨ (0x15 ≤ op ∧ op ≤ 0x1F) ∨ 0x25 ≤ op) : commandOf cmd arg op = none := by
  unfold commandOf
  split
  case h_18 => rfl
  all_goals omega

/-- A request that does not decode is taken off the channel and answered `(IllegalCommand, 0)`. -/
theorem step_of_undecoded {s : Machine.State} {cmd arg : Word} {rest : List Machine.HostInput}
    (hin : s.inputs = .request cmd arg :: rest) (hdec : ∀ i, decode cmd arg ≠ .ok i) :
    Machine.step s = .next { s with inputs := rest, responses := s.responses ++ [⟨.illegalCommand, 0⟩] } := by
  cases h : decode cmd arg with
  | ok i => exact absurd h (hdec i)
  | error e => rw [Machine.step_of_decode_error hin h, Machine.raise_eq, Machine.dropInput, hin, List.tail_cons]

/-- Settles O5: a reserved opcode is that of no command, so the request does not decode. -/
theorem reservedOpcodeIsIllegal : Obligations.ReservedOpcodeIsIllegal := by
  intro s cmd arg rest hin hop
  refine step_of_undecoded hin fun i hdec => ?_
  obtain ⟨lo, hc, -⟩ := decode_eq_ok.1 hdec
  rw [field_opcode, commandOf_reserved cmd arg hop] at hc
  cases hc

/-- Settles O6: the decoder reads the command of the listed opcode and finds its `zero` field, which begins at the bit of
its format, not empty. -/
theorem nonzeroZeroFieldIsIllegal : Obligations.NonzeroZeroFieldIsIllegal := by
  intro s cmd arg rest hin hfields
  have hcommand : ∃ lo j, commandOf cmd arg (cmd.toNat % 256) = some (lo, j) ∧ cmd.toNat / 2 ^ lo ≠ 0 := by
    generalize cmd.toNat % 256 = op at hfields
    rcases hfields with ⟨rfl, hz⟩ | ⟨hop, hz⟩ | ⟨rfl, hz⟩ | ⟨hop, hz⟩
    · exact ⟨18, _, rfl, hz⟩
    · rcases hop with rfl | rfl | rfl <;> exact ⟨16, _, rfl, hz⟩
    · exact ⟨9, _, rfl, hz⟩
    · rcases hop with rfl | rfl | rfl | rfl | rfl | rfl | rfl <;> exact ⟨8, _, rfl, hz⟩
  refine step_of_undecoded hin fun i hdec => ?_
  obtain ⟨lo, j, hc, hz⟩ := hcommand
  obtain ⟨lo', hc', hzero⟩ := decode_eq_ok.1 hdec
  rw [field_opcode, hc] at hc'
  cases hc'
  exact hz hzero

end Sys2Proof
end

section
/-! Every request is answered (R60): what a command that goes on has given, and, where the invariants hold, that every
command goes on: each width it uses is legal and each word it touches exists. -/

namespace Sys2Proof.Machine

/-- Settles O44: each of the seven ends of a command appends one response and leaves the channel and the resets alone. -/
theorem everyCommandAnswersOnce : Obligations.EveryCommandAnswersOnce := by
  intro i s t h
  rcases exec_effect h with ⟨e, -, -, rfl, -⟩ | ⟨-, v, rfl⟩ | ⟨k, signed, zigzag, kd, -, rfl⟩ |
    ⟨len, k, -, -, -, -, -, rfl⟩ | ⟨len, -, -, -, -, -, rfl⟩ | ⟨vs, -, -, -, -, rfl⟩ | ⟨idx, v, -, -, rfl⟩
  all_goals exact ⟨⟨_, rfl⟩, rfl, rfl⟩

/-! ### Compressing (R172 to R175) -/

theorem zzEnc_s32_lt (w : Word) : zzEnc (s32 w) < 2 ^ 32 := by
  have hw := w.isLt
  unfold zzEnc s32
  split <;> split <;> omega

/-- A code is a 32-bit number, in every mode (R102). -/
theorem inputCodes_lt_word {s : State} {len c : Nat} (hc : c ∈ s.inputCodes len) : c < 2 ^ 32 := by
  rw [State.inputCodes] at hc
  cases hmode : modeOf s.hdr.cfg with
  | none =>
    rw [hmode] at hc
    obtain ⟨w, -, rfl⟩ := List.mem_map.1 hc
    exact w.isLt
  | zigzag =>
    rw [hmode] at hc
    obtain ⟨w, -, rfl⟩ := List.mem_map.1 hc
    exact zzEnc_s32_lt w
  | twos =>
    rw [hmode] at hc
    exact (encodeArray_twos_lt hc).trans_le (Nat.pow_le_pow_right (by decide) (kTcFor_twos_bounds _).2)

/-- The width of the largest of some 32-bit numbers is legal. -/
theorem bitWidthFor_maxOf_le {vs : List Nat} (h : ∀ v ∈ vs, v < 2 ^ 32) : bitWidthFor (maxOf vs) ≤ 32 := by
  rw [bitWidthFor_le_iff (by decide), Nat.lt_iff_le_pred (by decide), maxOf_le_iff]
  exact fun v hv => Nat.le_pred_of_lt (h v hv)

/-- Packing at a legal width finds room for an array that fits `IN`. -/
theorem compressBase_progress {s : State} {len : Word} {k : Nat} (hk : 1 ≤ k) (hk' : k ≤ 32)
    (hlen : len.toNat ≤ s.hdr.nmax.toNat) : ∃ t, compressBase s len k = .next t :=
  ⟨_, compressBase_next.2 ⟨⟨hk, hk'⟩, (streamWords_le _ _ hk hk').trans hlen, rfl⟩⟩

/-- The widths that the selector picks are legal for an array of at most `2^24` codes of 32 bits (R149). -/
theorem packableChoice_of_codes {codes : List Nat} (hlen : codes.length ≤ 2 ^ 24) (hcodes : ∀ c ∈ codes, c < 2 ^ 32) :
    PackableChoice codes := by
  constructor
  · have hks := (selectKSmall_kSmall_bounds codes).2
    have hm := (selectKSmall_m_le codes).trans hlen
    have hindex : bitWidthFor ((selectKSmall codes).m - 1) ≤ 24 := (bitWidthFor_le_iff (by decide)).2 (by omega)
    rw [selectKSmall_bMain, bMainFor]
    omega
  · intro hm
    rw [selectKSmall_m, Ne, List.length_eq_zero_iff] at hm
    rw [selectKSmall_kOver, kOverFor_eq_bitWidthFor hm]
    exact bitWidthFor_maxOf_le fun c hc => hcodes c (mem_overflowCodes.1 hc).1

/-- With legal widths both streams have room in spaces that hold one word for each code. -/
theorem encodeOverflow_progress {s : State} {codes : List Nat} (hc : PackableChoice codes)
    (hlen : codes.length ≤ s.hdr.nmax.toNat) : ∃ s', encodeOverflow s s.layout codes = .ok s' := by
  have hpos := selectKSmall_bMain_pos codes
  refine ⟨_, encodeOverflow_eq_ok.2 ⟨⟨⟨hpos, hc.1⟩, (streamWords_le _ _ hpos hc.1).trans hlen⟩, fun hm => ?_, rfl⟩⟩
  have hpos := one_le_two.trans (two_le_selectKSmall_kOver hm)
  refine ⟨⟨hpos, hc.2 hm⟩, (streamWords_le _ _ hpos (hc.2 hm)).trans ?_⟩
  rw [← selectKSmall_m]
  exact (selectKSmall_m_le codes).trans hlen

theorem compressOverflow_progress {s : State} {len : Word} (hlen : len.toNat ≤ s.hdr.nmax.toNat)
    (hnmax : s.hdr.nmax.toNat ≤ 2 ^ 24) : ∃ t, compressOverflow s len = .next t := by
  have hcodes := inputCodes_length s len.toNat
  have hc : PackableChoice (s.inputCodes len.toNat) :=
    packableChoice_of_codes (by omega) fun c hc => inputCodes_lt_word hc
  exact ⟨_, compressOverflow_next.2 ⟨encodeOverflow_progress hc (by omega), rfl⟩⟩

theorem execCompress_progress {s : State} (hnmax : s.hdr.nmax.toNat ≤ 2 ^ 24) (len : Word) :
    ∃ t, execCompress len s = .next t := by
  simp only [execCompress_next]
  cases hvalid : s.hdr.cfg.valid with
  | false => exact ⟨_, .inl ⟨.inl rfl, rfl⟩⟩
  | true =>
    rcases Nat.lt_or_ge s.hdr.nmax.toNat len.toNat with hlen | hlen
    · exact ⟨_, .inl ⟨.inr hlen, rfl⟩⟩
    cases hkind : isOverflow s.hdr.cfg.kind with
    | false =>
      obtain ⟨t, ht⟩ := compressBase_progress (one_le_bitWidthFor _)
        (bitWidthFor_maxOf_le fun c hc => inputCodes_lt_word (s := s) (len := len.toNat) hc) hlen
      exact ⟨t, .inr ⟨⟨rfl, hlen⟩, .inl ⟨rfl, ht⟩⟩⟩
    | true =>
      obtain ⟨t, ht⟩ := compressOverflow_progress hlen hnmax
      exact ⟨t, .inr ⟨⟨rfl, hlen⟩, .inr ⟨rfl, ht⟩⟩⟩

theorem execCompressk_progress (s : State) (k : Nat) (len : Word) : ∃ t, execCompressk k len s = .next t := by
  simp only [execCompressk_next]
  cases hvalid : s.hdr.cfg.valid with
  | false => exact ⟨_, .inl ⟨.inl rfl, rfl⟩⟩
  | true =>
    cases hkind : isOverflow s.hdr.cfg.kind with
    | true => exact ⟨_, .inl ⟨.inr (.inl rfl), rfl⟩⟩
    | false =>
      rcases Nat.lt_or_ge s.hdr.nmax.toNat len.toNat with hlen | hlen
      · exact ⟨_, .inl ⟨.inr (.inr hlen), rfl⟩⟩
      cases hwidth : legalWidth k with
      | false => exact ⟨_, .inr ⟨⟨rfl, rfl, hlen⟩, .inl ⟨rfl, rfl⟩⟩⟩
      | true =>
        by_cases hfit : ∀ c ∈ s.inputCodes len.toNat, c ≤ mask k
        · obtain ⟨hk, hk'⟩ := (legalWidth_iff k).1 hwidth
          obtain ⟨t, ht⟩ := compressBase_progress hk hk' hlen
          exact ⟨t, .inr ⟨⟨rfl, rfl, hlen⟩, .inr (.inr ⟨rfl, hfit, ht⟩)⟩⟩
        · push Not at hfit
          exact ⟨_, .inr ⟨⟨rfl, rfl, hlen⟩, .inr (.inl ⟨rfl, hfit, rfl⟩)⟩⟩

/-! ### Reading a packed array (R176 to R178) -/

/-- Extracting an entry of a stream of at most `NMAX` entries at a legal width finds every word it reads. -/
theorem extract_of_lt {s : State} {l : Layout} {k j cnt : Nat} (sp : Space) (hk : 1 ≤ k ∧ k ≤ 32) (hj : j < cnt)
    (hcnt : cnt ≤ s.hdr.nmax.toNat) : extract s sp l k j = .ok (extractWords l (s.word sp) k j) := by
  refine extract_eq_ok.2 ⟨hk, ?_, rfl⟩
  have hend := bitAddr_end_le l hk.1 hk.2 hj
  have hwords := streamWords_le l cnt hk.1 hk.2
  unfold lastWordOf
  omega

section
variable {s : State} {i : Nat} (hinv : Inv s) (hi : i < s.hdr.n.toNat)
include hinv hi

/-- The payload of a record with flag 1 is an index of the overflow table (R30 (d)). -/
theorem Inv.payload_lt (hover : isOverflow s.hdr.cfg.kind = true) (hflag : s.record i % 2 = 1) :
    s.record i / 2 < s.hdr.m.toNat := by
  have hmem : s.record i / 2 ∈ s.overflowPayloads := by
    simp only [State.overflowPayloads, List.mem_map, List.mem_filter, List.mem_range, decide_eq_true_eq]
    exact ⟨s.record i, ⟨⟨i, hi, rfl⟩, hflag⟩, rfl⟩
  rwa [(hinv.overflow hover).payloads, List.mem_range] at hmem

variable (hvalid : s.hdr.cfg.valid = true)
include hvalid

/-- The code of an element of a base kind is its entry (R177). -/
theorem Inv.getCode_base (hbase : isOverflow s.hdr.cfg.kind = false) :
    getCode s i = .ok (extractWords s.layout (s.word .main) s.hdr.k.toNat i) := by
  obtain ⟨hk, -⟩ := (hinv.header.packedShape hvalid (Nat.zero_lt_of_lt hi)).main
  rw [mainEntryWidth, hbase] at hk
  rw [getCode, hbase]
  exact extract_of_lt .main hk hi hinv.header.n_le

/-- The code of an element of an overflow kind is the payload of its record, or the table entry that it names (R156). -/
theorem Inv.getCode_overflow (hover : isOverflow s.hdr.cfg.kind = true) :
    getCode s i = .ok (if s.record i % 2 = 0 then s.record i / 2
      else extractWords s.layout (s.word .ovf) s.hdr.kOver.toNat (s.record i / 2)) := by
  have hshape := hinv.header.packedShape hvalid (Nat.zero_lt_of_lt hi)
  obtain ⟨hk, -⟩ := hshape.main
  rw [mainEntryWidth, if_pos hover] at hk
  have hrecord : extract s .main (layoutOf s.hdr.cfg.kind) s.hdr.bMain.toNat i = .ok (s.record i) :=
    extract_of_lt .main hk hi hinv.header.n_le
  rw [getCode, if_pos hover, getCodeOverflow, hrecord]
  dsimp only
  split
  · rfl
  · next hflag =>
    have hpayload := hinv.payload_lt hi hover (by omega)
    obtain ⟨hkOver, -⟩ := hshape.table hover (Nat.zero_lt_of_lt hpayload)
    exact extract_of_lt .ovf hkOver hpayload (hinv.header.m_le.trans hinv.header.n_le)

/-- Every code decodes: in mode `TWOS` an array that is not empty has a legal `K_TC`. -/
theorem Inv.decodeCode_progress (c : Nat) : ∃ v, decodeCode (modeOf s.hdr.cfg) s.hdr.kTc.toNat c = .ok v := by
  cases hmode : modeOf s.hdr.cfg with
  | none => exact ⟨_, rfl⟩
  | zigzag => exact ⟨_, rfl⟩
  | twos =>
    have hkTc := (hinv.header.kTc_twos hvalid hmode).resolve_left fun ⟨hn, _⟩ => by simp [hn] at hi
    exact ⟨_, if_pos ((legalWidth_iff _).2 hkTc)⟩

theorem Inv.getValue_progress : ∃ v, getValue s i = .ok v := by
  unfold getValue
  cases hkind : isOverflow s.hdr.cfg.kind with
  | false => rw [hinv.getCode_base hi hvalid hkind]; exact hinv.decodeCode_progress hi hvalid _
  | true => rw [hinv.getCode_overflow hi hvalid hkind]; exact hinv.decodeCode_progress hi hvalid _

end

theorem execGet_progress {s : State} (hinv : Inv s) (i : Word) : ∃ t, execGet i s = .next t := by
  simp only [execGet_next]
  cases hvalid : s.hdr.cfg.valid with
  | false => exact ⟨_, .inl ⟨rfl, rfl⟩⟩
  | true =>
    rcases Nat.lt_or_ge i.toNat s.hdr.n.toNat with hi | hi
    · obtain ⟨v, hv⟩ := hinv.getValue_progress hi hvalid
      exact ⟨_, .inr (.inr ⟨rfl, hi, v, hv, rfl⟩)⟩
    · exact ⟨_, .inr (.inl ⟨rfl, hi, rfl⟩)⟩

theorem execDecompress_progress {s : State} (hinv : Inv s) (len : Word) : ∃ t, execDecompress len s = .next t := by
  simp only [execDecompress_next]
  cases hvalid : s.hdr.cfg.valid with
  | false => exact ⟨_, .inl ⟨rfl, rfl⟩⟩
  | true =>
    by_cases hlen : len = s.hdr.n
    · have hvalues : ∀ i, i < s.hdr.n.toNat → ∃ v, getValue s i = .ok v := fun i hi => hinv.getValue_progress hi hvalid
      choose! value hvalue using hvalues
      refine ⟨_, .inr (.inr ⟨rfl, hlen, hinv.header.n_le, (List.range s.hdr.n.toNat).map value, ?_, rfl⟩)⟩
      rw [List.map_map]
      exact List.map_congr_left fun i hi => hvalue i (List.mem_range.1 hi)
    · exact ⟨_, .inr (.inl ⟨rfl, hlen, rfl⟩)⟩

theorem execAddr_progress {s : State} (hinv : HeaderInv s.hdr) (st : Stream) (j : Word) :
    ∃ t, execAddr st j s = .next t := by
  cases hvalid : s.hdr.cfg.valid with
  | false =>
    cases st with
    | main => exact ⟨_, execAddr_main_next.2 (.inl ⟨hvalid, rfl⟩)⟩
    | overflow => exact ⟨_, execAddr_overflow_next.2 (.inl ⟨.inl hvalid, rfl⟩)⟩
  | true =>
    cases st with
    | main =>
      rcases Nat.lt_or_ge j.toNat s.hdr.n.toNat with hj | hj
      · exact ⟨_, exec_addr_main hvalid hj (hinv.packedShape hvalid (Nat.zero_lt_of_lt hj)).main.1⟩
      · exact ⟨_, execAddr_main_next.2 (.inr (.inl ⟨hvalid, hj, rfl⟩))⟩
    | overflow =>
      cases hkind : isOverflow s.hdr.cfg.kind with
      | false => exact ⟨_, execAddr_overflow_next.2 (.inl ⟨.inr hkind, rfl⟩)⟩
      | true =>
        rcases Nat.lt_or_ge j.toNat s.hdr.m.toNat with hj | hj
        · have hm := Nat.zero_lt_of_lt hj
          have hshape := hinv.packedShape hvalid (hm.trans_le hinv.m_le)
          exact ⟨_, exec_addr_overflow hvalid hkind hj (hshape.table hkind hm).1⟩
        · exact ⟨_, execAddr_overflow_next.2 (.inr ⟨⟨hvalid, hkind⟩, .inl ⟨hj, rfl⟩⟩)⟩

/-! ### The other commands

The first five use no partial operation, so each of their branches answers. -/

theorem execCreate_progress (kind : Nat) (signed zigzag : Bool) (s : State) :
    ∃ t, execCreate kind signed zigzag s = .next t := by
  unfold execCreate
  split
  · exact ⟨_, rfl⟩
  · exact ⟨_, rfl⟩

theorem execSize_progress (s : State) : ∃ t, execSize s = .next t := by
  unfold execSize
  split
  · exact ⟨_, rfl⟩
  · exact ⟨_, rfl⟩

theorem execTcenc_progress (k : Nat) (x : Word) (s : State) : ∃ t, execTcenc k x s = .next t := by
  unfold execTcenc
  split
  · exact ⟨_, rfl⟩
  · split
    · exact ⟨_, rfl⟩
    · exact ⟨_, rfl⟩

theorem execTcdec_progress (k : Nat) (u : Word) (s : State) : ∃ t, execTcdec k u s = .next t := by
  unfold execTcdec
  split
  · exact ⟨_, rfl⟩
  · split
    · exact ⟨_, rfl⟩
    · exact ⟨_, rfl⟩

theorem execRdhdr_progress (idx : Nat) (s : State) : ∃ t, execRdhdr idx s = .next t := by
  unfold execRdhdr
  split
  · exact ⟨_, rfl⟩
  · exact ⟨_, rfl⟩

theorem execWrin_progress (idx : Nat) (v : Word) (s : State) : ∃ t, execWrin idx v s = .next t := by
  rcases Nat.lt_or_ge idx s.hdr.nmax.toNat with hidx | hidx
  · exact ⟨_, execWrin_next.2 (.inr ⟨hidx, rfl⟩)⟩
  · exact ⟨_, execWrin_next.2 (.inl ⟨hidx, rfl⟩)⟩

/-- A read within a valid length that is at most `NMAX` finds its word. -/
theorem readWithin_progress {s : State} {len : Word} (hlen : len.toNat ≤ s.hdr.nmax.toNat) (sp : Space) (idx : Nat) :
    ∃ t, readWithin sp len idx s = .next t := by
  rcases Nat.lt_or_ge idx len.toNat with hidx | hidx
  · exact ⟨_, readWithin_next.2 (.inr ⟨hidx, hidx.trans_le hlen, rfl⟩)⟩
  · exact ⟨_, readWithin_next.2 (.inl ⟨hidx, rfl⟩)⟩

/-! ### Every command and every step -/

/-- Where the invariants hold, every command goes on. -/
theorem exec_progress {s : State} (hinv : Inv s) (i : Instr) : ∃ t, exec i s = .next t := by
  have hheader := hinv.header
  cases i with
  | create kind signed zigzag => exact execCreate_progress kind signed zigzag s
  | compress len => exact execCompress_progress hheader.nmax_le len
  | compressk k len => exact execCompressk_progress s k len
  | get j => exact execGet_progress hinv j
  | decompress len => exact execDecompress_progress hinv len
  | size => exact execSize_progress s
  | addr st j => exact execAddr_progress hheader st j
  | bitwidth v => exact ⟨_, rfl⟩
  | zzenc x => exact ⟨_, rfl⟩
  | zzdec u => exact ⟨_, rfl⟩
  | tcenc k x => exact execTcenc_progress k x s
  | tcdec k u => exact execTcdec_progress k u s
  | wrin idx v => exact execWrin_progress idx v s
  | rdout idx => exact readWithin_progress hheader.outLen_le .out idx
  | rdmain idx => exact readWithin_progress (hheader.mainWords_le.trans hheader.n_le) .main idx
  | rdovf idx => exact readWithin_progress (hheader.ovfWords_le.trans (hheader.m_le.trans hheader.n_le)) .ovf idx
  | rdhdr idx => exact execRdhdr_progress idx s

/-- Settles O58: the command of a request goes on, with the one response that every command gives; a request that is no
command is answered at once; the idle step and the reset always complete. -/
theorem everyRequestIsAnswered : Obligations.EveryRequestIsAnswered := by
  intro s hinv
  match hin : s.inputs with
  | [] => exact ⟨s, step_of_idle hin, fun _ _ _ h => nomatch h⟩
  | .reset :: rest => exact ⟨_, step_of_reset hin, fun _ _ _ h => nomatch h⟩
  | .request cmd arg :: rest =>
    have htail : (dropInput s).inputs = rest := by rw [dropInput_inputs, hin, List.tail_cons]
    suffices h : ∃ t, step s = .next t ∧ t.inputs = rest ∧ ∃ r, t.responses = s.responses ++ [r] by
      obtain ⟨t, hstep, hinputs, hresponse⟩ := h
      refine ⟨t, hstep, ?_⟩
      rintro _ _ _ ⟨⟩
      exact ⟨hinputs, hresponse⟩
    cases hdec : decode cmd arg with
    | ok i =>
      obtain ⟨t, ht⟩ := exec_progress hinv.dropInput i
      obtain ⟨hresponse, hinputs, -⟩ := everyCommandAnswersOnce i _ t ht
      exact ⟨t, (step_of_decode_ok hin hdec).trans ht, hinputs.trans htail, hresponse⟩
    | error e => exact ⟨_, step_of_decode_error hin hdec, htail, _, rfl⟩

end Sys2Proof.Machine
end

section
/-! The bit-width calculator (40_bitwidth.md): the width as the least one that fits, and the laws that follow from it. -/

namespace Sys2Proof.Machine

/-- The fit law of R81 (b), with the largest number of `k` bits spelled as in the rules. -/
theorem le_two_pow_sub_one_iff_bitWidthFor_le {v k : Nat} (hk : 1 ≤ k) : v ≤ 2 ^ k - 1 ↔ bitWidthFor v ≤ k :=
  (Nat.le_sub_one_iff_lt (Nat.two_pow_pos k)).trans (bitWidthFor_le_iff hk).symm

theorem bitWidthFor_toNat_le (v : Word) : bitWidthFor v.toNat ≤ 32 := (bitWidthFor_le_iff (by decide)).2 v.isLt

theorem exec_bitwidth (v : Word) (s : State) : exec (.bitwidth v) s = respond (bitWidthFor v.toNat) s := rfl

/-- Settles O11: the width fits its number and is at most every width that does, both by the fit law; `BITWIDTH` ends
with it as its result. -/
theorem bitwidthIsLeastWidth : Obligations.BitwidthIsLeastWidth := by
  refine ⟨fun v => ⟨one_le_bitWidthFor v, ?fits, ?least⟩, fun v s => ⟨bitWidthFor_toNat_le v, ?answer⟩⟩
  case fits => exact (le_two_pow_sub_one_iff_bitWidthFor_le (one_le_bitWidthFor v)).2 le_rfl
  case least => exact fun j hj hfits => (le_two_pow_sub_one_iff_bitWidthFor_le hj).1 hfits
  case answer => rw [exec_bitwidth, respond_eq]

theorem bitWidthFor_mono {u v : Nat} (h : u ≤ v) : bitWidthFor u ≤ bitWidthFor v :=
  (bitWidthFor_le_iff (one_le_bitWidthFor v)).2 (h.trans_lt (lt_two_pow_bitWidthFor v))

/-- Both sides are the least `k` with `v < 2 ^ k`, at `v = 0` too. -/
theorem bitlen_eq_clog (v : Nat) : bitlen v = Nat.clog 2 (v + 1) :=
  eq_of_forall_ge_iff fun _ => bitlen_le_iff.trans (Nat.clog_le_iff_le_pow Nat.one_lt_two).symm

/-- From 1 on the bit length is at least 1, so the floor of R80 does nothing. -/
theorem bitWidthFor_eq_clog {v : Nat} (hv : 1 ≤ v) : bitWidthFor v = Nat.clog 2 (v + 1) := by
  have hpos : 0 < Nat.clog 2 (v + 1) := Nat.clog_pos Nat.one_lt_two (Nat.lt_succ_of_le hv)
  rw [bitWidthFor, bitlen_eq_clog]
  exact max_eq_right hpos

/-- Settles O12: the order laws come from the fit law; the logarithm form of `m` is that of `m - 1` counted from its
successor. -/
theorem bitWidthForLaws : Obligations.BitWidthForLaws := by
  refine ⟨fun _ _ => bitWidthFor_mono, fun _ _ => le_two_pow_sub_one_iff_bitWidthFor_le,
    fun _ => bitWidthFor_eq_clog, fun m hm => ?_⟩
  calc bitWidthFor (m - 1) = Nat.clog 2 (m - 1 + 1) := bitWidthFor_eq_clog (Nat.le_sub_one_of_lt hm)
    _ = Nat.clog 2 m := by rw [Nat.sub_add_cancel (Nat.one_le_of_lt hm)]

end Sys2Proof.Machine
end

section
/-! The signed transformer (41_signed_transform.md): what its four commands answer, and that each decoder undoes its
encoder, first on numbers and then on the patterns that the commands carry. -/

namespace Sys2Proof.Machine

/-! ### Zigzag on numbers (R91, R92, R94) -/

theorem zzEnc_of_nonneg {x : Int} (hx : 0 ≤ x) : (zzEnc x : Int) = 2 * x := by
  rw [zzEnc, if_pos hx]
  omega

theorem zzEnc_of_neg {x : Int} (hx : x < 0) : (zzEnc x : Int) = -2 * x - 1 := by
  rw [zzEnc, if_neg (by omega)]
  omega

theorem coe_zzEnc (x : Int) : (zzEnc x : Int) = if 0 ≤ x then 2 * x else -2 * x - 1 := by
  split
  case isTrue hx => exact zzEnc_of_nonneg hx
  case isFalse hx => exact zzEnc_of_neg (Int.not_le.1 hx)

theorem zzDec_of_even {u : Nat} (hu : u % 2 = 0) : zzDec u = (u : Int) / 2 := if_pos hu

theorem zzDec_of_odd {u : Nat} (hu : u % 2 = 1) : zzDec u = -(((u : Int) + 1) / 2) := if_neg (by omega)

theorem zzDec_zzEnc (x : Int) : zzDec (zzEnc x) = x := by
  rcases lt_or_ge x 0 with hx | hx
  · have hcode := zzEnc_of_neg hx
    rw [zzDec_of_odd (by omega)]
    omega
  · have hcode := zzEnc_of_nonneg hx
    rw [zzDec_of_even (by omega)]
    omega

theorem zzEnc_zzDec (u : Nat) : zzEnc (zzDec u) = u := by
  rcases Nat.mod_two_eq_zero_or_one u with hu | hu
  · have hvalue := zzDec_of_even hu
    have hcode := zzEnc_of_nonneg (x := zzDec u) (by omega)
    omega
  · have hvalue := zzDec_of_odd hu
    have hcode := zzEnc_of_neg (x := zzDec u) (by omega)
    omega

/-- A 32-bit code is the code of a 32-bit signed number. -/
theorem zzDec_bounds {u : Nat} (hu : u < 2 ^ 32) : -2 ^ 31 ≤ zzDec u ∧ zzDec u < 2 ^ 31 := by
  rcases Nat.mod_two_eq_zero_or_one u with hpar | hpar
  · rw [zzDec_of_even hpar]
    omega
  · rw [zzDec_of_odd hpar]
    omega

/-! ### Zigzag on patterns (R93, R95, R100) -/

/-- The answer of `ZZENC x`. -/
def zzencWord (x : Word) : Word := BitVec.ofNat 32 (zzEnc x.toInt)

/-- The answer of `ZZDEC u`. -/
def zzdecWord (u : Word) : Word := BitVec.ofInt 32 (zzDec u.toNat)

theorem exec_zzenc (x : Word) (s : State) : exec (.zzenc x) s = .next (s.answer .ok (zzencWord x)) := by
  rw [zzencWord, ← s32_eq_toInt]
  rfl

theorem exec_zzdec (u : Word) (s : State) : exec (.zzdec u) s = .next (s.answer .ok (zzdecWord u)) := by
  rw [zzdecWord, ← ofNat_u32]
  rfl

theorem zzencWord_toNat (x : Word) : (zzencWord x).toNat = zzEnc x.toInt := by
  have hlt := zzEnc_s32_lt x
  rw [s32_eq_toInt] at hlt
  rw [zzencWord, BitVec.toNat_ofNat, Nat.mod_eq_of_lt hlt]

theorem zzdecWord_toInt (u : Word) : (zzdecWord u).toInt = zzDec u.toNat :=
  have hbounds := zzDec_bounds u.isLt
  BitVec.toInt_ofInt_eq_self (by decide) hbounds.1 hbounds.2

theorem zzdecWord_zzencWord (x : Word) : zzdecWord (zzencWord x) = x := by
  rw [zzdecWord, zzencWord_toNat, zzDec_zzEnc, BitVec.ofInt_toInt]

theorem zzencWord_zzdecWord (u : Word) : zzencWord (zzdecWord u) = u := by
  rw [zzencWord, zzdecWord_toInt, zzEnc_zzDec, BitVec.ofNat_toNat, BitVec.setWidth_eq]

/-- Settles O13: the code of R91, read as an integer, by the sign of the operand. -/
theorem zzencResult : Obligations.ZzencResult := by
  intro x s
  rw [exec_zzenc, zzencWord, ← BitVec.ofInt_natCast, coe_zzEnc]
  rfl

/-- Settles O14: the model's decoder follows the parity formula of R92. -/
theorem zzdecResult : Obligations.ZzdecResult := by
  intro u s
  rw [exec_zzdec, zzdecWord, zzDec]
  rfl

/-- Settles O15: the two maps on patterns are inverse to each other, and the commands answer their values. -/
theorem zigzagRoundTrip : Obligations.ZigzagRoundTrip := by
  intro x s t
  refine ⟨⟨zzencWord x, exec_zzenc x s, ?decEnc⟩, ⟨zzdecWord x, exec_zzdec x s, ?encDec⟩⟩
  case decEnc =>
    rw [exec_zzdec, zzdecWord_zzencWord]
    rfl
  case encDec =>
    rw [exec_zzenc, zzencWord_zzdecWord]
    rfl

/-! ### Two's complement on numbers (R96, R98) -/

theorem tcFits_iff {x : Int} {k : Nat} : tcFits x k = true ↔ FitsTwos x k := decide_eq_true_iff

theorem not_fitsTwos_iff {x : Int} {k : Nat} : ¬ FitsTwos x k ↔ x < -(2 ^ (k - 1)) ∨ 2 ^ (k - 1) - 1 < x := by
  rw [FitsTwos, not_and_or, Int.not_le, Int.not_le]

theorem coe_tcEnc (x : Int) (k : Nat) : (tcEnc x k : Int) = x % 2 ^ k :=
  Int.toNat_of_nonneg (Int.emod_nonneg x (by positivity))

theorem tcEnc_lt (x : Int) (k : Nat) : tcEnc x k < 2 ^ k := by
  have hlt := Int.emod_lt_of_pos x (show (0 : Int) < 2 ^ k by positivity)
  rw [← coe_tcEnc] at hlt
  exact_mod_cast hlt

/-- A representable number that is not negative is its own code; a negative one moves up by `2^k`. -/
theorem tcEnc_of_fitsTwos {x : Int} {k : Nat} (hk : 1 ≤ k) (hx : FitsTwos x k) :
    (tcEnc x k : Int) = if 0 ≤ x then x else x + 2 ^ k := by
  obtain ⟨hlow, hhigh⟩ := hx
  have hhalf := mul_pow_sub_one (Nat.one_le_iff_ne_zero.1 hk) (2 : Int)
  rw [coe_tcEnc]
  split
  case isTrue hx => exact Int.emod_eq_of_lt hx (by omega)
  case isFalse hx =>
    rw [Int.emod_eq_add_self_emod]
    exact Int.emod_eq_of_lt (by omega) (by omega)

theorem tcDec_tcEnc {x : Int} {k : Nat} (hk : 1 ≤ k) (hx : FitsTwos x k) : tcDec (tcEnc x k) k = x := by
  have hcode := tcEnc_of_fitsTwos hk hx
  obtain ⟨hlow, hhigh⟩ := hx
  have hhalf := mul_pow_sub_one (Nat.one_le_iff_ne_zero.1 hk) (2 : Int)
  have hsign : tcEnc x k < 2 ^ (k - 1) ↔ 0 ≤ x := by
    rw [← Int.ofNat_lt, Nat.cast_pow, Nat.cast_ofNat, hcode]
    split <;> omega
  rw [tcDec, hcode]
  split <;> split <;> omega

/-- Within `k` bits, bit `k-1` says whether a code is in the upper half. -/
theorem getLsbD_sign_iff {u : Word} {k : Nat} (hk : 1 ≤ k) (hu : u.toNat < 2 ^ k) :
    u.getLsbD (k - 1) = true ↔ 2 ^ (k - 1) ≤ u.toNat := by
  refine ⟨Nat.ge_two_pow_of_testBit, fun hge => ?_⟩
  exact Nat.testBit_of_two_pow_le_and_two_pow_add_one_gt hge (by rwa [Nat.sub_add_cancel hk])

theorem tcDec_eq_of_sign {u : Word} {k : Nat} (hk : 1 ≤ k) (hu : u.toNat < 2 ^ k) :
    tcDec u.toNat k = if u.getLsbD (k - 1) then (u.toNat : Int) - 2 ^ k else (u.toNat : Int) := by
  have hsign := getLsbD_sign_iff hk hu
  split
  case isTrue hbit => exact if_neg (Nat.not_lt.2 (hsign.1 hbit))
  case isFalse hbit => exact if_pos (Nat.not_le.1 (mt hsign.2 hbit))

theorem le_mask_iff {v k : Nat} : v ≤ mask k ↔ v < 2 ^ k := Nat.le_sub_one_iff_lt (Nat.two_pow_pos k)

/-! ### The two's-complement commands (R97, R99, R100) -/

theorem legalWidth_eq_false {k : Nat} (hk : ¬ (1 ≤ k ∧ k ≤ 32)) : legalWidth k = false :=
  Bool.eq_false_iff.2 (mt (legalWidth_iff k).1 hk)

theorem exec_tcenc_of_illegalWidth {k : Nat} (hk : ¬ (1 ≤ k ∧ k ≤ 32)) (x : Word) (s : State) :
    exec (.tcenc k x) s = .next (s.answer .invalidBitWidth 0) :=
  execTcenc_next.2 (.inl ⟨legalWidth_eq_false hk, rfl⟩)

theorem exec_tcenc_of_not_fitsTwos {k : Nat} (hk : 1 ≤ k ∧ k ≤ 32) {x : Word} (hx : ¬ FitsTwos x.toInt k)
    (s : State) : exec (.tcenc k x) s = .next (s.answer .valueOutOfRange 0) := by
  rw [← s32_eq_toInt, ← tcFits_iff, Bool.not_eq_true] at hx
  exact execTcenc_next.2 (.inr (.inl ⟨(legalWidth_iff k).2 hk, hx, rfl⟩))

theorem exec_tcenc_of_fitsTwos {k : Nat} (hk : 1 ≤ k ∧ k ≤ 32) {x : Word} (hx : FitsTwos x.toInt k) (s : State) :
    exec (.tcenc k x) s = .next (s.answer .ok (BitVec.ofNat 32 (tcEnc x.toInt k))) := by
  rw [← s32_eq_toInt] at hx ⊢
  exact execTcenc_next.2 (.inr (.inr ⟨(legalWidth_iff k).2 hk, tcFits_iff.2 hx, rfl⟩))

theorem exec_tcdec_of_illegalWidth {k : Nat} (hk : ¬ (1 ≤ k ∧ k ≤ 32)) (u : Word) (s : State) :
    exec (.tcdec k u) s = .next (s.answer .invalidBitWidth 0) :=
  execTcdec_next.2 (.inl ⟨legalWidth_eq_false hk, rfl⟩)

theorem exec_tcdec_of_greatest_lt {k : Nat} (hk : 1 ≤ k ∧ k ≤ 32) {u : Word} (hu : 2 ^ k - 1 < u.toNat) (s : State) :
    exec (.tcdec k u) s = .next (s.answer .valueOutOfRange 0) :=
  execTcdec_next.2 (.inr (.inl ⟨(legalWidth_iff k).2 hk, hu, rfl⟩))

theorem exec_tcdec_of_lt_two_pow {k : Nat} (hk : 1 ≤ k ∧ k ≤ 32) {u : Word} (hu : u.toNat < 2 ^ k) (s : State) :
    exec (.tcdec k u) s = .next (s.answer .ok (BitVec.ofInt 32 (tcDec u.toNat k))) := by
  rw [← ofNat_u32]
  exact execTcdec_next.2 (.inr (.inr ⟨(legalWidth_iff k).2 hk, le_mask_iff.2 hu, rfl⟩))

/-- Settles O16: the three ends of `TCENC`, by whether the width is legal and the operand representable in it. -/
theorem tcencResult : Obligations.TcencResult := by
  intro k x s
  by_cases hk : 1 ≤ k ∧ k ≤ 32
  · rw [if_neg (by omega)]
    by_cases hx : FitsTwos x.toInt k
    · rw [if_neg (mt not_fitsTwos_iff.2 (not_not_intro hx)), ← coe_tcEnc, BitVec.ofInt_natCast]
      exact exec_tcenc_of_fitsTwos hk hx s
    · rw [if_pos (not_fitsTwos_iff.1 hx)]
      exact exec_tcenc_of_not_fitsTwos hk hx s
  · rw [if_pos (by omega)]
    exact exec_tcenc_of_illegalWidth hk x s

/-- Settles O17: the three ends of `TCDEC`, by whether the width is legal and the operand a code of it; for a code the
comparison of R98 is the test of its top bit. -/
theorem tcdecResult : Obligations.TcdecResult := by
  intro k u s
  by_cases hk : 1 ≤ k ∧ k ≤ 32
  · rw [if_neg (by omega)]
    rcases Nat.lt_or_ge (2 ^ k - 1) u.toNat with hu | hu
    · rw [if_pos hu]
      exact exec_tcdec_of_greatest_lt hk hu s
    · have hcode := le_mask_iff.1 hu
      rw [if_neg (Nat.not_lt.2 hu), ← tcDec_eq_of_sign hk.1 hcode]
      exact exec_tcdec_of_lt_two_pow hk hcode s
  · rw [if_pos (by omega)]
    exact exec_tcdec_of_illegalWidth hk u s

/-- Settles O18: a code of a legal width fits a word, so `TCDEC` gets the very number that `TCENC` computed. -/
theorem twosComplementRoundTrip : Obligations.TwosComplementRoundTrip := by
  intro k x s t hk hk' hx
  have hcode : tcEnc x.toInt k < 2 ^ k := tcEnc_lt _ _
  have hword : (BitVec.ofNat 32 (tcEnc x.toInt k)).toNat = tcEnc x.toInt k :=
    Nat.mod_eq_of_lt (hcode.trans_le (Nat.pow_le_pow_right (by decide) hk'))
  refine ⟨_, exec_tcenc_of_fitsTwos ⟨hk, hk'⟩ hx s, ?_⟩
  rw [exec_tcdec_of_lt_two_pow ⟨hk, hk'⟩ (by rwa [hword]), hword, tcDec_tcEnc hk hx, BitVec.ofInt_toInt]
  rfl

end Sys2Proof.Machine
end

section
/-! The packer units (42_cross_packer.md, 43_nocross_packer.md): the word counts of both layouts, the round trip, and the bits
that belong to no entry, which packing writes as 0 and reading never takes. -/

namespace Sys2Proof.Machine

/-! ### Word counts (R111, R132, R137) -/

/-- A word of a cross stream holds 32 bits, whichever entries they belong to (R111). -/
theorem streamWords_x_le_iff {cnt k w : Nat} : streamWords .x cnt k ≤ w ↔ cnt * k ≤ w * 32 :=
  ceilDiv_le_iff (by norm_num)

/-- A word of a no-cross stream holds `32 / k` whole entries (R132). -/
theorem streamWords_nc_le_iff {cnt k w : Nat} (hk : 1 ≤ k) (hk' : k ≤ 32) :
    streamWords .nc cnt k ≤ w ↔ cnt ≤ w * (32 / k) :=
  ceilDiv_le_iff (slotsPerWord_pos hk hk')

/-- The words below the last do not hold the entries, so at most 31 bits of the stream are left over (R111). -/
theorem streamWords_x_tail_le (cnt k : Nat) : 32 * streamWords .x cnt k ≤ cnt * k + 31 := by
  rcases Nat.eq_zero_or_pos (streamWords .x cnt k) with hzero | hpos
  · omega
  · have hshort : ¬ streamWords .x cnt k ≤ streamWords .x cnt k - 1 := by omega
    rw [streamWords_x_le_iff] at hshort
    omega

/-- The slots of a word take at most its 32 bits, so the entries that fit in slots fit without them (R137). -/
theorem streamWords_x_le_nc (cnt : Nat) {k : Nat} (hk : 1 ≤ k) (hk' : k ≤ 32) :
    streamWords .x cnt k ≤ streamWords .nc cnt k := by
  rw [streamWords_x_le_iff]
  calc cnt * k
    _ ≤ streamWords .nc cnt k * (32 / k) * k := Nat.mul_le_mul_right k ((streamWords_nc_le_iff hk hk').1 le_rfl)
    _ = streamWords .nc cnt k * (32 / k * k) := Nat.mul_assoc _ _ _
    _ ≤ streamWords .nc cnt k * 32 := Nat.mul_le_mul_left _ (Nat.div_mul_le_self 32 k)

/-- When the slots fill their word, both layouts ask for the same words (R137). -/
theorem streamWords_nc_eq_x (cnt : Nat) {k : Nat} (hk : 1 ≤ k) (hk' : k ≤ 32) (hdvd : k ∣ 32) :
    streamWords .nc cnt k = streamWords .x cnt k :=
  eq_of_forall_ge_iff fun w =>
    calc streamWords .nc cnt k ≤ w
      _ ↔ cnt ≤ w * (32 / k) := streamWords_nc_le_iff hk hk'
      _ ↔ cnt * k ≤ w * (32 / k) * k := (Nat.mul_le_mul_right_iff hk).symm
      _ ↔ cnt * k ≤ w * 32 := by rw [Nat.mul_assoc, Nat.div_mul_cancel hdvd]
      _ ↔ streamWords .x cnt k ≤ w := streamWords_x_le_iff.symm

/-- Settles O19: each count is the least number of words that hold the entries, so the counts compare as what one word holds
in each layout. -/
theorem streamWordCounts : Obligations.StreamWordCounts := by
  intro cnt k hk hk'
  refine ⟨⟨?enough, streamWords_x_tail_le cnt k⟩, fun w => streamWords_nc_le_iff hk hk', streamWords_x_le_nc cnt hk hk',
    streamWords_le .nc cnt hk hk', streamWords_nc_eq_x cnt hk hk'⟩
  case enough =>
    rw [Nat.mul_comm 32]
    exact streamWords_x_le_iff.1 le_rfl

/-! ### Round trip (R115) -/

/-- In either layout, words that agree with the packed ones give each packed value back. -/
theorem extractWords_of_packWords {l : Layout} {vals : List Nat} {k : Nat} {rd : Nat → Word} (hk : 1 ≤ k) (hk' : k ≤ 32)
    (hv : ∀ v ∈ vals, v ≤ 2 ^ k - 1)
    (hrd : ∀ w, w < streamWords l vals.length k → (packWords l vals k)[w]? = some (rd w))
    {j v : Nat} (hj : vals[j]? = some v) : extractWords l rd k j = v := by
  obtain ⟨hlt, rfl⟩ := List.getElem?_eq_some_iff.1 hj
  refine extractWords_packed hk hk' hv (fun w hw => ?_) hlt
  have hword := hrd w hw
  rw [packWords_getElem?, if_pos hw] at hword
  exact (Option.some.inj hword).symm

/-- Settles O22: bit by bit, an entry is read where packing put it, whether or not it is split. -/
theorem crossPackerRoundTrip : Obligations.CrossPackerRoundTrip :=
  fun _ _ _ hk hk' hv hrd _ _ hj => extractWords_of_packWords hk hk' hv hrd hj

/-! ### Padding and tail bits are written 0 (R113, R134, log 7) -/

/-- A packed word has a bit set only inside an entry: the one whose value that bit is taken from. -/
theorem entry_of_packWord_testBit {l : Layout} {vals : List Nat} {k w b : Nat} (hk : 1 ≤ k)
    (hv : ∀ v ∈ vals, v ≤ 2 ^ k - 1) (hb : b < 32) (hbit : (packWord l vals k w).testBit b = true) :
    ∃ j, j < vals.length ∧ bitAddr l k j ≤ 32 * w + b ∧ 32 * w + b < bitAddr l k j + k := by
  cases l with
  | x =>
    rw [packWord, (packWordX_bit vals k w b hb).1, Bool.and_eq_true, decide_eq_true_eq] at hbit
    exact ⟨(32 * w + b) / k, (Nat.div_lt_iff_lt_mul hk).2 hbit.1, Nat.div_mul_le_self _ _, Nat.lt_div_mul_add hk⟩
  | nc =>
    rw [packWord, (packWordNC_bit vals k w b hk hv).1] at hbit
    simp only [Bool.and_eq_true, decide_eq_true_eq] at hbit
    obtain ⟨⟨hslots, hlast⟩, -⟩ := hbit
    have hslot : b / k < slotsPerWord k := (Nat.div_lt_iff_lt_mul hk).2 hslots
    have haddr : bitAddr .nc k (w * slotsPerWord k + b / k) = w * 32 + b / k * k := by
      rw [bitAddr, Nat.add_comm (w * _), Nat.add_mul_div_right _ _ (Nat.zero_lt_of_lt hslot), Nat.div_eq_of_lt hslot,
        Nat.zero_add, Nat.add_mul_mod_self_right, Nat.mod_eq_of_lt hslot]
    have hstart : b / k * k ≤ b := Nat.div_mul_le_self b k
    have hend : b < b / k * k + k := Nat.lt_div_mul_add hk
    exact ⟨_, hlast, by omega, by omega⟩

/-- Settles O24: a bit that were set would lie inside the entry it is taken from. -/
theorem paddingBitsAreZero : Obligations.PaddingBitsAreZero := by
  intro l vals k w b word hk _ hv hword hb hnone
  rw [packWords_getElem?, Option.ite_none_right_eq_some, Option.some.injEq] at hword
  obtain ⟨-, rfl⟩ := hword
  rw [BitVec.getLsbD_ofNat, decide_eq_true hb, Bool.true_and]
  refine Bool.eq_false_of_not_eq_true fun hbit => ?_
  obtain ⟨j, hj, hinside⟩ := entry_of_packWord_testBit hk hv hb hbit
  exact hnone j hj hinside

/-! ### Padding and tail bits are never read (R116 (c), R135, R260) -/

/-- An extracted entry depends on the stream only through the entry's own bits. -/
theorem extractWords_congr {s t : State} {sp : Space} {l : Layout} {k j : Nat} (hk : 1 ≤ k ∧ k ≤ 32)
    (hbits : ∀ b, b < k → streamBit t sp (bitAddr l k j + b) = streamBit s sp (bitAddr l k j + b)) :
    extractWords l (t.word sp) k j = extractWords l (s.word sp) k j := by
  refine Nat.eq_of_testBit_eq fun b => ?_
  rw [extractWords_testBit l _ hk.1 hk.2, extractWords_testBit l _ hk.1 hk.2]
  by_cases hb : b < k
  · exact congrArg _ (hbits b hb)
  · simp [hb]

/-- The two states agree on the bits of the first `cnt` entries of width `k` of a space. -/
def SameEntries (s t : State) (sp : Space) (k cnt : Nat) : Prop :=
  ∀ j b, j < cnt → b < k → streamBit t sp (bitAddr s.layout k j + b) = streamBit s sp (bitAddr s.layout k j + b)

section
variable {s t : State} (hhdr : t.hdr = s.hdr)
include hhdr

theorem SameEntries.extract_eq {sp : Space} {k cnt j : Nat} (h : SameEntries s t sp k cnt) (hj : j < cnt) :
    extract t sp s.layout k j = extract s sp s.layout k j := by
  unfold extract
  rw [hhdr]
  by_cases hk : legalWidth k = true
  · rw [extractWords_congr ((legalWidth_iff k).1 hk) fun b hb => h j b hj hb]
  · simp [hk]

variable (hinv : Inv s) (hmain : SameEntries s t .main (mainEntryWidth s.hdr) s.hdr.n.toNat)
  (hovf : SameEntries s t .ovf s.hdr.kOver.toNat s.hdr.m.toNat)
include hinv hmain hovf

/-- A record with flag 1 names an entry of the table, so both reads of an overflow kind are of entries (R30 (d), R156). -/
theorem getCode_of_sameEntries {i : Nat} (hi : i < s.hdr.n.toNat) : getCode t i = getCode s i := by
  have hentry : extract t .main (layoutOf s.hdr.cfg.kind) (mainEntryWidth s.hdr) i =
      extract s .main (layoutOf s.hdr.cfg.kind) (mainEntryWidth s.hdr) i := hmain.extract_eq hhdr hi
  unfold getCode
  rw [hhdr]
  cases hkind : isOverflow s.hdr.cfg.kind with
  | false =>
    rw [mainEntryWidth, hkind] at hentry
    exact hentry
  | true =>
    rw [mainEntryWidth, if_pos hkind] at hentry
    simp only [if_true, getCodeOverflow, hhdr, hentry]
    cases hread : extract s .main (layoutOf s.hdr.cfg.kind) s.hdr.bMain.toNat i with
    | error e => rfl
    | ok r =>
      obtain ⟨-, -, rfl⟩ := extract_eq_ok.1 hread
      dsimp only
      split
      · rfl
      · next hflag =>
        exact hovf.extract_eq hhdr (hinv.payload_lt hi hkind (Nat.mod_two_ne_zero.1 hflag))

/-- The value of an element is decoded from its code with header registers alone (R176). -/
theorem getValue_of_sameEntries {i : Nat} (hi : i < s.hdr.n.toNat) : getValue t i = getValue s i := by
  rw [getValue, getValue, getCode_of_sameEntries hhdr hinv hmain hovf hi, hhdr]

end

theorem State.answer_inj {s : State} {e e' : Err} {v v' : Word} : s.answer e v = s.answer e' v' ↔ e = e' ∧ v = v' := by
  refine ⟨fun h => ?_, fun ⟨he, hv⟩ => by rw [he, hv]⟩
  have hresponses := congrArg State.responses h
  simpa using hresponses

/-- `GET` answers by the header and the values of the elements alone. -/
theorem execGet_congr {s t : State} (hhdr : t.hdr = s.hdr)
    (hvalue : ∀ i, i < s.hdr.n.toNat → getValue t i = getValue s i) {i : Word} {e : Err} {v : Word}
    (h : execGet i s = .next (s.answer e v)) : execGet i t = .next (t.answer e v) := by
  simp only [execGet_next, State.answer_inj, hhdr] at h ⊢
  rcases h with hnone | hbeyond | ⟨hvalid, hi, u, hu, hres⟩
  · exact .inl hnone
  · exact .inr (.inl hbeyond)
  · exact .inr (.inr ⟨hvalid, hi, u, (hvalue _ hi).trans hu, hres⟩)

/-- Settles O53: every element's value is read from bits of entries alone, and `GET` answers by these values. -/
theorem paddingIsNeverRead : Obligations.PaddingIsNeverRead :=
  fun _ _ _ _ hinv _ hhdr hmain hovf h =>
    execGet_congr hhdr (fun _ hi => getValue_of_sameEntries hhdr hinv hmain hovf hi) h

end Sys2Proof.Machine
end

section
/-! The round trip of the aligned-slot packer (43_nocross_packer.md section 3). -/

namespace Sys2Proof.Machine

/-- Settles O23: the round trip of either layout, at `NC`; packing puts an entry in the slot of the one word that
`extractNC` reads. -/
theorem nocrossPackerRoundTrip : Obligations.NocrossPackerRoundTrip :=
  fun _ _ _ hk hk' hv hrd _ _ hj => extractWords_of_packWords (l := .nc) hk hk' hv hrd hj

end Sys2Proof.Machine
end

section
/-! Reading from an overflow kind (44_overflow_encoder.md section 4): what `GET` answers for an inline and for a flagged
record. -/

namespace Sys2Proof.Machine

/-- The decoder of the model, where it is defined, computes the pattern that the code stands for (R103). -/
theorem eq_valueOf_of_decodeCode {mode : Mode} {kTc c : Nat} {v : Word} (h : decodeCode mode kTc c = .ok v) :
    v = valueOf mode kTc c := by
  cases mode with
  | none => exact (Except.ok.inj h).symm
  | zigzag => exact (Except.ok.inj h).symm.trans (ofNat_u32 (zzDec c))
  | twos =>
    dsimp only [decodeCode] at h
    split at h
    · exact (Except.ok.inj h).symm.trans (ofNat_u32 (tcDec c kTc))
    · cases h

section
variable {s : State} (hinv : Inv s) (hvalid : s.hasPacker = true)
include hinv hvalid

/-- `GET` of an element of the array answers with the value of its code (R176). -/
theorem Inv.exec_get_of_getCode {i : Word} (hi : i.toNat < s.hdr.n.toNat) {c : Nat} (hcode : getCode s i.toNat = .ok c) :
    exec (.get i) s = .next (s.answer .ok (valueOf s.mode s.hdr.kTc.toNat c)) := by
  obtain ⟨v, hdecode⟩ := hinv.decodeCode_progress hi hvalid c
  have hvalue : getValue s i.toNat = .ok v := by rw [getValue, hcode]; exact hdecode
  exact execGet_next.2 (.inr (.inr ⟨hvalid, hi, v, hvalue, by rw [eq_valueOf_of_decodeCode hdecode, State.mode]⟩))

variable (hover : isOverflow s.hdr.cfg.kind = true) {i : Nat} (hi : i < s.hdr.n.toNat)
include hover hi

/-- The bits of the main stream at the address of element `i` hold its record (R156). -/
theorem Inv.holdsEntry_record :
    HoldsEntry s .main s.hdr.bMain.toNat (bitAddr s.layout s.hdr.bMain.toNat i) (s.record i) := by
  obtain ⟨hwidth, -⟩ := (hinv.header.packedShape hvalid (Nat.zero_lt_of_lt hi)).main
  rw [mainEntryWidth, if_pos hover] at hwidth
  exact extractReadsEntryBits s .main s.layout _ i hwidth.1 hwidth.2

/-- The bits of the overflow stream at the address that a flagged record names hold an entry of the table (R156). -/
theorem Inv.holdsEntry_table (hflag : s.record i % 2 = 1) :
    HoldsEntry s .ovf s.hdr.kOver.toNat (bitAddr s.layout s.hdr.kOver.toNat (s.record i / 2))
      (extractWords s.layout (s.word .ovf) s.hdr.kOver.toNat (s.record i / 2)) := by
  have hpayload := hinv.payload_lt hi hover hflag
  obtain ⟨hwidth, -⟩ :=
    (hinv.header.packedShape hvalid (Nat.zero_lt_of_lt hi)).table hover (Nat.zero_lt_of_lt hpayload)
  exact extractReadsEntryBits s .ovf s.layout _ _ hwidth.1 hwidth.2

end

/-- Settles O35: the record is the extracted one and `GET` answers the value of its code, which is the payload at flag 0
and the table entry that the payload names at flag 1. -/
theorem getOverflowResult : Obligations.GetOverflowResult := by
  intro s i hinv hvalid hover hi
  refine ⟨s.record i.toNat, hinv.holdsEntry_record hvalid hover hi, _,
    hinv.exec_get_of_getCode hvalid hi (hinv.getCode_overflow hi hvalid hover), ?inline, ?flagged⟩
  case inline => exact fun hflag => if_pos hflag
  case flagged =>
    intro hflag
    rw [if_neg (Nat.mod_two_ne_zero.2 hflag)]
    exact ⟨hinv.payload_lt hi hover hflag, hinv.holdsEntry_table hvalid hover hi hflag⟩

end Sys2Proof.Machine
end

section
/-! The codes of an array and their widths (R80, R83, R101, R102), in the words that the statements use: the codes that
a compress packs are the numbers of `codeOf`, and the widths that it computes are the least ones. -/

namespace Sys2Proof.Machine

/-! ### Codes (R102, R103) -/

theorem encodeCode_eq_codeOf (mode : Mode) (kTc : Nat) (w : Word) : encodeCode mode kTc w = codeOf mode kTc w := by
  cases mode with
  | none => rfl
  | zigzag => simp only [encodeCode, codeOf, zzEnc, s32_eq_toInt]
  | twos => simp only [encodeCode, codeOf, tcEnc, s32_eq_toInt]

/-- `K_TC` of the first `len` input words in the packer's mode (R101, R172). -/
def State.inputTwosWidth (s : State) (len : Nat) : Nat := kTcFor s.mode (s.inputArray len)

/-- The code of input word `i` when the first `len` words are compressed (R102). -/
def State.inputCode (s : State) (len i : Nat) : Nat := codeOf s.mode (s.inputTwosWidth len) (s.word .input i)

theorem inputCode_eq (s : State) (len i : Nat) :
    s.inputCode len i = codeOf s.mode (s.inputTwosWidth len) (s.word .input i) := rfl

theorem inputCodes_eq (s : State) (len : Nat) : s.inputCodes len = (List.range len).map (s.inputCode len) := by
  simp only [State.inputCodes, encodeArray, State.inputArray, List.map_map]
  exact List.map_congr_left fun i _ => encodeCode_eq_codeOf _ _ _

theorem inputCodes_getElem? {s : State} {len i : Nat} (hi : i < len) :
    (s.inputCodes len)[i]? = some (s.inputCode len i) := by
  simp [inputCodes_eq, hi]

theorem forall_mem_inputCodes {s : State} {len : Nat} {p : Nat → Prop} :
    (∀ c ∈ s.inputCodes len, p c) ↔ ∀ i, i < len → p (s.inputCode len i) := by
  simp [inputCodes_eq]

/-! ### The two's-complement width (R101) -/

theorem fitsTwos_iff_bitlen {x : Int} {k : Nat} (hk : 1 ≤ k) : FitsTwos x k ↔ 1 + bitlen (tcMagnitude x) ≤ k := by
  have hlen : 1 + bitlen (tcMagnitude x) ≤ k ↔ tcMagnitude x < 2 ^ (k - 1) := by
    rw [← bitlen_le_iff]
    omega
  have hcast : ((2 ^ (k - 1) : Nat) : Int) = 2 ^ (k - 1) := by norm_cast
  rw [hlen, FitsTwos, tcMagnitude]
  split <;> omega

theorem tcWidthFor_le_iff {xs : List Int} {k : Nat} (hk : 1 ≤ k) : tcWidthFor xs ≤ k ↔ ∀ x ∈ xs, FitsTwos x k := by
  have hmax : tcWidthFor xs ≤ k ↔ maxOf (xs.map fun x => bitlen (tcMagnitude x)) ≤ k - 1 := by
    unfold tcWidthFor
    omega
  rw [hmax, maxOf_le_iff, List.forall_mem_map]
  refine forall₂_congr fun x _ => ?_
  rw [fitsTwos_iff_bitlen hk]
  omega

theorem inputTwosWidth_le (s : State) (len : Nat) : s.inputTwosWidth len ≤ 32 := kTcFor_le _ _

section
variable {s : State} (hmode : s.mode = .twos) (len : Nat)
include hmode

theorem inputTwosWidth_bounds : 1 ≤ s.inputTwosWidth len ∧ s.inputTwosWidth len ≤ 32 := by
  rw [State.inputTwosWidth, hmode]
  exact kTcFor_twos_bounds _

theorem inputTwosWidth_le_iff {k : Nat} (hk : 1 ≤ k) :
    s.inputTwosWidth len ≤ k ↔ ∀ i, i < len → FitsTwos (s.word .input i).toInt k := by
  rw [State.inputTwosWidth, hmode, kTcFor, tcWidthFor_le_iff hk]
  simp [State.inputArray, s32_eq_toInt]

/-- In mode `TWOS` the width that a compress computes is the least one that represents every input word. -/
theorem leastTwosWidth_iff {k : Nat} : LeastTwosWidth s len k ↔ k = s.inputTwosWidth len := by
  obtain ⟨hpos, hle⟩ := inputTwosWidth_bounds hmode len
  have hiff := @inputTwosWidth_le_iff s hmode len
  constructor
  · rintro ⟨hk, -, hfit, hleast⟩
    exact Nat.le_antisymm (hleast _ hpos ((hiff hpos).1 le_rfl)) ((hiff hk).2 hfit)
  · rintro rfl
    exact ⟨hpos, hle, (hiff hpos).1 le_rfl, fun j hj hfit => (hiff hj).2 hfit⟩

end

/-- The `K_TC` that the statements describe is the one that a compress computes, and no other (R101, R172). -/
theorem twosWidthOf_iff {s : State} {len k : Nat} : TwosWidthOf s len k ↔ k = s.inputTwosWidth len := by
  unfold TwosWidthOf
  split
  · next hmode => exact leastTwosWidth_iff hmode len
  · next hmode => rw [State.inputTwosWidth, kTcFor_eq_zero hmode]

/-- Decoding a code gives the input word back (R103). -/
theorem decodeCode_inputCode {s : State} {len i : Nat} (hi : i < len) :
    decodeCode s.mode (s.inputTwosWidth len) (s.inputCode len i) = .ok (s.word .input i) := by
  rw [State.inputCode, ← encodeCode_eq_codeOf]
  cases hmode : s.mode with
  | none => exact congrArg Except.ok (by simp [encodeCode])
  | zigzag =>
    simp only [decodeCode, encodeCode]
    rw [zzDec_zzEnc, ofNat_u32, s32_eq_toInt, BitVec.ofInt_toInt]
  | twos =>
    have hwidth := inputTwosWidth_bounds hmode len
    have hfit := (inputTwosWidth_le_iff hmode len hwidth.1).1 le_rfl i hi
    simp only [decodeCode, encodeCode, (legalWidth_iff _).2 hwidth, if_true]
    rw [s32_eq_toInt, tcDec_tcEnc hwidth.1 hfit, ofNat_u32, BitVec.ofInt_toInt]

/-! ### The width of the codes (R80, R83) -/

theorem bitWidthFor_maxOf_le_iff {vs : List Nat} {k : Nat} (hk : 1 ≤ k) :
    bitWidthFor (maxOf vs) ≤ k ↔ ∀ v ∈ vs, v ≤ 2 ^ k - 1 := by
  rw [← le_two_pow_sub_one_iff_bitWidthFor_le hk, maxOf_le_iff]

/-- The least width that fits `n` numbers is the width computed for their maximum, and no other. -/
theorem leastWidth_iff {n : Nat} {c : Nat → Nat} {k : Nat} :
    LeastWidth n c k ↔ k = bitWidthFor (maxOf ((List.range n).map c)) := by
  have hpos := one_le_bitWidthFor (maxOf ((List.range n).map c))
  have hiff : ∀ {j}, 1 ≤ j → (bitWidthFor (maxOf ((List.range n).map c)) ≤ j ↔ ∀ i, i < n → c i ≤ 2 ^ j - 1) :=
    fun hj => (bitWidthFor_maxOf_le_iff hj).trans (by simp)
  constructor
  · rintro ⟨hk, hfit, hleast⟩
    exact Nat.le_antisymm (hleast _ hpos ((hiff hpos).1 le_rfl)) ((hiff hk).2 hfit)
  · rintro rfl
    exact ⟨hpos, (hiff hpos).1 le_rfl, fun j hj hfit => (hiff hj).2 hfit⟩

/-- The width at which `COMPRESS` packs on a base kind (R173). -/
theorem leastWidth_inputCode_iff {s : State} {len k : Nat} :
    LeastWidth len (s.inputCode len) k ↔ k = bitWidthFor (maxOf (s.inputCodes len)) := by
  rw [leastWidth_iff, ← inputCodes_eq]

theorem bitWidthFor_inputCodes_le (s : State) (len : Nat) : bitWidthFor (maxOf (s.inputCodes len)) ≤ 32 :=
  bitWidthFor_maxOf_le fun _ hc => inputCodes_lt_word hc

end Sys2Proof.Machine
end

section
/-! `COMPRESS` and `COMPRESSK` on a base kind (45_packer_commands.md sections 3 and 4): the state that they leave, and
the errors in the order of R230. -/

namespace Sys2Proof.Machine

/-! ### A space after words were stored from index 0 on -/

theorem word_of_stored {t : State} {sp : Space} {m : Mem} {vs : List Word}
    (hmem : memGet t.mem sp = memStoreFrom m 0 vs) {a : Nat} (ha : a < vs.length) : t.word sp a = vs[a] := by
  rw [State.word, hmem, memFind_memStoreFrom]
  simp [ha]

theorem sameFrom_of_stored {s t : State} {sp : Space} {vs : List Word} {len : Nat} (hepoch : t.epoch = s.epoch)
    (hmem : memGet t.mem sp = memStoreFrom (memGet s.mem sp) 0 vs) (hlen : vs.length = len) : SameFrom s t sp len := by
  intro a ha
  rw [State.word, hmem, memFind_memStoreFrom, if_neg (by omega), hepoch, State.word]

theorem holdsEntry_of_stored {t : State} {sp : Space} {m : Mem} {l : Layout} {vals : List Nat} {k j v : Nat}
    (hmem : memGet t.mem sp = memStoreFrom m 0 (packWords l vals k)) (hk : 1 ≤ k ∧ k ≤ 32)
    (hfit : ∀ v ∈ vals, v ≤ 2 ^ k - 1) (hj : vals[j]? = some v) : HoldsEntry t sp k (bitAddr l k j) v := by
  obtain ⟨hlt, rfl⟩ := List.getElem?_eq_some_iff.1 hj
  rw [← extractWords_of_stored hmem hk.1 hk.2 hfit hlt]
  exact extractReadsEntryBits t sp l k j hk.1 hk.2

@[simp] theorem holdsEntry_answer {s : State} {e : Err} {r : Word} {sp : Space} {k a v : Nat} :
    HoldsEntry (s.answer e r) sp k a v ↔ HoldsEntry s sp k a v := Iff.rfl

@[simp] theorem sameFrom_answer {s t : State} {e : Err} {r : Word} {sp : Space} {len : Nat} :
    SameFrom s (t.answer e r) sp len ↔ SameFrom s t sp len := Iff.rfl

@[simp] theorem sameOutside_answer {s t : State} {e : Err} {r : Word} {written : Space → Bool} :
    SameOutside written s (t.answer e r) ↔ SameOutside written s t := Iff.rfl

/-! ### The state after packing on a base kind -/

@[simp] theorem afterBase_cfg (s : State) (len : Word) (k : Nat) : (afterBase s len k).hdr.cfg = s.hdr.cfg := rfl

/-- What a compress on a base kind leaves when it packs at width `k` (R173, R175): registers 1 to 9, the entries of
`MAIN`, and everything else as it was. -/
structure PackedAt (s t : State) (len : Word) (k : Nat) : Prop where
  hdr : t.hdr = { s.hdr with
    n := len, k := BitVec.ofNat 6 k, kSmall := 0, bMain := 0, m := 0, kOver := 0,
    kTc := BitVec.ofNat 6 (s.inputTwosWidth len.toNat),
    mainWords := BitVec.ofNat 32 (streamWords s.layout len.toNat k), ovfWords := 0 }
  responses : t.responses = s.responses ++ [⟨.ok, 0⟩]
  entries : ∀ i, i < len.toNat → HoldsEntry t .main k (bitAddr s.layout k i) (s.inputCode len.toNat i)
  above : SameFrom s t .main (streamWords s.layout len.toNat k)
  outside : SameOutside (fun sp => decide (sp = .main)) s t

theorem packedAt_afterBase {s : State} {len : Word} {k : Nat} (hk : 1 ≤ k ∧ k ≤ 32)
    (hfit : ∀ c ∈ s.inputCodes len.toNat, c ≤ 2 ^ k - 1) : PackedAt s ((afterBase s len k).answer .ok 0) len k where
  hdr := rfl
  responses := rfl
  entries _ hi := holdsEntry_answer.2 <| holdsEntry_of_stored (afterBase_main s len k) hk hfit (inputCodes_getElem? hi)
  above := sameFrom_answer.2 <| sameFrom_of_stored rfl (afterBase_main s len k) (by simp)
  outside := sameOutside_answer.2 ⟨fun _ hsp => memGet_memSet_other _ _ (of_decide_eq_false hsp), rfl, rfl⟩

section
variable {s : State} {len : Word} {k : Nat} (hvalid : s.hasPacker = true)
  (hbase : isOverflow s.hdr.cfg.kind = false) (hlen : len.toNat ≤ s.hdr.nmax.toNat)
include hvalid hbase hlen

theorem exec_compress_base : exec (.compress len) s =
    .next ((afterBase s len (bitWidthFor (maxOf (s.inputCodes len.toNat)))).answer .ok 0) := by
  have hk := one_le_bitWidthFor (maxOf (s.inputCodes len.toNat))
  have hk' := bitWidthFor_inputCodes_le s len.toNat
  exact execCompress_next.2 (.inr ⟨⟨hvalid, hlen⟩, .inl ⟨hbase,
    compressBase_next.2 ⟨⟨hk, hk'⟩, (streamWords_le _ _ hk hk').trans hlen, rfl⟩⟩⟩)

theorem exec_compressk_base (hk : 1 ≤ k ∧ k ≤ 32) (hfit : ∀ c ∈ s.inputCodes len.toNat, c ≤ mask k) :
    exec (.compressk k len) s = .next ((afterBase s len k).answer .ok 0) :=
  execCompressk_next.2 (.inr ⟨⟨hvalid, hbase, hlen⟩, .inr (.inr ⟨(legalWidth_iff k).2 hk, hfit,
    compressBase_next.2 ⟨hk, (streamWords_le _ _ hk.1 hk.2).trans hlen, rfl⟩⟩)⟩)

end

/-- Settles O28: `COMPRESS` packs at the width computed for the largest code, which is the least that fits them all. -/
theorem compressBaseResult : Obligations.CompressBaseResult := by
  intro s len hvalid hbase hlen
  have hpacked := packedAt_afterBase (s := s) (len := len)
    ⟨one_le_bitWidthFor _, bitWidthFor_inputCodes_le s len.toNat⟩ fun _ hc => le_mask_bitWidthFor_maxOf hc
  exact ⟨_, _, _, exec_compress_base hvalid hbase hlen, twosWidthOf_iff.2 rfl, bitWidthFor_inputCodes_le s len.toNat,
    leastWidth_inputCode_iff.2 rfl, hpacked.hdr, hpacked.responses, hpacked.entries, hpacked.above, hpacked.outside⟩

/-- Settles O30: the codes fit the caller's width, so `COMPRESSK` packs them at it. -/
theorem compresskResult : Obligations.CompresskResult := by
  intro s k len kTc hvalid hbase hlen hk hk' hkTc hfit
  obtain rfl := twosWidthOf_iff.1 hkTc
  have hcodes : ∀ c ∈ s.inputCodes len.toNat, c ≤ 2 ^ k - 1 := forall_mem_inputCodes.2 hfit
  have hpacked := packedAt_afterBase ⟨hk, hk'⟩ hcodes
  exact ⟨_, exec_compressk_base hvalid hbase hlen ⟨hk, hk'⟩ hcodes, hpacked.hdr, hpacked.responses, hpacked.entries,
    hpacked.above, hpacked.outside⟩

/-! ### Errors and the two commands compared -/

/-- `COMPRESSK` is illegal without a packer, on an overflow kind and for an array that `IN` does not hold (R175). -/
theorem exec_compressk_illegal {s : State} {k : Nat} {len : Word}
    (h : s.hasPacker = false ∨ isOverflow s.hdr.cfg.kind = true ∨ s.hdr.nmax.toNat < len.toNat) :
    exec (.compressk k len) s = .next (s.answer .illegalCommand 0) :=
  execCompressk_next.2 (.inl ⟨h, rfl⟩)

/-- `COMPRESS` is illegal without a packer and for an array that `IN` does not hold (R172). -/
theorem exec_compress_illegal {s : State} {len : Word} (h : s.hasPacker = false ∨ s.hdr.nmax.toNat < len.toNat) :
    exec (.compress len) s = .next (s.answer .illegalCommand 0) :=
  execCompress_next.2 (.inl ⟨h, rfl⟩)

/-- Settles O31: the checks of both commands in their order. -/
theorem compressErrors : Obligations.CompressErrors := by
  intro s k len kTc hvalid hkTc
  obtain rfl := twosWidthOf_iff.1 hkTc
  refine ⟨fun hlen => exec_compress_illegal (.inr hlen), fun h => exec_compressk_illegal (.inr h), ?width, ?range⟩
  case width =>
    intro hbase hlen hk
    have hwidth := legalWidth_eq_false (k := k) (by omega)
    exact execCompressk_next.2 (.inr ⟨⟨hvalid, hbase, hlen⟩, .inl ⟨hwidth, rfl⟩⟩)
  case range =>
    intro hbase hlen hk hk' ⟨i, hi, hgt⟩
    have hcode : ∃ c ∈ s.inputCodes len.toNat, mask k < c :=
      ⟨_, List.mem_of_getElem? (inputCodes_getElem? hi), hgt⟩
    exact execCompressk_next.2 (.inr ⟨⟨hvalid, hbase, hlen⟩,
      .inr (.inl ⟨(legalWidth_iff k).2 ⟨hk, hk'⟩, hcode, rfl⟩)⟩)

/-- Settles O32: without a packer or beyond `NMAX` both commands are illegal; otherwise both pack at the same width. -/
theorem compresskAtLeastWidthIsCompress : Obligations.CompresskAtLeastWidthIsCompress := by
  intro s k len kTc hbase hkTc hleast
  obtain rfl := twosWidthOf_iff.1 hkTc
  obtain rfl := leastWidth_inputCode_iff.1 hleast
  cases hvalid : s.hasPacker with
  | false => rw [exec_compress_illegal (.inl hvalid), exec_compressk_illegal (.inl hvalid)]
  | true =>
    rcases Nat.lt_or_ge s.hdr.nmax.toNat len.toNat with hlen | hlen
    · rw [exec_compress_illegal (.inr hlen), exec_compressk_illegal (.inr (.inr hlen))]
    · rw [exec_compress_base hvalid hbase hlen]
      exact exec_compressk_base hvalid hbase hlen ⟨one_le_bitWidthFor _, bitWidthFor_inputCodes_le s len.toNat⟩
        fun _ hc => le_mask_bitWidthFor_maxOf hc

end Sys2Proof.Machine
end

section
/-! The overflow-zone selector and encoder (44_overflow_encoder.md): the selected candidate is the best one in the terms
of R147 and R150, and each record and table entry stands for the code it was built from. -/

namespace Sys2Proof.Machine

/-! ### The numbers of a candidate (R147, R148) -/

/-- The overflow codes among `n` codes are as many as the statements count. -/
theorem overflowCodes_length (n : Nat) (c : Nat → Nat) (ks : Nat) :
    (overflowCodes ((List.range n).map c) ks).length = countAbove n c ks := by
  rw [overflowCodes, ← List.countP_eq_length_filter, List.countP_map]
  rfl

/-- When there is an overflow code, the largest of them is the largest code of all (R148). -/
theorem maxOf_overflowCodes {codes : List Nat} {ks : Nat} (h : overflowCodes codes ks ≠ []) :
    maxOf (overflowCodes codes ks) = maxOf codes := by
  obtain ⟨d, hd⟩ := List.exists_mem_of_ne_nil _ h
  have hgt := (mem_overflowCodes.1 hd).2
  refine Nat.le_antisymm (maxOf_le_iff.2 fun c hc => le_maxOf (mem_overflowCodes.1 hc).1)
    (maxOf_le_iff.2 fun c hc => ?_)
  rcases Nat.lt_or_ge (threshold ks) c with hover | hinline
  · exact le_maxOf (mem_overflowCodes.2 ⟨hc, hover⟩)
  · exact hinline.trans (hgt.le.trans (le_maxOf hd))

theorem kOverFor_overflowCodes (n : Nat) (c : Nat → Nat) (ks : Nat) :
    kOverFor (overflowCodes ((List.range n).map c) ks) = overWidth n c ks := by
  rw [overWidth, ← overflowCodes_length]
  by_cases h : overflowCodes ((List.range n).map c) ks = []
  · rw [h, kOverFor_nil, List.length_nil, if_pos rfl]
  · rw [kOverFor_eq_bitWidthFor h, maxOf_overflowCodes h, if_neg (by simpa using h)]
    rfl

/-- A candidate holds the numbers that R147 defines for its inline width. -/
theorem candidate_eq (n : Nat) (c : Nat → Nat) (ks : Nat) :
    candidate ((List.range n).map c) ks =
      ⟨ks, countAbove n c ks, overWidth n c ks, recordWidth n c ks, totalBits n c ks⟩ := by
  simp only [candidate, overflowCodes_length, kOverFor_overflowCodes, List.length_map, List.length_range]
  rfl

/-! ### The selected candidate (R146, R150) -/

/-- `ks` is the first of the numbers 1 to `last` at which `total` is least. -/
def FirstLeast (total : Nat → Nat) (last ks : Nat) : Prop :=
  1 ≤ ks ∧ ks ≤ last ∧
    ∀ ks', 1 ≤ ks' → ks' ≤ last → total ks ≤ total ks' ∧ (total ks' = total ks → ks ≤ ks')

theorem FirstLeast.one (total : Nat → Nat) : FirstLeast total 1 1 :=
  ⟨le_rfl, le_rfl, fun ks' hpos hle => by obtain rfl := Nat.le_antisymm hle hpos; exact ⟨le_rfl, fun _ => le_rfl⟩⟩

/-- One more number is taken only when its total is strictly smaller. -/
theorem FirstLeast.step {total : Nat → Nat} {last ks : Nat} (h : FirstLeast total last ks) :
    FirstLeast total (last + 1) (if total (last + 1) < total ks then last + 1 else ks) := by
  obtain ⟨hpos, hle, hleast⟩ := h
  split
  case isTrue hless =>
    refine ⟨by omega, le_rfl, fun ks' hpos' hle' => ?_⟩
    rcases Nat.lt_or_eq_of_le hle' with hlt | rfl
    · have := (hleast ks' hpos' (by omega)).1
      omega
    · exact ⟨le_rfl, fun _ => le_rfl⟩
  case isFalse hnot =>
    refine ⟨hpos, by omega, fun ks' hpos' hle' => ?_⟩
    rcases Nat.lt_or_eq_of_le hle' with hlt | rfl
    · exact hleast ks' hpos' (by omega)
    · omega

/-- Going through the candidates 2 to `d + 1` in ascending order keeps the first best one so far. -/
theorem foldl_candidates (codes : List Nat) (d : Nat) :
    ∃ ks, FirstLeast (fun ks => (candidate codes ks).total) (d + 1) ks ∧
      (List.range' 2 d).foldl
        (fun best ks => if (candidate codes ks).total < best.total then candidate codes ks else best)
        (candidate codes 1) = candidate codes ks := by
  induction d with
  | zero => exact ⟨1, FirstLeast.one _, rfl⟩
  | succ d ih =>
    obtain ⟨ks, hbest, hfold⟩ := ih
    refine ⟨_, hbest.step, ?_⟩
    rw [List.range'_1_concat, List.foldl_append, hfold, List.foldl_cons, List.foldl_nil, Nat.add_comm 2 d]
    exact (apply_ite (candidate codes) _ _ _).symm

theorem one_le_lastCandidate (codes : List Nat) : 1 ≤ lastCandidate codes :=
  Nat.le_min.2 ⟨one_le_bitWidthFor _, by decide⟩

/-- The selector picks the candidate of the smallest inline width among those of least total. -/
theorem selectKSmall_best (codes : List Nat) :
    FirstLeast (fun ks => (candidate codes ks).total) (lastCandidate codes) (selectKSmall codes).kSmall ∧
      selectKSmall codes = candidate codes (selectKSmall codes).kSmall := by
  obtain ⟨ks, hbest, hfold⟩ := foldl_candidates codes (lastCandidate codes - 1)
  have hsel : selectKSmall codes = candidate codes ks := hfold
  rw [Nat.sub_add_cancel (one_le_lastCandidate codes)] at hbest
  rw [hsel]
  exact ⟨hbest, rfl⟩

theorem bestInlineWidth_selectKSmall (n : Nat) (c : Nat → Nat) :
    BestInlineWidth n c (selectKSmall ((List.range n).map c)).kSmall := by
  have hbest := (selectKSmall_best ((List.range n).map c)).1
  simp only [candidate_eq] at hbest
  exact hbest

/-! ### Records and table (R153, R154) -/

/-- The record of code `i`: the code with flag 0, or with flag 1 the number of overflow codes met before it. -/
theorem buildRecords_getElem? (ks t : Nat) {codes : List Nat} {i : Nat} (hi : i < codes.length) :
    (buildRecords ks t codes).1[i]? = some (if codes[i] ≤ threshold ks then codes[i] * 2
      else (t + (overflowCodes (codes.take i) ks).length) * 2 + 1) := by
  induction codes generalizing t i with
  | nil => simp at hi
  | cons c cs ih =>
    by_cases hc : c ≤ threshold ks
    · simp only [buildRecords, if_pos hc]
      cases i with
      | zero => simp [hc]
      | succ i =>
        rw [List.take_succ_cons, overflowCodes_cons_of_le hc]
        exact ih t (Nat.lt_of_succ_lt_succ hi)
    · simp only [buildRecords, if_neg hc]
      cases i with
      | zero => simp [hc, overflowCodes]
      | succ i =>
        rw [List.take_succ_cons, overflowCodes_cons_of_lt (Nat.lt_of_not_le hc), List.length_cons,
          Nat.add_comm (List.length _) 1, ← Nat.add_assoc]
        exact ih (t + 1) (Nat.lt_of_succ_lt_succ hi)

/-- The table lists an overflow code behind those met before it. -/
theorem overflowCodes_getElem? {codes : List Nat} {ks i : Nat} (hi : i < codes.length) (hc : threshold ks < codes[i]) :
    (overflowCodes codes ks)[(overflowCodes (codes.take i) ks).length]? = some codes[i] := by
  have hsplit : overflowCodes codes ks =
      overflowCodes (codes.take i) ks ++ codes[i] :: overflowCodes (codes.drop (i + 1)) ks := by
    rw [← overflowCodes_cons_of_lt hc, ← List.drop_eq_getElem_cons hi, overflowCodes, overflowCodes, overflowCodes,
      ← List.filter_append, List.take_append_drop]
  rw [hsplit, List.getElem?_append_right le_rfl, Nat.sub_self, List.getElem?_cons_zero]

end Sys2Proof.Machine
end

section
/-! `COMPRESS` on an overflow kind (45_packer_commands.md section 3): the registers, the records and the table that it
leaves. -/

namespace Sys2Proof.Machine

/-! ### Records and table of the selected candidate -/

theorem take_map_range {n i : Nat} (hi : i ≤ n) (c : Nat → Nat) :
    ((List.range n).map c).take i = (List.range i).map c := by
  rw [← List.map_take, List.take_range, Nat.min_eq_left hi]

section
variable {n : Nat} {c : Nat → Nat} {i : Nat} (hi : i < n)
include hi

theorem selectedRecords_getElem? :
    (selectedRecords ((List.range n).map c))[i]? =
      some (if c i ≤ threshold (selectKSmall ((List.range n).map c)).kSmall then c i * 2
        else countAbove i c (selectKSmall ((List.range n).map c)).kSmall * 2 + 1) := by
  have hi' : i < ((List.range n).map c).length := by simpa using hi
  rw [selectedRecords, buildRecords_getElem? _ _ hi', take_map_range hi.le, overflowCodes_length, Nat.zero_add]
  simp

theorem selectedTable_getElem? (hc : threshold (selectKSmall ((List.range n).map c)).kSmall < c i) :
    (selectedTable ((List.range n).map c))[countAbove i c (selectKSmall ((List.range n).map c)).kSmall]? =
      some (c i) := by
  have hi' : i < ((List.range n).map c).length := by simpa using hi
  have helem : ((List.range n).map c)[i] = c i := by simp
  rw [selectedTable, ← overflowCodes_length, ← take_map_range hi.le, overflowCodes_getElem? hi' (helem ▸ hc), helem]

end

/-! ### The state after packing on an overflow kind -/

/-- `K_SMALL` of the first `len` input words (R150). -/
def State.inlineWidth (s : State) (len : Nat) : Nat := (selectKSmall (s.inputCodes len)).kSmall

theorem bestInlineWidth_inlineWidth (s : State) (len : Nat) :
    BestInlineWidth len (s.inputCode len) (s.inlineWidth len) := by
  rw [State.inlineWidth, inputCodes_eq]
  exact bestInlineWidth_selectKSmall len _

theorem inlineWidth_candidate (s : State) (len : Nat) : selectKSmall (s.inputCodes len) =
    candidate ((List.range len).map (s.inputCode len)) (s.inlineWidth len) := by
  rw [State.inlineWidth, ← inputCodes_eq]
  exact (selectKSmall_best _).2

theorem selectKSmall_inputCodes_m (s : State) (len : Nat) :
    (selectKSmall (s.inputCodes len)).m = countAbove len (s.inputCode len) (s.inlineWidth len) := by
  rw [inlineWidth_candidate, candidate_eq]

theorem selectKSmall_inputCodes_kOver (s : State) (len : Nat) :
    (selectKSmall (s.inputCodes len)).kOver = overWidth len (s.inputCode len) (s.inlineWidth len) := by
  rw [inlineWidth_candidate, candidate_eq]

theorem selectKSmall_inputCodes_bMain (s : State) (len : Nat) :
    (selectKSmall (s.inputCodes len)).bMain = recordWidth len (s.inputCode len) (s.inlineWidth len) := by
  rw [inlineWidth_candidate, candidate_eq]

theorem packableChoice_inputCodes (s : State) {len : Nat} (hlen : len ≤ 2 ^ 24) :
    PackableChoice (s.inputCodes len) :=
  packableChoice_of_codes (by rwa [inputCodes_length]) fun _ hc => inputCodes_lt_word hc

/-- A table with an entry has a legal width (R20). -/
theorem PackableChoice.legal_kOver {codes : List Nat} (hc : PackableChoice codes) {j : Nat}
    (hj : j < (selectedTable codes).length) :
    (selectKSmall codes).m ≠ 0 ∧ 1 ≤ (selectKSmall codes).kOver ∧ (selectKSmall codes).kOver ≤ 32 := by
  rw [selectedTable_length] at hj
  have hm := Nat.ne_zero_of_lt hj
  exact ⟨hm, one_le_two.trans (two_le_selectKSmall_kOver hm), hc.2 hm⟩

theorem afterOverflow_outside (s : State) (len : Word) :
    SameOutside (fun sp => decide (sp = .main ∨ sp = .ovf)) s (afterOverflow s len) := by
  refine ⟨fun sp hsp => ?_, rfl, rfl⟩
  cases sp with
  | input => exact overflowMemory_input s (s.inputCodes len.toNat)
  | main => simp at hsp
  | ovf => simp at hsp
  | out => exact overflowMemory_out s (s.inputCodes len.toNat)

/-- The words of `OVF` above the table stay; with no overflow code none is written (R155). -/
theorem afterOverflow_ovf_above (s : State) (len : Word) :
    SameFrom s (afterOverflow s len) .ovf
      (ovfWordsFor s.layout (selectKSmall (s.inputCodes len.toNat)).m
        (selectKSmall (s.inputCodes len.toNat)).kOver) := by
  unfold ovfWordsFor
  split
  case isTrue hm =>
    intro a _
    rw [State.word, afterOverflow_ovf_of_empty hm]
    rfl
  case isFalse hm => exact sameFrom_of_stored rfl (afterOverflow_ovf hm) (by simp)

section
variable {s : State} {len : Nat} {i : Nat} (hi : i < len)
include hi

/-- The record of input word `i` (R153). -/
theorem selectedRecords_inputCodes : (selectedRecords (s.inputCodes len))[i]? =
    some (if s.inputCode len i ≤ threshold (s.inlineWidth len) then s.inputCode len i * 2
      else countAbove i (s.inputCode len) (s.inlineWidth len) * 2 + 1) := by
  rw [State.inlineWidth, inputCodes_eq]
  exact selectedRecords_getElem? hi

/-- The table entry of an input word whose code is above the threshold (R154). -/
theorem selectedTable_inputCodes (hover : threshold (s.inlineWidth len) < s.inputCode len i) :
    (selectedTable (s.inputCodes len))[countAbove i (s.inputCode len) (s.inlineWidth len)]? =
      some (s.inputCode len i) := by
  rw [State.inlineWidth, inputCodes_eq] at hover ⊢
  exact selectedTable_getElem? hi hover

end

section
variable {s : State} {len : Word} (hc : PackableChoice (s.inputCodes len.toNat)) {j v : Nat}
include hc

theorem afterOverflow_holdsRecord (hj : (selectedRecords (s.inputCodes len.toNat))[j]? = some v) :
    HoldsEntry (afterOverflow s len) .main (selectKSmall (s.inputCodes len.toNat)).bMain
      (bitAddr s.layout (selectKSmall (s.inputCodes len.toNat)).bMain j) v :=
  holdsEntry_of_stored (afterOverflow_main s len) ⟨selectKSmall_bMain_pos _, hc.1⟩
    (fun _ hr => selectedRecords_le hr) hj

theorem afterOverflow_holdsTable (hj : (selectedTable (s.inputCodes len.toNat))[j]? = some v) :
    HoldsEntry (afterOverflow s len) .ovf (selectKSmall (s.inputCodes len.toNat)).kOver
      (bitAddr s.layout (selectKSmall (s.inputCodes len.toNat)).kOver j) v := by
  obtain ⟨hm, hk⟩ := hc.legal_kOver (List.getElem?_eq_some_iff.1 hj).1
  exact holdsEntry_of_stored (afterOverflow_ovf hm) hk (fun _ hv => selectedTable_le hv) hj

end

theorem exec_compress_overflow {s : State} {len : Word} (hvalid : s.hasPacker = true)
    (hover : isOverflow s.hdr.cfg.kind = true) (hlen : len.toNat ≤ s.hdr.nmax.toNat)
    (hc : PackableChoice (s.inputCodes len.toNat)) :
    exec (.compress len) s = .next ((afterOverflow s len).answer .ok 0) := by
  have hcodes : (s.inputCodes len.toNat).length ≤ s.hdr.nmax.toNat := by rwa [inputCodes_length]
  exact execCompress_next.2 (.inr ⟨⟨hvalid, hlen⟩, .inr ⟨hover,
    compressOverflow_next.2 ⟨encodeOverflow_progress hc hcodes, rfl⟩⟩⟩)

/-- Settles O29: the selector's candidate has the numbers of R147, its inline width is the best one, and both streams
hold what the encoder built for each code. -/
theorem compressOverflowResult : Obligations.CompressOverflowResult := by
  intro s len hvalid hover hlen hnmax
  have hc := packableChoice_inputCodes s (hlen.trans hnmax)
  have hbMain := selectKSmall_inputCodes_bMain s len.toNat
  have hkOver := selectKSmall_inputCodes_kOver s len.toNat
  have hm := selectKSmall_inputCodes_m s len.toNat
  refine ⟨_, s.inlineWidth len.toNat, s.inputTwosWidth len.toNat, exec_compress_overflow hvalid hover hlen hc,
    twosWidthOf_iff.2 rfl, ?contents, rfl, sameOutside_answer.2 (afterOverflow_outside s len)⟩
  simp only [← inputCode_eq, ← hm, ← hbMain, ← hkOver, State.answer_hdr, holdsEntry_answer, sameFrom_answer]
  refine ⟨bestInlineWidth_inlineWidth s len.toNat, hc.1, hc.kOver_le, rfl, fun i hi => ?entries,
    sameFrom_of_stored rfl (afterOverflow_main s len) (by simp), afterOverflow_ovf_above s len⟩
  case entries =>
    have hrecord := afterOverflow_holdsRecord hc (selectedRecords_inputCodes hi)
    rw [threshold] at hrecord
    split
    case isTrue hinline =>
      rw [if_pos hinline] at hrecord
      exact hrecord
    case isFalse hflag =>
      rw [if_neg hflag] at hrecord
      exact ⟨hrecord, afterOverflow_holdsTable hc (selectedTable_inputCodes hi (Nat.lt_of_not_le hflag))⟩

end Sys2Proof.Machine
end

section
/-! `CREATE`, `SIZE`, `GET` and `DECOMPRESS` (45_packer_commands.md sections 1, 5, 6 and 7), and the packer commands
without a packer. -/

namespace Sys2Proof.Machine

/-! ### `CREATE`, `SIZE` and the missing packer (R170, R180, R181) -/

theorem kindOfCode_of_cases {kind : Nat} {kd : Kind}
    (h : (kind = 0 ∧ kd = .cross) ∨ (kind = 1 ∧ kd = .nocross) ∨ (kind = 2 ∧ kd = .overflowCross) ∨
      (kind = 3 ∧ kd = .overflowNocross)) : kindOfCode kind = some kd ∧ kindCode kd = kind := by
  rcases h with ⟨rfl, rfl⟩ | ⟨rfl, rfl⟩ | ⟨rfl, rfl⟩ | ⟨rfl, rfl⟩
  all_goals exact ⟨rfl, rfl⟩

/-- A cleared header reads 0 in registers 1 to 9. -/
theorem headerRegister_cleared (h : Header) (cfg : Cfg) {idx : Nat} (hpos : 1 ≤ idx) (hle : idx ≤ 9) :
    headerRegister (clearedHeader h cfg) idx = some 0 := by
  interval_cases idx
  all_goals rfl

/-- Settles O25: the code names its kind and is the code of it. -/
theorem createResult : Obligations.CreateResult := by
  intro kind kd signed zigzag s h
  obtain ⟨hkind, hcode⟩ := kindOfCode_of_cases h
  refine ⟨_, execCreate_next.2 (.inr ⟨kd, hkind, rfl⟩), rfl, ?_, fun _ => headerRegister_cleared s.hdr _⟩
  simp only [State.answer_hdr, headerRegister, clearedHeader_cfg, cfgWord, hcode, Bool.toNat_true, Nat.one_mul]

/-- Settles O27: `VALID` is the first check of each of the six commands. -/
theorem packerCommandsNeedPacker : Obligations.PackerCommandsNeedPacker := by
  intro s i hvalid hi
  rcases hi with ⟨len, rfl⟩ | ⟨k, len, rfl⟩ | ⟨j, rfl⟩ | ⟨len, rfl⟩ | rfl | ⟨st, j, rfl⟩
  · exact exec_compress_illegal (.inl hvalid)
  · exact exec_compressk_illegal (.inl hvalid)
  · exact execGet_next.2 (.inl ⟨hvalid, rfl⟩)
  · exact execDecompress_next.2 (.inl ⟨hvalid, rfl⟩)
  · exact execSize_next.2 (.inl ⟨hvalid, rfl⟩)
  · cases st with
    | main => exact execAddr_main_next.2 (.inl ⟨hvalid, rfl⟩)
    | overflow => exact execAddr_overflow_next.2 (.inl ⟨.inl hvalid, rfl⟩)

/-- Settles O39: the register `N`. -/
theorem sizeResult : Obligations.SizeResult :=
  fun _ hvalid => execSize_next.2 (.inr ⟨hvalid, rfl⟩)

/-! ### `GET` (R176, R177) -/

/-- `GET` answers without an error exactly for an element whose value can be read, and answers that value. -/
theorem exec_get_ok_iff {s : State} {j v : Word} : exec (.get j) s = .next (s.answer .ok v) ↔
    s.hdr.cfg.valid = true ∧ j.toNat < s.hdr.n.toNat ∧ getValue s j.toNat = .ok v := by
  refine execGet_next.trans ⟨fun h => ?_, fun ⟨hvalid, hj, hv⟩ => .inr (.inr ⟨hvalid, hj, v, hv, rfl⟩)⟩
  simp only [State.answer_inj, reduceCtorEq, false_and, and_false, false_or, true_and] at h
  obtain ⟨hvalid, hj, u, hu, rfl⟩ := h
  exact ⟨hvalid, hj, hu⟩

section
variable {s : State} (hinv : HeaderInv s.hdr) (hvalid : s.hdr.cfg.valid = true) {i : Nat} (hi : i < s.hdr.n.toNat)
include hinv hvalid hi

/-- The registers of an array that is not empty let its codes be decoded (R98, R103). -/
theorem HeaderInv.decodeCode_eq (c : Nat) :
    decodeCode s.mode s.hdr.kTc.toNat c = .ok (valueOf s.mode s.hdr.kTc.toNat c) := by
  suffices h : ∃ v, decodeCode s.mode s.hdr.kTc.toNat c = .ok v by
    obtain ⟨v, hv⟩ := h
    rw [hv, eq_valueOf_of_decodeCode hv]
  cases hmode : s.mode with
  | none => exact ⟨_, rfl⟩
  | zigzag => exact ⟨_, rfl⟩
  | twos =>
    have hkTc := (hinv.kTc_twos hvalid hmode).resolve_left fun ⟨hn, _⟩ => by simp [hn] at hi
    exact ⟨_, if_pos ((legalWidth_iff _).2 hkTc)⟩

variable (hbase : isOverflow s.hdr.cfg.kind = false)
include hbase

theorem HeaderInv.legal_k : 1 ≤ s.hdr.k.toNat ∧ s.hdr.k.toNat ≤ 32 := by
  obtain ⟨hk, -⟩ := (hinv.packedShape hvalid (Nat.zero_lt_of_lt hi)).main
  rwa [mainEntryWidth, hbase] at hk

/-- The value of an element of a base kind is that of its entry (R177). -/
theorem HeaderInv.getValue_base : getValue s i =
    .ok (valueOf s.mode s.hdr.kTc.toNat (extractWords s.layout (s.word .main) s.hdr.k.toNat i)) := by
  have hcode : getCode s i = .ok (extractWords s.layout (s.word .main) s.hdr.k.toNat i) := by
    rw [getCode, hbase]
    exact extract_of_lt .main (hinv.legal_k hvalid hi hbase) hi hinv.n_le
  rw [getValue, hcode]
  exact hinv.decodeCode_eq hvalid hi _

end

/-- Settles O34: the entry at the bit address of the index is the one that `GET` extracts and decodes. -/
theorem getBaseResult : Obligations.GetBaseResult := by
  intro s i hinv hvalid hbase hi
  obtain ⟨hk, hk'⟩ := hinv.legal_k hvalid hi hbase
  exact ⟨_, extractReadsEntryBits s .main s.layout _ _ hk hk',
    exec_get_ok_iff.2 ⟨hvalid, hi, hinv.getValue_base hvalid hi hbase⟩⟩

/-! ### What keeps the values (R179 (b), R259) -/

theorem SamePacked.getValue_eq {s t : State} (h : SamePacked s t) (i : Nat) : getValue t i = getValue s i := by
  rw [getValue, getValue, h.getCode_eq]
  obtain ⟨hhdr, -, -⟩ := h
  rw [hhdr]

/-- A command that neither replaces the packer nor its array leaves the packed array. -/
theorem samePacked_of_exec {i : Instr} {s t : State} (hi : replacesArray i = false) (h : exec i s = .next t) :
    SamePacked s t := by
  rcases exec_effect h with ⟨e, -, -, rfl, -⟩ | ⟨-, v, rfl⟩ | ⟨k, signed, zigzag, kd, rfl, -⟩ |
    ⟨len, k, rfl | ⟨k', rfl⟩, -⟩ | ⟨len, rfl, -⟩ | ⟨vs, -, -, -, -, rfl⟩ | ⟨idx, v, -, -, rfl⟩
  · exact samePacked_answer s e 0
  · exact samePacked_answer s .ok v
  · cases hi
  · cases hi
  · cases hi
  · cases hi
  · exact ⟨rfl, rfl, rfl⟩
  · exact ⟨rfl, rfl, rfl⟩

/-- Settles O51: `GET` answers by `VALID`, `N` and the value of the element, which the other commands leave. -/
theorem getSurvivesOtherCommands : Obligations.GetSurvivesOtherCommands := by
  intro i s t j v hi h hget
  have hsame := samePacked_of_exec hi h
  obtain ⟨hvalid, hj, hv⟩ := exec_get_ok_iff.1 hget
  have hhdr := hsame.1
  refine exec_get_ok_iff.2 ⟨?_, ?_, (hsame.getValue_eq _).trans hv⟩
  · rw [hhdr]
    exact hvalid
  · rw [hhdr]
    exact hj

/-! ### `DECOMPRESS` (R178) -/

/-- The state after these values of the elements were written to `OUT`. -/
def decompressed (s : State) (value : Nat → Word) : State :=
  { s with
    hdr := { s.hdr with outLen := s.hdr.n }
    mem := memSet s.mem .out (memStoreFrom (memGet s.mem .out) 0 ((List.range s.hdr.n.toNat).map value)) }

theorem decompressed_out (s : State) (value : Nat → Word) : memGet (decompressed s value).mem .out =
    memStoreFrom (memGet s.mem .out) 0 ((List.range s.hdr.n.toNat).map value) := rfl

theorem decompressed_word {s : State} {i : Nat} (hi : i < s.hdr.n.toNat) (value : Nat → Word) :
    (decompressed s value).word .out i = value i := by
  rw [word_of_stored (decompressed_out s value) (by simpa using hi)]
  simp

theorem exec_decompress {s : State} (hvalid : s.hdr.cfg.valid = true) (hn : s.hdr.n.toNat ≤ s.hdr.nmax.toNat)
    {value : Nat → Word} (hvalue : ∀ i, i < s.hdr.n.toNat → getValue s i = .ok (value i)) :
    exec (.decompress s.hdr.n) s = .next ((decompressed s value).answer .ok 0) := by
  refine execDecompress_next.2 (.inr (.inr ⟨hvalid, rfl, hn, (List.range s.hdr.n.toNat).map value, ?_, rfl⟩))
  rw [List.map_map]
  exact List.map_congr_left fun i hi => hvalue i (List.mem_range.1 hi)

/-- Settles O37: where the invariants hold every element has a value, which `GET` answers and `DECOMPRESS` writes. -/
theorem decompressResult : Obligations.DecompressResult := by
  intro s hinv hvalid
  have hvalues : ∀ i, i < s.hdr.n.toNat → ∃ v, getValue s i = .ok v := fun i hi => hinv.getValue_progress hi hvalid
  choose! value hvalue using hvalues
  refine ⟨_, exec_decompress hvalid hinv.header.n_le hvalue, rfl, rfl, fun i hi => ?_,
    sameFrom_answer.2 (sameFrom_of_stored rfl (decompressed_out s value) (by simp)),
    sameOutside_answer.2 ⟨fun _ hsp => memGet_memSet_other _ _ (of_decide_eq_false hsp), rfl, rfl⟩⟩
  rw [State.answer_word, decompressed_word hi]
  exact exec_get_ok_iff.2 ⟨hvalid, hi, hvalue _ hi⟩

end Sys2Proof.Machine
end

section
/-! What a compress leaves for the commands after it (45_packer_commands.md section 6): every element has the value of
its input word, on every kind and in every mode, and nothing but the packer and the array was read. -/

namespace Sys2Proof.Machine

/-! ### The codes read back -/

theorem afterBase_getCode_eq {s : State} {len : Word} {k i : Nat} (hbase : isOverflow s.hdr.cfg.kind = false)
    (hlen : len.toNat ≤ s.hdr.nmax.toNat) (hk : 1 ≤ k ∧ k ≤ 32) (hfit : ∀ c ∈ s.inputCodes len.toNat, c ≤ mask k)
    (hi : i < len.toNat) : getCode (afterBase s len k) i = .ok (s.inputCode len.toNat i) := by
  obtain ⟨hi', hcode⟩ := List.getElem?_eq_some_iff.1 (inputCodes_getElem? (s := s) hi)
  have hreg : (afterBase s len k).hdr.k.toNat = k := toNat_ofNat_width hk.2
  rw [getCode, afterBase_cfg, hbase, hreg, ← hcode,
    ← extractWords_of_stored (afterBase_main s len k) hk.1 hk.2 hfit hi']
  exact extract_of_lt .main hk hi hlen

section
variable {s : State} {len : Word} (hlen : len.toNat ≤ s.hdr.nmax.toNat)
  (hc : PackableChoice (s.inputCodes len.toNat)) {j v : Nat}
include hlen hc

theorem afterOverflow_extract_record (hj : (selectedRecords (s.inputCodes len.toNat))[j]? = some v) :
    extract (afterOverflow s len) .main s.layout (afterOverflow s len).hdr.bMain.toNat j = .ok v := by
  obtain ⟨hlt, rfl⟩ := List.getElem?_eq_some_iff.1 hj
  rw [← afterOverflow_record hc hlt, State.record, afterOverflow_bMain hc]
  exact extract_of_lt .main ⟨selectKSmall_bMain_pos _, hc.1⟩ (by simpa using hlt) hlen

theorem afterOverflow_extract_table (hj : (selectedTable (s.inputCodes len.toNat))[j]? = some v) :
    extract (afterOverflow s len) .ovf s.layout (afterOverflow s len).hdr.kOver.toNat j = .ok v := by
  obtain ⟨hlt, rfl⟩ := List.getElem?_eq_some_iff.1 hj
  have hle : (selectedTable (s.inputCodes len.toNat)).length ≤ s.hdr.nmax.toNat := by
    rw [selectedTable_length]
    exact (selectKSmall_m_le _).trans (by rwa [inputCodes_length])
  rw [← afterOverflow_table hc hlt, afterOverflow_kOver hc]
  exact extract_of_lt .ovf (hc.legal_kOver hlt).2 hlt hle

/-- The record of an element is its code with flag 0, or the number of the table entry that holds it with flag 1. -/
theorem afterOverflow_getCode_eq (hover : isOverflow s.hdr.cfg.kind = true) {i : Nat} (hi : i < len.toNat) :
    getCode (afterOverflow s len) i = .ok (s.inputCode len.toNat i) := by
  have hrecord : extract (afterOverflow s len) .main (layoutOf s.hdr.cfg.kind) _ i = _ :=
    afterOverflow_extract_record hlen hc (selectedRecords_inputCodes hi)
  rw [getCode, afterOverflow_cfg, if_pos hover, getCodeOverflow, afterOverflow_cfg, hrecord]
  dsimp only
  by_cases hinline : s.inputCode len.toNat i ≤ threshold (s.inlineWidth len.toNat)
  · rw [if_pos hinline, Nat.mul_mod_left, if_pos rfl, Nat.mul_div_cancel _ (by decide)]
  · rw [if_neg hinline, if_neg (by omega), show ∀ t, (t * 2 + 1) / 2 = t by omega]
    exact afterOverflow_extract_table hlen hc (selectedTable_inputCodes hi (Nat.lt_of_not_le hinline))

end

/-! ### The array after a compress -/

/-- A compress that answers without an error had a packer and room for the array, and packed it on its kind. -/
theorem compress_effect {i : Instr} {s t : State} {len : Word} (hi : i = .compress len ∨ ∃ k, i = .compressk k len)
    (h : exec i s = .next t) (hok : t.responses = s.responses ++ [⟨.ok, 0⟩]) :
    (s.hdr.cfg.valid = true ∧ len.toNat ≤ s.hdr.nmax.toNat) ∧
      ((isOverflow s.hdr.cfg.kind = false ∧ ∃ k, (1 ≤ k ∧ k ≤ 32) ∧ (∀ c ∈ s.inputCodes len.toNat, c ≤ mask k) ∧
          t = (afterBase s len k).answer .ok 0) ∨
        (isOverflow s.hdr.cfg.kind = true ∧ PackableChoice (s.inputCodes len.toNat) ∧
          t = (afterOverflow s len).answer .ok 0)) := by
  cases hkind : isOverflow s.hdr.cfg.kind with
  | false =>
    refine ⟨?_, .inl ⟨rfl, compress_base_effect hi hkind h hok⟩⟩
    rcases hi with rfl | ⟨k, rfl⟩
    · rcases execCompress_next.1 h with ⟨-, rfl⟩ | ⟨hlen, -⟩
      · simp at hok
      · exact hlen
    · rcases execCompressk_next.1 h with ⟨-, rfl⟩ | ⟨⟨hvalid, -, hlen⟩, -⟩
      · simp at hok
      · exact ⟨hvalid, hlen⟩
  | true =>
    rcases hi with rfl | ⟨k, rfl⟩
    · rcases execCompress_next.1 h with ⟨-, rfl⟩ | ⟨hlen, ⟨hbase, -⟩ | ⟨-, hpack⟩⟩
      · simp at hok
      · exact absurd (hkind.symm.trans hbase) (by decide)
      · obtain ⟨⟨s', henc⟩, rfl⟩ := compressOverflow_next.1 hpack
        exact ⟨hlen, .inr ⟨rfl, packableChoice_of_encode henc, rfl⟩⟩
    · rcases execCompressk_next.1 h with ⟨-, rfl⟩ | ⟨⟨-, hbase, -⟩, -⟩
      · simp at hok
      · exact absurd (hkind.symm.trans hbase) (by decide)

/-- The state holds `len` elements, and the value of element `i` is `value i`. -/
structure HoldsArray (t : State) (len : Word) (value : Nat → Word) : Prop where
  valid : t.hdr.cfg.valid = true
  n_eq : t.hdr.n = len
  n_le : len.toNat ≤ t.hdr.nmax.toNat
  value_eq : ∀ i, i < len.toNat → getValue t i = .ok (value i)

/-- The value of an element whose code is the code of an input word is that word (R103). -/
theorem getValue_of_inputCode {s t : State} {len i : Nat} (hmode : t.mode = s.mode)
    (hkTc : t.hdr.kTc = BitVec.ofNat 6 (s.inputTwosWidth len)) (hi : i < len)
    (hcode : getCode t i = .ok (s.inputCode len i)) : getValue t i = .ok (s.word .input i) := by
  rw [getValue, hcode, hkTc, toNat_ofNat_width (inputTwosWidth_le s len), ← decodeCode_inputCode hi, ← hmode]
  rfl

/-- A compress that answers without an error leaves the input words as the values of the elements. -/
theorem holdsArray_of_compress {i : Instr} {s t : State} {len : Word}
    (hi : i = .compress len ∨ ∃ k, i = .compressk k len) (h : exec i s = .next t)
    (hok : t.responses = s.responses ++ [⟨.ok, 0⟩]) : HoldsArray t len (s.word .input) := by
  obtain ⟨⟨hvalid, hlen⟩, ⟨hbase, k, hk, hfit, rfl⟩ | ⟨hover, hc, rfl⟩⟩ := compress_effect hi h hok
  case inl =>
    refine ⟨hvalid, rfl, hlen, fun j hj => ?_⟩
    rw [(samePacked_answer _ _ _).getValue_eq]
    exact getValue_of_inputCode rfl rfl hj (afterBase_getCode_eq hbase hlen hk hfit hj)
  case inr =>
    refine ⟨hvalid, rfl, hlen, fun j hj => ?_⟩
    rw [(samePacked_answer _ _ _).getValue_eq]
    exact getValue_of_inputCode rfl rfl hj (afterOverflow_getCode_eq hlen hc hover hj)

/-- Settles O59: each element has the value of its input word, and `GET` answers the value. -/
theorem compressThenGet : Obligations.CompressThenGet := by
  intro s t i len _ hi h hok j hj
  obtain ⟨hvalid, hn, -, hvalue⟩ := holdsArray_of_compress hi h hok
  exact exec_get_ok_iff.2 ⟨hvalid, by rwa [hn], hvalue _ hj⟩

/-- Settles O60: `DECOMPRESS` writes the values, which are the input words. -/
theorem compressThenDecompress : Obligations.CompressThenDecompress := by
  intro s t len _ h hok
  obtain ⟨hvalid, rfl, hn, hvalue⟩ := holdsArray_of_compress (.inl rfl) h hok
  exact ⟨_, exec_decompress hvalid hn hvalue, rfl, rfl, fun j hj => decompressed_word hj _⟩

/-! ### What a compress reads (R179 (d)) -/

section
variable {s s' : State} (hcfg : s.hdr.cfg = s'.hdr.cfg) {len : Nat}
  (hinput : ∀ i, i < len → s.word .input i = s'.word .input i)
include hinput

theorem inputArray_congr : s'.inputArray len = s.inputArray len :=
  List.map_congr_left fun i hi => (hinput i (List.mem_range.1 hi)).symm

include hcfg

theorem inputCodes_congr : s'.inputCodes len = s.inputCodes len := by
  rw [State.inputCodes, State.inputCodes, inputArray_congr hinput, hcfg]

theorem inputTwosWidth_congr : s'.inputTwosWidth len = s.inputTwosWidth len := by
  rw [State.inputTwosWidth, State.inputTwosWidth, inputArray_congr hinput, State.mode, State.mode, hcfg]

end

/-- Two spaces into which the same words were stored agree on them. -/
theorem word_eq_of_stored {t t' : State} {sp : Space} {m m' : Mem} {vs : List Word}
    (hmem : memGet t.mem sp = memStoreFrom m 0 vs) (hmem' : memGet t'.mem sp = memStoreFrom m' 0 vs) {a : Nat}
    (ha : a < vs.length) : t.word sp a = t'.word sp a := by
  rw [word_of_stored hmem ha, word_of_stored hmem' ha]

/-- Two packed states have the same registers, each its own `OUT_LEN`, and the same readable words of the streams. -/
def SameArray (t t' : State) : Prop :=
  t'.hdr = { t.hdr with outLen := t'.hdr.outLen } ∧
    (∀ a, a < t.hdr.mainWords.toNat → t.word .main a = t'.word .main a) ∧
    (∀ a, a < t.hdr.ovfWords.toNat → t.word .ovf a = t'.word .ovf a)

section
variable {s s' : State} (hcfg : s.hdr.cfg = s'.hdr.cfg) (hnmax : s.hdr.nmax = s'.hdr.nmax) {len : Word}
  (hinput : ∀ i, i < len.toNat → s.word .input i = s'.word .input i)
include hcfg hnmax hinput

theorem sameArray_afterBase {k : Nat} (hk : 1 ≤ k ∧ k ≤ 32) : SameArray (afterBase s len k) (afterBase s' len k) := by
  have hwords : (afterBase s len k).hdr.mainWords.toNat = streamWords s.layout len.toNat k :=
    toNat_ofNat_le (streamWords_le _ _ hk.1 hk.2)
  have hkTc := inputTwosWidth_congr hcfg hinput
  have hmain := afterBase_main s' len k
  rw [inputCodes_congr hcfg hinput, State.layout, ← hcfg] at hmain
  refine ⟨?_, fun a ha => word_eq_of_stored (afterBase_main s len k) hmain ?_,
    fun a ha => absurd ha (Nat.not_lt_zero a)⟩
  · unfold State.inputTwosWidth at hkTc
    simp only [afterBase, baseHeader, hkTc, hcfg, hnmax]
  · rw [packWords_length, inputCodes_length, ← hwords]
    exact ha

theorem sameArray_afterOverflow (hc : PackableChoice (s.inputCodes len.toNat)) :
    SameArray (afterOverflow s len) (afterOverflow s' len) := by
  have hcodes := inputCodes_congr hcfg hinput
  have hkTc := inputTwosWidth_congr hcfg hinput
  have hlayout : s'.layout = s.layout := by rw [State.layout, State.layout, hcfg]
  have hmain := afterOverflow_main s' len
  rw [hcodes, hlayout] at hmain
  refine ⟨?registers, fun a ha => word_eq_of_stored (afterOverflow_main s len) hmain ?_, fun a ha => ?_⟩
  case registers =>
    unfold State.inputTwosWidth at hkTc
    simp only [afterOverflow, overflowHeader, hcodes, hkTc, hcfg, hnmax]
  · rw [packWords_length, selectedRecords_length, inputCodes_length, ← afterOverflow_mainWords hc]
    exact ha
  · rw [afterOverflow_ovfWords hc, ovfWordsFor] at ha
    split at ha
    case isTrue => exact absurd ha (Nat.not_lt_zero a)
    case isFalse hm =>
      have hovf := afterOverflow_ovf (s := s') (len := len) (by rwa [hcodes])
      rw [hcodes, hlayout] at hovf
      exact word_eq_of_stored (afterOverflow_ovf hm) hovf (by rwa [packWords_length, selectedTable_length])

end

/-- Settles O52: the codes are those of the first `len` input words, so both states pack the same words at the same
widths. -/
theorem compressDependsOnInputOnly : Obligations.CompressDependsOnInputOnly := by
  intro s s' t t' len hcfg hnmax hinput h h' hok
  obtain ⟨⟨hvalid, hlen⟩, hend⟩ := compress_effect (.inl rfl) h hok
  have hcodes := inputCodes_congr hcfg hinput
  have hvalid' : s'.hdr.cfg.valid = true := hcfg ▸ hvalid
  have hlen' : len.toNat ≤ s'.hdr.nmax.toNat := hnmax ▸ hlen
  rcases hend with ⟨hbase, -⟩ | ⟨hover, hc, -⟩
  case inl =>
    have ht := exec_compress_base hvalid hbase hlen
    have ht' := exec_compress_base hvalid' (hcfg ▸ hbase) hlen'
    rw [hcodes] at ht'
    obtain rfl := Host.Outcome.next.inj (h.symm.trans ht)
    obtain rfl := Host.Outcome.next.inj (h'.symm.trans ht')
    simp only [State.answer_hdr, State.answer_word, State.answer_responses]
    exact ⟨rfl, sameArray_afterBase hcfg hnmax hinput ⟨one_le_bitWidthFor _, bitWidthFor_inputCodes_le s _⟩⟩
  case inr =>
    have ht := exec_compress_overflow hvalid hover hlen hc
    have ht' := exec_compress_overflow hvalid' (hcfg ▸ hover) hlen' (hcodes.symm ▸ hc)
    obtain rfl := Host.Outcome.next.inj (h.symm.trans ht)
    obtain rfl := Host.Outcome.next.inj (h'.symm.trans ht')
    simp only [State.answer_hdr, State.answer_word, State.answer_responses]
    exact ⟨rfl, sameArray_afterOverflow hcfg hnmax hinput hc⟩

end Sys2Proof.Machine
end

section
/-! The zero-length array (R185): compressing it writes registers and no word, and the commands after it find no
element. -/

namespace Sys2Proof.Machine

/-! ### No words and no codes -/

theorem word_zero_toNat : (0 : Word).toNat = 0 := rfl

theorem streamWords_zero (l : Layout) {k : Nat} (hk : 1 ≤ k ∧ k ≤ 32) : streamWords l 0 k = 0 :=
  Nat.le_zero.1 (streamWords_le l 0 hk.1 hk.2)

theorem packWords_nil (l : Layout) {k : Nat} (hk : 1 ≤ k ∧ k ≤ 32) : packWords l [] k = [] := by
  rw [← List.length_eq_zero_iff, packWords_length]
  exact streamWords_zero l hk

@[simp] theorem inputCodes_zero (s : State) : s.inputCodes 0 = [] :=
  List.length_eq_zero_iff.1 (inputCodes_length s 0)

theorem inputTwosWidth_zero (s : State) : s.inputTwosWidth 0 = if s.mode = .twos then 1 else 0 := by
  split
  case isTrue hmode =>
    rw [State.inputTwosWidth, hmode]
    rfl
  case isFalse hmode => exact kTcFor_eq_zero hmode _

/-- With no code the only candidate is the inline width 1 (R146). -/
theorem selectKSmall_nil : selectKSmall [] = ⟨1, 0, 0, 2, 0⟩ := by decide

/-! ### The state after compressing nothing -/

/-- What compressing the zero-length array leaves: the registers of R185, every memory and the channel as they were. -/
structure PackedNothing (s t : State) : Prop where
  hdr : t.hdr = { s.hdr with
    n := 0, k := if isOverflow s.hdr.cfg.kind then 0 else 1,
    kSmall := if isOverflow s.hdr.cfg.kind then 1 else 0,
    bMain := if isOverflow s.hdr.cfg.kind then 2 else 0,
    m := 0, kOver := 0, kTc := if s.mode = .twos then 1 else 0, mainWords := 0, ovfWords := 0 }
  mem : t.mem = s.mem
  responses : t.responses = s.responses ++ [⟨.ok, 0⟩]
  inputs : t.inputs = s.inputs
  epoch : t.epoch = s.epoch

/-- Storing no word leaves the memories. -/
theorem memSet_memStoreFrom_nil (m : Memory) (sp : Space) (a : Nat) :
    memSet m sp (memStoreFrom (memGet m sp) a []) = m := memSet_memGet m sp

theorem packedNothing_afterBase {s : State} (hbase : isOverflow s.hdr.cfg.kind = false) :
    PackedNothing s ((afterBase s 0 1).answer .ok 0) where
  hdr := by
    have hkTc := inputTwosWidth_zero s
    have hwords := streamWords_zero (layoutOf s.hdr.cfg.kind) (k := 1) (by decide)
    unfold State.inputTwosWidth at hkTc
    simp only [State.answer_hdr, afterBase, baseHeader, hbase, word_zero_toNat, hkTc, hwords,
      Bool.false_eq_true, if_false]
    split <;> rfl
  mem := by
    have hwords := packWords_nil s.layout (k := 1) (by decide)
    simp only [State.answer_mem, afterBase, word_zero_toNat, inputCodes_zero, hwords, memSet_memStoreFrom_nil]
  responses := rfl
  inputs := rfl
  epoch := rfl

theorem packedNothing_afterOverflow {s : State} (hover : isOverflow s.hdr.cfg.kind = true) :
    PackedNothing s ((afterOverflow s 0).answer .ok 0) where
  hdr := by
    have hkTc := inputTwosWidth_zero s
    have hwords := streamWords_zero (layoutOf s.hdr.cfg.kind) (k := 2) (by decide)
    unfold State.inputTwosWidth at hkTc
    simp only [State.answer_hdr, afterOverflow, overflowHeader, hover, word_zero_toNat, inputCodes_zero,
      selectKSmall_nil, hkTc, hwords, if_true]
    split <;> rfl
  mem := by
    have hwords := packWords_nil s.layout (k := 2) (by decide)
    simp only [State.answer_mem, afterOverflow, overflowMemory, word_zero_toNat, inputCodes_zero, selectKSmall_nil,
      buildRecords, hwords, memSet_memStoreFrom_nil, if_true]
  responses := rfl
  inputs := rfl
  epoch := rfl

theorem exec_compress_zero {s : State} (hvalid : s.hasPacker = true) :
    ∃ t, exec (.compress 0) s = .next t ∧ PackedNothing s t := by
  have hlen : (0 : Word).toNat ≤ s.hdr.nmax.toNat := Nat.zero_le _
  cases hkind : isOverflow s.hdr.cfg.kind with
  | false =>
    have h := exec_compress_base hvalid hkind hlen
    rw [word_zero_toNat, inputCodes_zero] at h
    exact ⟨_, h, packedNothing_afterBase hkind⟩
  | true =>
    exact ⟨_, exec_compress_overflow hvalid hkind hlen (packableChoice_inputCodes s (Nat.zero_le _)),
      packedNothing_afterOverflow hkind⟩

/-! ### The commands after it -/

/-- An array without elements decompresses to no word. -/
theorem decompressed_of_empty {t : State} (hn : t.hdr.n = 0) (value : Nat → Word) :
    decompressed t value = { t with hdr := { t.hdr with outLen := 0 } } := by
  simp only [decompressed, hn, word_zero_toNat, List.range_zero, List.map_nil, memSet_memStoreFrom_nil]

/-- Settles O33: the selector has one candidate and the base kinds width 1; the array that is left has no element. -/
theorem zeroLengthArray : Obligations.ZeroLengthArray := by
  intro s hvalid
  obtain ⟨t, hexec, hpacked⟩ := exec_compress_zero hvalid
  have hvalid' : t.hdr.cfg.valid = true := by
    rw [hpacked.hdr]
    exact hvalid
  have hn : t.hdr.n = 0 := by rw [hpacked.hdr]
  refine ⟨t, hexec, hpacked.responses, hpacked.mem, hpacked.inputs, hpacked.epoch, hpacked.hdr, ?size, fun i => ?get,
    ?decompress⟩
  case size => exact execSize_next.2 (.inr ⟨hvalid', by rw [hn]; rfl⟩)
  case get => exact execGet_next.2 (.inr (.inl ⟨hvalid', by rw [hn]; exact Nat.zero_le _, rfl⟩))
  case decompress =>
    have h := exec_decompress (s := t) (value := t.word .out) hvalid' (by rw [hn]; exact Nat.zero_le _)
      (by rw [hn]; exact fun i hi => absurd hi (Nat.not_lt_zero i))
    rw [decompressed_of_empty hn, hn] at h
    exact h

end Sys2Proof.Machine
end

section
/-! The access commands (46_access_commands.md): the word that `WRIN` writes, the reads within a valid length, and the
header registers by number. -/

namespace Sys2Proof.Machine

/-! ### `WRIN` (R200) -/

/-- The words of a space after writing one of them. -/
theorem word_memStore (s : State) (sp : Space) (a : Nat) (v : Word) (b : Nat) :
    State.word { s with mem := memSet s.mem sp (memStore (memGet s.mem sp) a v) } sp b =
      if b = a then v else s.word sp b := by
  rw [State.word, memGet_memSet_same, memFind_memStore]
  split <;> rfl

/-- Settles O41: the decoder reads the index back from the command word, and storing a word of `IN` changes the word at
that index alone. -/
theorem wrinResult : Obligations.WrinResult := by
  intro idx v s
  refine ⟨fun hidx => decodeOfEncode (.wrin idx v) (decide_eq_true hidx), fun hidx => ?legal, fun hidx => ?illegal⟩
  case legal =>
    refine ⟨_, execWrin_next.2 (.inr ⟨hidx, rfl⟩), ?written, fun a ha => ?others, rfl, rfl,
      sameOutside_answer.2 ⟨fun _ hsp => memGet_memSet_other _ _ (of_decide_eq_false hsp), rfl, rfl⟩⟩
    case written => rw [State.answer_word, word_memStore, if_pos rfl]
    case others => rw [State.answer_word, word_memStore, if_neg ha]
  case illegal => exact execWrin_next.2 (.inl ⟨hidx, rfl⟩)

/-! ### `RDOUT`, `RDMAIN` and `RDOVF` (R201 to R203) -/

/-- Where the valid length stays within `NMAX`, a read answers the word below it and the error beyond it. -/
theorem readWithin_eq {s : State} {len : Word} (hlen : len.toNat ≤ s.hdr.nmax.toNat) (sp : Space) (idx : Nat) :
    readWithin sp len idx s = .next { s with responses := s.responses ++
      [if idx < len.toNat then ⟨.ok, s.word sp idx⟩ else ⟨.illegalCommand, 0⟩] } := by
  split
  case isTrue hidx => exact readWithin_next.2 (.inr ⟨hidx, hidx.trans_le hlen, rfl⟩)
  case isFalse hidx => exact readWithin_next.2 (.inl ⟨Nat.le_of_not_lt hidx, rfl⟩)

/-- Settles O42: the header invariants bound the three valid lengths by `NMAX`. -/
theorem readWordResult : Obligations.ReadWordResult := by
  intro idx s hinv
  have hmain : s.hdr.mainWords.toNat ≤ s.hdr.nmax.toNat := hinv.mainWords_le.trans hinv.n_le
  have hovf : s.hdr.ovfWords.toNat ≤ s.hdr.nmax.toNat := (hinv.ovfWords_le.trans hinv.m_le).trans hinv.n_le
  exact ⟨readWithin_eq hinv.outLen_le .out idx, readWithin_eq hmain .main idx, readWithin_eq hovf .ovf idx⟩

/-! ### `RDHDR` (R204) -/

/-- The twelve header registers as they read, in the order of their numbers (R13). -/
def headerWords (h : Header) : List Word :=
  [cfgWord h.cfg, h.n, h.k.setWidth 32, h.kSmall.setWidth 32, h.bMain.setWidth 32, h.m, h.kOver.setWidth 32,
    h.kTc.setWidth 32, h.mainWords, h.ovfWords, h.outLen, h.nmax]

theorem headerRegister_of_le {h : Header} {idx : Nat} (hidx : idx ≤ 11) :
    headerRegister h idx = some ((headerWords h).getD idx 0) := by
  interval_cases idx
  all_goals rfl

theorem headerRegister_of_reserved {h : Header} {idx : Nat} (hidx : 11 < idx) : headerRegister h idx = none := by
  obtain ⟨reserved, rfl⟩ := Nat.exists_eq_add_of_le' hidx
  rfl

theorem exec_rdhdr (idx : Nat) (s : State) : exec (.rdhdr idx) s = .next { s with responses := s.responses ++
    [if 11 < idx then ⟨.illegalCommand, 0⟩ else ⟨.ok, (headerWords s.hdr).getD idx 0⟩] } := by
  split
  case isTrue hidx => exact execRdhdr_next.2 (.inl ⟨headerRegister_of_reserved hidx, rfl⟩)
  case isFalse hidx => exact execRdhdr_of_some (headerRegister_of_le (Nat.le_of_not_lt hidx))

/-- Settles O43: the decoder reads the register number back whatever the operand, and the number names a word of the
header or is reserved. -/
theorem rdhdrResult : Obligations.RdhdrResult :=
  fun idx s => ⟨fun hidx _ => decode_commandWord .rdhdr hidx (by decide) (by decide) rfl, exec_rdhdr idx s⟩

end Sys2Proof.Machine
end

section
/-! Exceptions (60_exceptions.md): the errors of single commands, what a failed command leaves, which command raises
which error, and that no command reads the earlier responses. -/

namespace Sys2Proof.Machine

/-! ### The errors of single commands (R221, R224, R225) -/

/-- A code of 4 or more names no kind (R171). -/
theorem kindOfCode_of_unknown {kind : Nat} (h : 4 ≤ kind) : kindOfCode kind = none := by
  obtain ⟨beyond, rfl⟩ := Nat.exists_eq_add_of_le' h
  rfl

/-- Settles O26: the code names no kind. -/
theorem unknownKindIsRejected : Obligations.UnknownKindIsRejected :=
  fun _ _ _ _ h => execCreate_next.2 (.inl ⟨kindOfCode_of_unknown h, rfl⟩)

/-- Settles O36: the index is checked right after `VALID`, and for the overflow stream after the kind. -/
theorem indexOutOfRangeIsAnswered : Obligations.IndexOutOfRangeIsAnswered := by
  intro s j hvalid
  refine ⟨fun hj => ⟨?get, ?main⟩, fun hover hj => ?overflow, fun hbase => ?base⟩
  case get => exact execGet_next.2 (.inr (.inl ⟨hvalid, hj, rfl⟩))
  case main => exact execAddr_main_next.2 (.inr (.inl ⟨hvalid, hj, rfl⟩))
  case overflow => exact execAddr_overflow_next.2 (.inr ⟨⟨hvalid, hover⟩, .inl ⟨hj, rfl⟩⟩)
  case base => exact execAddr_overflow_next.2 (.inl ⟨.inr hbase, rfl⟩)

/-- Settles O38: the length is checked right after `VALID`. -/
theorem sizeMismatchIsAnswered : Obligations.SizeMismatchIsAnswered :=
  fun _ _ hvalid hlen => execDecompress_next.2 (.inr (.inl ⟨hvalid, hlen, rfl⟩))

/-! ### What a failed command leaves, and who raises which error (R220, R226, R231) -/

/-- The error is one that the command can raise (R220); `IllegalCommand` can come from every command. -/
def Err.ComesFrom (e : Err) (i : Instr) : Prop :=
  (e = .unknownKind → i.mnemonic = "CREATE") ∧
  (e = .invalidBitWidth ∨ e = .valueOutOfRange → i.mnemonic ∈ ["COMPRESSK", "TCENC", "TCDEC"]) ∧
  (e = .indexOutOfRange → i.mnemonic ∈ ["GET", "ADDR"]) ∧
  (e = .sizeMismatch → i.mnemonic = "DECOMPRESS") ∧
  e ≠ .emptyNotAllowed

theorem Err.comesFrom_ok (i : Instr) : Err.ComesFrom .ok i := by simp [Err.ComesFrom]

/-- The response that a command gave after the earlier ones is the one that was appended to them. -/
theorem State.answer_response_eq {s u : State} {e : Err} {v : Word} {r : Response}
    (hu : u.responses = s.responses) (h : (u.answer e v).responses = s.responses ++ [r]) : r = ⟨e, v⟩ := by
  rw [State.answer_responses, hu] at h
  exact (List.singleton_inj.1 (List.append_cancel_left h)).symm

/-- Of the seven ends of a command one carries an error, which the command can raise, and it only answers. -/
theorem exec_ok_or_failed {i : Instr} {s t : State} {r : Response} (h : exec i s = .next t)
    (hr : t.responses = s.responses ++ [r]) :
    r.err = .ok ∨ (t = s.answer r.err 0 ∧ r.err.ComesFrom i) := by
  rcases exec_effect h with ⟨e, -, hempty, rfl, hkind, hrange, hindex, hsize⟩ | ⟨-, v, rfl⟩ |
    ⟨k, signed, zigzag, kd, -, rfl⟩ | ⟨len, k, -, -, -, -, -, rfl⟩ | ⟨len, -, -, -, -, -, rfl⟩ |
    ⟨vs, -, -, -, -, rfl⟩ | ⟨idx, v, -, -, rfl⟩
  · obtain rfl := State.answer_response_eq rfl hr
    exact .inr ⟨rfl, hkind, hrange, hindex, hsize, hempty⟩
  all_goals
    obtain rfl := State.answer_response_eq rfl hr
    exact .inl rfl

/-- Settles O45: the end that carries an error only answers. -/
theorem failedCommandChangesNothing : Obligations.FailedCommandChangesNothing := by
  intro i s t r h hr herr
  obtain ⟨ht, -⟩ := (exec_ok_or_failed h hr).resolve_left herr
  exact ht

/-- Settles O46: a response without an error is none of the listed ones, and an error is one that the command can
raise. -/
theorem errorsByCommand : Obligations.ErrorsByCommand := by
  intro i s t r h hr
  rcases exec_ok_or_failed h hr with hok | ⟨-, hfrom⟩
  · have hfrom := Err.comesFrom_ok i
    rwa [← hok] at hfrom
  · exact hfrom

/-! ### No command reads the earlier responses (R12, R233) -/

/-- The command ends in the same state with the same response whatever the earlier responses are, and it appends its own
to them. -/
def IgnoresResponses (i : Instr) (s : State) : Prop :=
  ∃ (u : State) (e : Err) (v : Word), ∀ old,
    exec i { s with responses := old } = .next (State.answer { u with responses := old } e v)

theorem AnswersOnly.ignoresResponses {i : Instr} {s : State} (h : AnswersOnly i s) : IgnoresResponses i s := ⟨s, h⟩

theorem inputCodes_responses (s : State) (old : List Response) (len : Nat) :
    State.inputCodes { s with responses := old } len = s.inputCodes len := rfl

theorem overflowMemory_responses (s : State) (old : List Response) (codes : List Nat) :
    overflowMemory { s with responses := old } codes = overflowMemory s codes := rfl

/-- What a compress on an overflow kind leaves depends on the earlier responses only in that it keeps them. -/
theorem afterOverflow_responses (s : State) (old : List Response) (len : Word) :
    afterOverflow { s with responses := old } len = { afterOverflow s len with responses := old } := by
  simp only [afterOverflow, inputCodes_responses, overflowMemory_responses]
  rfl

theorem compress_ignoresResponses {len : Word} {s t : State} (h : exec (.compress len) s = .next t) :
    IgnoresResponses (.compress len) s := by
  rcases execCompress_next.1 h with ⟨hillegal, -⟩ | ⟨⟨hvalid, hlen⟩, ⟨hbase, -⟩ | ⟨hover, hpack⟩⟩
  · exact ⟨s, _, _, fun _ => exec_compress_illegal hillegal⟩
  · exact ⟨afterBase s len (bitWidthFor (maxOf (s.inputCodes len.toNat))), _, _, fun _ =>
      exec_compress_base hvalid hbase hlen⟩
  · obtain ⟨⟨_, henc⟩, -⟩ := compressOverflow_next.1 hpack
    refine ⟨afterOverflow s len, .ok, 0, fun old => ?_⟩
    rw [← afterOverflow_responses]
    exact exec_compress_overflow hvalid hover hlen (packableChoice_of_encode henc)

theorem compressk_ignoresResponses {k : Nat} {len : Word} {s t : State} (h : exec (.compressk k len) s = .next t) :
    IgnoresResponses (.compressk k len) s := by
  rcases execCompressk_next.1 h with ⟨hillegal, -⟩ | ⟨hlegal, ⟨hk, -⟩ | ⟨hk, hcode, -⟩ | ⟨hk, hfit, -⟩⟩
  · exact ⟨s, _, _, fun _ => exec_compressk_illegal hillegal⟩
  · exact ⟨s, _, _, fun _ => execCompressk_next.2 (.inr ⟨hlegal, .inl ⟨hk, rfl⟩⟩)⟩
  · exact ⟨s, _, _, fun _ => execCompressk_next.2 (.inr ⟨hlegal, .inr (.inl ⟨hk, hcode, rfl⟩)⟩)⟩
  · obtain ⟨hvalid, hbase, hlen⟩ := hlegal
    exact ⟨afterBase s len k, _, _, fun _ => exec_compressk_base hvalid hbase hlen ((legalWidth_iff k).1 hk) hfit⟩

theorem decompress_ignoresResponses {len : Word} {s t : State} (h : exec (.decompress len) s = .next t) :
    IgnoresResponses (.decompress len) s := by
  rcases execDecompress_next.1 h with ⟨hnone, -⟩ | ⟨hvalid, hlen, -⟩ | ⟨hvalid, hlen, hn, vs, hvs, -⟩
  · exact ⟨s, _, _, fun _ => execDecompress_next.2 (.inl ⟨hnone, rfl⟩)⟩
  · exact ⟨s, _, _, fun _ => execDecompress_next.2 (.inr (.inl ⟨hvalid, hlen, rfl⟩))⟩
  · exact ⟨{ s with
        hdr := { s.hdr with outLen := s.hdr.n }
        mem := memSet s.mem .out (memStoreFrom (memGet s.mem .out) 0 vs) }, _, _, fun _ =>
      execDecompress_next.2 (.inr (.inr ⟨hvalid, hlen, hn, vs, hvs, rfl⟩))⟩

/-- The five commands that write the state each ignore the responses in every way they can end; the others only
answer. -/
theorem exec_ignoresResponses {i : Instr} {s t : State} (h : exec i s = .next t) : IgnoresResponses i s := by
  cases i with
  | create kind signed zigzag =>
    rcases execCreate_next.1 h with ⟨hkind, -⟩ | ⟨kd, hkind, -⟩
    · exact ⟨s, _, _, fun _ => execCreate_next.2 (.inl ⟨hkind, rfl⟩)⟩
    · exact ⟨{ s with hdr := clearedHeader s.hdr ⟨true, kd, signed, zigzag⟩ }, _, _, fun _ =>
        execCreate_next.2 (.inr ⟨kd, hkind, rfl⟩)⟩
  | compress len => exact compress_ignoresResponses h
  | compressk k len => exact compressk_ignoresResponses h
  | decompress len => exact decompress_ignoresResponses h
  | wrin idx v =>
    rcases execWrin_next.1 h with ⟨hidx, -⟩ | ⟨hidx, -⟩
    · exact ⟨s, _, _, fun _ => execWrin_next.2 (.inl ⟨hidx, rfl⟩)⟩
    · exact ⟨{ s with mem := memSet s.mem .input (memStore (memGet s.mem .input) idx v) }, _, _, fun _ =>
        execWrin_next.2 (.inr ⟨hidx, rfl⟩)⟩
  | _ => exact (answersOnly_of_isReader rfl h).ignoresResponses

/-- Settles O48: the end of a command is the same whatever the earlier responses are, so also for those of the state
itself. -/
theorem responsesAreNeverRead : Obligations.ResponsesAreNeverRead := by
  intro i s t old h
  obtain ⟨u, e, v, hend⟩ := exec_ignoresResponses h
  obtain rfl := Host.Outcome.next.inj (h.symm.trans (hend s.responses))
  exact ⟨⟨e, v⟩, rfl, hend old⟩

end Sys2Proof.Machine
end

section
/-! Reset (70_reset_and_hazards.md, section 1): what the reset input leaves, and the commands that are illegal right after
it. -/

namespace Sys2Proof.Machine

/-- Settles O8: the step takes the reset input off the channel and then resets, which leaves the later inputs and the past
responses alone. -/
theorem resetInputResets : Obligations.ResetInputResets := by
  intro s rest hin
  have hrest : (takeReset (dropInput s)).inputs = rest := by
    rw [takeReset_inputs, dropInput_inputs, hin, List.tail_cons]
  exact ⟨_, step_of_reset hin, rfl, rfl, hrest, rfl, fun _ hidx => headerRegister_reset hidx _, rfl⟩

/-- Reset leaves no packer behind (R32). -/
theorem hasPacker_reset : State.reset.hasPacker = false := rfl

/-- Settles O10: the six packer commands need a packer, which reset does not leave (R181), and the three reads are beyond
valid lengths of 0. -/
theorem commandsRightAfterReset : Obligations.CommandsRightAfterReset := by
  obtain ⟨-, -, -, hread⟩ := resetValues
  intro i hi
  have hpacker := packerCommandsNeedPacker State.reset i hasPacker_reset
  rcases hi with h | h | h | h | h | h | ⟨idx, h⟩ | ⟨idx, h⟩ | ⟨idx, h⟩
  · exact hpacker (.inl h)
  · exact hpacker (.inr (.inl h))
  · exact hpacker (.inr (.inr (.inl h)))
  · exact hpacker (.inr (.inr (.inr (.inl h))))
  · exact hpacker (.inr (.inr (.inr (.inr (.inl h)))))
  · exact hpacker (.inr (.inr (.inr (.inr (.inr h)))))
  · exact hread idx i (.inr (.inr h))
  · exact hread idx i (.inl h)
  · exact hread idx i (.inr (.inl h))

end Sys2Proof.Machine
end
